-- ==== Sys2Proof/Word.lean ====
section
/-! DEFINITION. The one word of the block: the byte. Positions, lengths and counts are natural numbers and
offsets are integers (rules R11, R12 of spec/00_scope.md), so nothing else is a bit vector here but the fields of an
encoding and the control byte and offset byte registers. -/

namespace Sys2Proof

/-- A byte is 8 bits, bit 7 the most significant (R11). -/
abbrev Byte := BitVec 8

end Sys2Proof
end

