-- ==== Sys2Proof/Config.lean ====
section
/-! DEFINITION. The constants the source fixes (R9), the parameters it leaves to the implementation (R10), and the
free values: constants without a body that stand for what the spec calls unspecified. -/

namespace Sys2Proof

/-- `WINDOW`: largest backward distance the matcher searches (R9). -/
@[simp] def Config.window : Nat := 255
/-- `MIN_CAND`: lowest position that may be a candidate start (R9). -/
@[simp] def Config.minCand : Nat := 1
/-- `MAX_MATCH`: cap on a match length, 0x7f + 0x40 + 4 (R9, R96). -/
@[simp] def Config.maxMatch : Nat := 195
/-- `MIN_MATCH`: shortest match the encoder emits (R9). -/
@[simp] def Config.minMatch : Nat := 4
/-- `MATCH_BIAS`: the match control byte holds the length less this (R9). -/
@[simp] def Config.matchBias : Nat := 4
/-- `MAX_LIT`: longest literal run (R9). -/
@[simp] def Config.maxLit : Nat := 64
/-- `LIT_TAG`: the two top bits of a literal-run control byte (R9). -/
@[simp] def Config.litTag : Byte := 0xC0
/-- `LIT_MASK`: the six low bits of a literal-run control byte (R9). -/
@[simp] def Config.litMask : Byte := 0x3F
/-- `ACC_CAP`: capacity of the pending-literal accumulator (R9, 90_conflicts.md C8). -/
@[simp] def Config.accCap : Nat := 64
/-- The longest token: a control byte and 64 data bytes (R85). -/
@[simp] def Config.maxToken : Nat := 65

/-- `OFFSET_ZERO`: what offset byte 0x00 means to the decoder (R10, R170). -/
inductive OffsetZero where
  | asMinus256
  | fault
  deriving DecidableEq, Repr

/-- The open parameters of R10. They are fixed for one instance of the block: no step of the machine changes them
(log entry 2). The defaults are the spec's: `POSW` 64, `OUT_CAP` unbounded, `OFFSET_ZERO` as_minus_256. -/
structure Params where
  /-- `POSW`: bounds stream lengths only, position arithmetic is exact. -/
  posw : Nat := 64
  /-- `OUT_CAP`: capacity of OUT in bytes, `none` is unbounded. -/
  outCap : Option Nat := none
  offsetZero : OffsetZero := .asMinus256
  deriving DecidableEq, Repr

/-- `MAXLEN = 2^POSW − 1` (R10). -/
def Params.maxLen (c : Params) : Nat := 2 ^ c.posw - 1

/-- What OUT may hold: `min(MAXLEN, OUT_CAP)` (R23, R55). -/
def Params.outLimit (c : Params) : Nat :=
  match c.outCap with
  | none => c.maxLen
  | some cap => min c.maxLen cap

/-- FREE VALUE: the `n`-th position-wide value the spec leaves unspecified (R26, 93 U7; log entry 5). No body. -/
opaque Config.freePosition : Nat → Nat
/-- FREE VALUE: the `n`-th byte the spec leaves unspecified (R26, R45, 93 U7, U8; log entry 5). No body. -/
opaque Config.freeByte : Nat → Byte
/-- FREE VALUE: the `n`-th 9-bit offset register value the spec leaves unspecified (R26, 93 U7; log entry 5). No body. -/
opaque Config.freeOffset : Nat → BitVec 9

end Sys2Proof
end

