-- ==== Sys2Proof/Syntax.lean ====
section
/-! DEFINITION. The instructions: one constructor for each row of spec/opcode_table.json. Three rows are tokens of
the compressed stream (R80, R81, R83, R93), four are the codes of the command register CMD (R190). -/

namespace Sys2Proof

/-- One constructor per row of the opcode table, its operands the row's fields. -/
inductive Instr where
  /-- LITRUN, format L (R81): `nm1 = run_length − 1` and the `run_length` raw bytes. -/
  | litrun (nm1 : BitVec 6) (data : List Byte)
  /-- MATCH.lo, format M (R83): control byte `0lllllll` (0x00..0x7F), then the offset byte. -/
  | matchLo (lm4 : BitVec 7) (ofs : Byte)
  /-- MATCH.hi, format M (R83): control byte `10llllll` (0x80..0xBF), then the offset byte. -/
  | matchHi (lm4 : BitVec 6) (ofs : Byte)
  /-- NONE, command code 0 (R190). -/
  | cmdNone
  /-- FIND, command code 1 (R110, R192). Its operand `p0` is the register ARG_P0. -/
  | cmdFind
  /-- PACK, command code 2 (R130, R193). -/
  | cmdPack
  /-- UNPACK, command code 3 (R160, R194). -/
  | cmdUnpack
  deriving DecidableEq, Repr

/-- Where an instruction's code stands: a token is bytes of the stream, a command is a 2-bit value of CMD (R93). -/
inductive Code where
  | token (bytes : List Byte)
  | command (code : BitVec 2)
  deriving DecidableEq, Repr

/-- Why the decoder rejects bytes. No control byte is illegal (R80, R94): only a missing or cut-off token is. -/
inductive DecodeError where
  /-- There is no control byte. -/
  | endOfStream
  /-- A literal-run control byte with fewer data bytes after it than it declares (R165). -/
  | truncatedLiteralRun (c : Byte)
  /-- A match control byte with no offset byte after it (R167). -/
  | truncatedMatch (c : Byte)
  deriving DecidableEq, Repr

end Sys2Proof
end

