-- ==== Sys2Proof/WellFormed.lean ====
section
/-! DEFINITION. Which terms of `Instr` stand for an instruction of the block. -/

namespace Sys2Proof

/-- A literal run carries exactly the `nm1 + 1` bytes its control byte declares (R81); every value of every other
operand is legal (R94). -/
def Instr.wf : Instr → Bool
  | .litrun nm1 data => data.length == nm1.toNat + 1
  | .matchLo _ _ => true
  | .matchHi _ _ => true
  | .cmdNone => true
  | .cmdFind => true
  | .cmdPack => true
  | .cmdUnpack => true

end Sys2Proof
end

