-- ==== Sys2Proof/Decode.lean ====
section
/-! DEFINITION. The token format (spec/30_encoding.md): the field formulas of R87 to R90, the decoder, total on any
bytes, the encoder written from the same rules, the assembler notation of R100 and R101, and the host's reading of a
row of the opcode table. -/

namespace Sys2Proof

/-! ## Field values (R87 to R90) -/

/-- A control byte starts a literal run when both top bits are set: `(c & 0xC0) == 0xC0` (R80). -/
def isLiteral (c : Byte) : Bool := (c &&& Config.litTag) == Config.litTag

/-- `run_length = (c & 0x3F) + 1` (R87). -/
def litRunLength (c : Byte) : Nat := (c &&& Config.litMask).toNat + 1

/-- `c = (len − 1) | 0xC0` (R87), for a length in 1..64. -/
def litControl (len : Nat) : Byte := BitVec.ofNat 8 (len - 1) ||| Config.litTag

/-- `matched_length = c + 4` (R88). -/
def matchLength (c : Byte) : Nat := c.toNat + Config.matchBias

/-- The match control byte `match_length − 4` (R88), for a length in 4..195. -/
def matchControl (len : Nat) : Byte := BitVec.ofNat 8 (len - Config.matchBias)

/-- `negoff(o) = o − 256`: the bits above the low 8 forced to one (R13, R90). Not the 8-bit sign extension. -/
def negoff (o : Byte) : Int := (o.toNat : Int) - 256

/-- The offset truncated to its low 8 bits, `offset mod 256` (R89). -/
def offsetByte (off : Int) : Byte := BitVec.ofInt 8 off

/-- The bytes a token still needs after its control byte (R85). -/
def tokenNeed (c : Byte) : Nat := if isLiteral c then litRunLength c else 1

/-! ## Control bytes of the three token rows -/

/-- LITRUN: `11nnnnnn` (R81). -/
def litrunControl (nm1 : BitVec 6) : Byte := 0b11#2 ++ nm1

/-- MATCH.lo: `0lllllll` (R93). -/
def matchLoControl (lm4 : BitVec 7) : Byte := 0b0#1 ++ lm4

/-- MATCH.hi: `10llllll` (R93). -/
def matchHiControl (lm4 : BitVec 6) : Byte := 0b10#2 ++ lm4

/-! ## The decoder -/

/-- The match row of a control byte below 0xC0: bit 7 tells MATCH.lo from MATCH.hi (R93). -/
def decodeMatch (c o : Byte) : Instr :=
  if (c &&& 0x80) == 0 then .matchLo (c.extractLsb' 0 7) o else .matchHi (c.extractLsb' 0 6) o

/-- One token off the front of a stream, and what is left of it (R80, R85, R86). Total: every control byte is legal,
and bytes that hold no whole token are rejected by name. -/
def decodeToken : List Byte → Except DecodeError (Instr × List Byte)
  | [] => .error .endOfStream
  | c :: rest =>
    if isLiteral c then
      if rest.length < litRunLength c then .error (.truncatedLiteralRun c)
      else .ok (.litrun (c.extractLsb' 0 6) (rest.take (litRunLength c)), rest.drop (litRunLength c))
    else
      match rest with
      | [] => .error (.truncatedMatch c)
      | o :: rest => .ok (decodeMatch c o, rest)

/-- The command of a CMD value: all four values are defined (R190). -/
def decodeCommand (code : BitVec 2) : Instr :=
  if code = 0 then .cmdNone
  else if code = 1 then .cmdFind
  else if code = 2 then .cmdPack
  else .cmdUnpack

/-- The decoder of both code spaces. -/
def decode : Code → Except DecodeError (Instr × List Byte)
  | .token bytes => decodeToken bytes
  | .command code => .ok (decodeCommand code, [])

/-! ## The encoder -/

/-- The code of an instruction (R82, R84, R190). -/
def encode : Instr → Code
  | .litrun nm1 data => .token (litrunControl nm1 :: data)
  | .matchLo lm4 ofs => .token [matchLoControl lm4, ofs]
  | .matchHi lm4 ofs => .token [matchHiControl lm4, ofs]
  | .cmdNone => .command 0
  | .cmdFind => .command 1
  | .cmdPack => .command 2
  | .cmdUnpack => .command 3

/-- The bytes an instruction puts on the wire; a command puts none (R102). -/
def tokenBytes (i : Instr) : List Byte :=
  match encode i with
  | .token bytes => bytes
  | .command _ => []

/-- An instruction that is a token. -/
def Instr.isToken : Instr → Bool
  | .litrun _ _ => true
  | .matchLo _ _ => true
  | .matchHi _ _ => true
  | .cmdNone => false
  | .cmdFind => false
  | .cmdPack => false
  | .cmdUnpack => false

/-- How many bytes a token appends to OUT (R87, R88); a command appends none itself. -/
def Instr.outputLength : Instr → Nat
  | .litrun _ data => data.length
  | .matchLo lm4 _ => matchLength (matchLoControl lm4)
  | .matchHi lm4 _ => matchLength (matchHiControl lm4)
  | .cmdNone => 0
  | .cmdFind => 0
  | .cmdPack => 0
  | .cmdUnpack => 0

/-! ## Assembler notation (R100, R101) -/

/-- `LIT n: b0 … b(n−1)`, for 1 to 64 bytes. -/
def asmLit (data : List Byte) : Option Instr :=
  if 1 ≤ data.length ∧ data.length ≤ Config.maxLit then
    some (.litrun (BitVec.ofNat 6 (data.length - 1)) data)
  else none

/-- `MATCH len, off`, for a length in 4..195 and an offset in −256..−1. -/
def asmMatch (len : Nat) (off : Int) : Option Instr :=
  if Config.minMatch ≤ len ∧ len ≤ Config.maxMatch ∧ -256 ≤ off ∧ off ≤ -1 then
    some (decodeMatch (matchControl len) (offsetByte off))
  else none

/-- A byte as two hexadecimal digits (R18). -/
def hexByte (b : Byte) : String :=
  String.ofList [Nat.digitChar (b.toNat / 16), Nat.digitChar (b.toNat % 16)]

/-- The text of an instruction in the notation of R100 and R102. -/
def toAsm : Instr → String
  | .litrun nm1 data => "LIT " ++ Nat.repr (nm1.toNat + 1) ++ ":" ++ String.join (data.map fun b => " " ++ hexByte b)
  | .matchLo lm4 ofs => "MATCH " ++ Nat.repr (matchLength (matchLoControl lm4)) ++ ", -" ++ Nat.repr (256 - ofs.toNat)
  | .matchHi lm4 ofs => "MATCH " ++ Nat.repr (matchLength (matchHiControl lm4)) ++ ", -" ++ Nat.repr (256 - ofs.toNat)
  | .cmdNone => "NONE"
  | .cmdFind => "FIND"
  | .cmdPack => "PACK"
  | .cmdUnpack => "UNPACK"

/-! ## Words as spec/opcode_table.json numbers them -/

/-- A word of 8 bits or fewer below 4 is a value of CMD (the table's 2-bit command rows, in whole bytes); every other
word is a token (log entry 3). -/
def isCommandWord (nbits w : Nat) : Bool := nbits ≤ 8 && w < 4

/-- The token bytes of a word of the table. The table writes the control byte as the HIGH byte of a 16-bit row
("match/mask are written with the control byte as the high byte"), so the first byte of the stream is the word's most
significant byte (log entry 3); the operand bytes the row has no bits for are zeros, up to the longest token. -/
def tableBytes (nbits w : Nat) : List Byte :=
  let k := (nbits + 7) / 8
  (((List.range k).map fun j => BitVec.ofNat 8 (w / 256 ^ (k - 1 - j))) ++ List.replicate Config.maxToken 0).take
    Config.maxToken

/-- The instruction the decoder reads from a word numbered as the table numbers it. -/
def decodeTableWord (nbits w : Nat) : Option Instr :=
  if isCommandWord nbits w then some (decodeCommand (BitVec.ofNat 2 w))
  else
    match decodeToken (tableBytes nbits w) with
    | .ok (i, _) => some i
    | .error _ => none

end Sys2Proof
end

