-- ==== Sys2Proof/Machine/State.lean ====
section
/-! DEFINITION. The state of one instance of the block, as plain data (spec/10_state.md), the reasons a step can stop,
and the state after reset. `IN.pos` is the program counter (R30). Positions, lengths and counts are natural numbers
(R10, R12), so a register's range is an invariant (Safety.lean), not a width (log entry 13). -/

namespace Sys2Proof.Machine

/-! ## Memory -/

/-- The bytes of one address space in one canonical form: addresses strictly rising, no entry equal to what an
unlisted address reads as. -/
abbrev Memory := List Host.Cell

/-- What an unlisted address reads as: 0x00 (log entry 6). No rule reads a position nothing has written. -/
def Memory.unlisted : Byte := 0

/-- The canonical form, every address at least `lo`. -/
def Memory.wfFrom : Nat → Memory → Bool
  | _, [] => true
  | lo, (a, b) :: m => decide (lo ≤ a) && (b != Memory.unlisted) && Memory.wfFrom (a + 1) m

/-- The canonical form. -/
def Memory.wf (m : Memory) : Bool := Memory.wfFrom 0 m

/-! ## Streams -/

/-- The three address spaces (R50). -/
inductive StreamName where
  | inp
  | out
  | acc
  deriving DecidableEq, Repr

/-- A byte stream without a cursor: OUT (R23) and ACC (R24). Storage at and beyond `len` is kept but unreadable
(R40, R41). -/
structure ByteStream where
  mem : Memory
  len : Nat
  deriving DecidableEq, Repr

/-- IN, the stream with a read cursor (R22). `pos` is the program counter (R30). -/
structure InputStream extends ByteStream where
  pos : Nat
  deriving DecidableEq, Repr

/-! ## Registers -/

/-- The commands, which also code the register OP (R35, R190). -/
inductive Cmd where
  | none
  | find
  | pack
  | unpack
  deriving DecidableEq, Repr

/-- PHASE (R35): 0 IDLE, 1 BUSY, 2 DONE, 3 FAULT. -/
inductive Phase where
  | idle
  | busy
  | done
  | fault
  deriving DecidableEq, Repr

/-- STATUS (R35, R210): 0 OK, 1 SEEK, 2 TRUNCATED, 3 DISTANCE, 4 CAPACITY. The last four name the four exceptions. -/
inductive Status where
  | ok
  | seek
  | truncated
  | distance
  | capacity
  deriving DecidableEq, Repr

/-- The working registers of R25 but MLEN and MPOS, which the host can read. -/
structure Work where
  /-- `IN.len` sampled when the operation starts. -/
  l : Nat
  /-- `OUT.len` sampled when PACK starts. -/
  out0 : Nat
  /-- The cursor position the search is for. -/
  p0 : Nat
  /-- The candidate start position being tried. -/
  p : Nat
  /-- The run length counted so far at candidate P. -/
  k : Nat
  /-- The signed offset of the match being emitted or executed. -/
  off : Int
  /-- The control byte of the token being executed. -/
  c : Byte
  /-- The offset byte of the match token being executed. -/
  o : Byte
  /-- The run length or matched length of the token being executed. -/
  n : Nat
  /-- The number of bytes of the current token already appended. -/
  i : Nat
  /-- The first source position of a match copy. -/
  base : Nat
  deriving DecidableEq, Repr

/-- The host-visible registers (R35). -/
inductive HostReg where
  | cmd
  | argP0
  | phase
  | op
  | status
  | info
  | result
  | mlen
  | mpos
  deriving DecidableEq, Repr

/-- What the host can do that changes state (R197). -/
inductive HostMove where
  /-- `reset(IN)`. -/
  | resetIn
  /-- Append one byte to IN. -/
  | appendIn (b : Byte)
  /-- `reset(OUT)`. -/
  | resetOut
  /-- Write a register: CMD starts a command, ARG_P0 takes the value, the others are read-only. -/
  | write (r : HostReg) (v : Nat)
  /-- Reset the block. -/
  | resetBlock
  deriving DecidableEq, Repr

/-! ## The state -/

/-- One instance of the block and its host's moves to come. -/
structure State where
  /-- The open parameters of R10, which no step changes (log entry 2). -/
  params : Params
  /-- IN (R22) with the program counter `IN.pos` (R30). -/
  inp : InputStream
  /-- OUT (R23). -/
  out : ByteStream
  /-- ACC (R24). -/
  acc : ByteStream
  /-- The working registers (R25). -/
  work : Work
  /-- MLEN (R25, R35). -/
  mlen : Nat
  /-- MPOS (R25, R35). -/
  mpos : Nat
  /-- ARG_P0 (R35). -/
  argP0 : Nat
  /-- PHASE (R35). -/
  phase : Phase
  /-- OP (R35). -/
  op : Cmd
  /-- STATUS (R35). -/
  status : Status
  /-- INFO (R35). -/
  info : Nat
  /-- RESULT (R35). -/
  result : Nat
  /-- The model's own: the host's moves to come, oldest first; `some m` is the host's turn, `none` is one step of the
  sequencer, and after the list's end every step is the sequencer's (log entry 4). -/
  host : List (Option HostMove)
  /-- The model's own: how many free values have been drawn (log entry 5). -/
  free : Nat
  deriving DecidableEq, Repr

/-! ## Why a step stops -/

/-- Internal errors: accesses outside the contract of the stream operations, distinct from the four exceptions of R210
(R56, 93 U13; log entry 11). No state that meets the invariant reaches one. SAFE: the machine stops where the spec gives no value. -/
inductive Fault where
  /-- `peek` or `read` of a position at or beyond the stream's length (R56). Raised by the matcher, the fetch and the
  match copy. Safe. -/
  | invalidRead (stream : StreamName) (position : Nat)
  /-- An append to an accumulator that holds 64 bytes already (R55, R252). Raised by ACCUMULATE. Safe. -/
  | accumulatorOverflow
  deriving DecidableEq, Repr

/-- Moves the model does not offer. -/
inductive Refusal where
  /-- An instruction without a meaning. No arm of `exec` answers it. -/
  | notModelled (mnemonic : String)
  /-- The host touches IN, OUT or ARG_P0 while PHASE is BUSY: the model has no such move (R74, R197, 93 U10; log entry 9).
  Raised by the host port. Safe. -/
  | hostAccessWhileBusy
  /-- The host loads more than MAXLEN bytes into IN (R10, R22; log entry 10). Raised by the host port. Safe. -/
  | hostInputTooLong
  /-- The host writes a value a register is too narrow to take: CMD above 3, ARG_P0 above MAXLEN (R35, R36; log entry 10).
  Raised by the host port. Safe. -/
  | hostValueTooWide
  deriving DecidableEq, Repr

/-! ## Reset -/

/-- The working registers after reset: the spec gives them no value; all zero is the model's choice (log entry 7). -/
def Work.reset : Work :=
  { l := 0, out0 := 0, p0 := 0, p := 0, k := 0, off := 0, c := 0, o := 0, n := 0, i := 0, base := 0 }

/-- The machine right after reset (R45, R240), its streams empty (log entry 8), its parameters the defaults of R10. -/
def State.reset : State :=
  { params := {}
    inp := { mem := [], len := 0, pos := 0 }
    out := { mem := [], len := 0 }
    acc := { mem := [], len := 0 }
    work := Work.reset
    mlen := 0
    mpos := 0
    argP0 := 0
    phase := .idle
    op := .none
    status := .ok
    info := 0
    result := 0
    host := []
    free := 0 }

/-! ## Setters: each writes one piece of state and nothing else -/

def State.setInp (s : State) (v : InputStream) : State := { s with inp := v }
def State.setOut (s : State) (v : ByteStream) : State := { s with out := v }
def State.setAcc (s : State) (v : ByteStream) : State := { s with acc := v }
def State.setWork (s : State) (v : Work) : State := { s with work := v }
/-- The match candidate `(MLEN, MPOS)`. -/
def State.setBest (s : State) (len pos : Nat) : State := { s with mlen := len, mpos := pos }
def State.setArgP0 (s : State) (v : Nat) : State := { s with argP0 := v }
def State.setPhase (s : State) (v : Phase) : State := { s with phase := v }
def State.setOp (s : State) (v : Cmd) : State := { s with op := v }
/-- The fault record `(STATUS, INFO)`. -/
def State.setStatus (s : State) (st : Status) (info : Nat) : State := { s with status := st, info := info }
def State.setResult (s : State) (v : Nat) : State := { s with result := v }
def State.setHost (s : State) (v : List (Option HostMove)) : State := { s with host := v }
/-- Count `n` more free values drawn. -/
def State.drawFree (s : State) (n : Nat) : State := { s with free := s.free + n }

end Sys2Proof.Machine
end

