-- ==== Sys2Proof/Machine/Operands.lean ====
section
/-! DEFINITION. The address forms of R63 and the position arithmetic of R99 that is not part of the token format. -/

namespace Sys2Proof.Machine

/-- The lowest candidate start, `max(1, P0 − 255)` on integers (R99 (a), R112). -/
def windowLow (p0 : Nat) : Nat := if p0 > Config.window + Config.minCand then p0 - Config.window else Config.minCand

/-- How many candidate starts the window holds (R112, R120). -/
def windowCount (p0 : Nat) : Nat := p0 - windowLow p0

/-- `OFF = MPOS − IN.pos`, from the cursor the matcher was run at (R99 (d), R254). -/
def matchOffset (mpos pos : Nat) : Int := (mpos : Int) - (pos : Int)

/-- `OUT.len + OFF`, the start of a match's source; negative when it lies before the start of OUT (R99 (k)). -/
def matchSource (outLen : Nat) (off : Int) : Int := (outLen : Int) + off

/-- The match length the encoder emits, clamped to 195 (R141). -/
def clampLength (len : Nat) : Nat := if len > Config.maxMatch then Config.maxMatch else len

end Sys2Proof.Machine
end

