-- ==== Sys2Proof/Machine/Flags.lean ====
section
/-! DEFINITION. The predicates of R33. The block stores no condition flag: each is computed from state where it is
read. The fifth, `is_literal`, is `isLiteral` of Decode.lean. -/

namespace Sys2Proof.Machine

/-- `remaining(IN)`: the loop test of PACK and UNPACK, against the sampled length `L` (R33, R130, R160). -/
def State.inputRemains (s : State) : Bool := decide (s.inp.pos < s.work.l)

/-- `usable`: `MLEN > 3` (R33, R134). -/
def State.usable (s : State) : Bool := decide (s.mlen > 3)

/-- `acc_nonempty`: `ACC.len > 0` (R33, R145). -/
def State.accNonempty (s : State) : Bool := decide (s.acc.len > 0)

/-- `acc_full`: `ACC.len = 64` (R33, R144). -/
def State.accFull (s : State) : Bool := decide (s.acc.len = Config.accCap)

end Sys2Proof.Machine
end

