-- ==== Sys2Proof/Machine/Ops.lean ====
section
/-! DEFINITION. The named operations: memory and streams (spec/20_memory.md R52 to R62), accepting a command (R191),
completing an operation (R195), taking an exception (R220), and the block's reset (R240). There is no return from an
exception (R224): the next accepted command or reset is what clears the record. -/

namespace Sys2Proof.Machine

/-! ## Memory -/

/-- The byte at an address of one address space. -/
def Memory.read : Memory → Nat → Byte
  | [], _ => Memory.unlisted
  | (k, v) :: m, a => if k = a then v else Memory.read m a

/-- Write one byte, keeping the canonical form. -/
def Memory.write : Memory → Nat → Byte → Memory
  | [], a, b => if b = Memory.unlisted then [] else [(a, b)]
  | (k, v) :: m, a, b =>
    if a < k then if b = Memory.unlisted then (k, v) :: m else (a, b) :: (k, v) :: m
    else if a = k then if b = Memory.unlisted then m else (a, b) :: m
    else (k, v) :: Memory.write m a b

/-- Write bytes at rising addresses. -/
def Memory.writeList : Memory → Nat → List Byte → Memory
  | m, _, [] => m
  | m, a, b :: bs => Memory.writeList (Memory.write m a b) (a + 1) bs

/-! ## Streams -/

/-- `peek(S, a)`: valid below the length only, and no state changes (R53, R56). -/
def ByteStream.peek (t : ByteStream) (a : Nat) : Option Byte := if a < t.len then some (t.mem.read a) else none

/-- `append(S, b)`: the byte goes to the end (R55). -/
def ByteStream.append (t : ByteStream) (b : Byte) : ByteStream := { mem := t.mem.write t.len b, len := t.len + 1 }

/-- `append_bytes(S, bs)`: one byte after another (R57). -/
def ByteStream.appendBytes : ByteStream → List Byte → ByteStream
  | t, [] => t
  | t, b :: bs => ByteStream.appendBytes (t.append b) bs

/-- `reset(S)`: emptied, the storage and its old bytes kept (R60, R40). -/
def ByteStream.reset (t : ByteStream) : ByteStream := { t with len := 0 }

/-- `length(S)` (R59). -/
def ByteStream.length (t : ByteStream) : Nat := t.len

/-- The live bytes, lowest position first. -/
def ByteStream.bytes (t : ByteStream) : List Byte := (List.range t.len).map t.mem.read

/-- `append_stream(S, T)`: the live bytes of `T`, lowest position first (R57). -/
def ByteStream.appendStream (t u : ByteStream) : ByteStream := t.appendBytes u.bytes

/-- `position(IN)` (R59). -/
def InputStream.position (t : InputStream) : Nat := t.pos

/-- `remaining(IN)` (R59). -/
def InputStream.remaining (t : InputStream) : Bool := decide (t.pos < t.len)

/-- `read(IN)`: the byte at the cursor, and the cursor one further (R54). -/
def InputStream.read (t : InputStream) : Option (Byte × InputStream) :=
  if t.pos < t.len then some (t.mem.read t.pos, { t with pos := t.pos + 1 }) else none

/-- `seek(IN, n)` from the cursor: moves within `0 ≤ pos ≤ len` or fails and changes nothing (R58). -/
def InputStream.seek (t : InputStream) (n : Nat) : Option InputStream :=
  if t.pos + n ≤ t.len then some { t with pos := t.pos + n } else none

/-- `reset(IN)` (R60). -/
def InputStream.reset (t : InputStream) : InputStream := { t with len := 0, pos := 0 }

/-- The host's append to IN: the cursor does not move (R55, R197). -/
def InputStream.append (t : InputStream) (b : Byte) : InputStream :=
  { t with mem := t.mem.write t.len b, len := t.len + 1 }

/-! ## Free values -/

/-- A position-wide free value: what a POSW-bit register holds when the spec says it is unspecified. -/
def State.freePosition (s : State) (n : Nat) : Nat := Config.freePosition (s.free + n) % (s.params.maxLen + 1)

/-- An 8-bit free value. -/
def State.freeCount (s : State) (n : Nat) : Nat := (Config.freeByte (s.free + n)).toNat

/-- The working registers an ended operation leaves unspecified (R26, 93 U7): free values. P0 keeps its value. -/
def State.releaseWork (s : State) : State :=
  (s.setWork
    { l := s.freePosition 0
      out0 := s.freePosition 1
      p0 := s.work.p0
      p := s.freePosition 2
      k := s.freeCount 0
      off := (Config.freeOffset s.free).toInt
      c := Config.freeByte (s.free + 1)
      o := Config.freeByte (s.free + 2)
      n := s.freeCount 3
      i := s.freeCount 4
      base := s.freePosition 3 }).drawFree 5

/-! ## Commands and exceptions -/

/-- START(cmd) of R191, with the per-operation reset of R46. -/
def State.start (cmd : Cmd) (s : State) : State :=
  let s := (((s.setOp cmd).setPhase .busy).setStatus .ok 0).setResult 0
  let s := s.setWork { s.work with l := s.inp.length }
  match cmd with
  | .none => s
  | .find => s.setWork { s.work with p0 := s.argP0 }
  | .pack => (s.setWork { s.work with out0 := s.out.length }).setAcc s.acc.reset
  | .unpack => s

/-- The normal end of an operation: RESULT, PHASE <- DONE (R146, R172, R192, R195), the working registers
unspecified (R26). -/
def State.finish (s : State) (result : Nat) : State := ((s.setResult result).setPhase .done).releaseWork

/-- TAKING AN EXCEPTION, `raise X(info)` of R220: the record, RESULT 0, the accumulator emptied (R149), PHASE <- FAULT;
the working registers unspecified (R26). Nothing else is saved and control goes nowhere. -/
def State.raise (s : State) (x : Status) (info : Nat) : State :=
  ((((s.setStatus x info).setResult 0).setAcc s.acc.reset).setPhase .fault).releaseWork

/-- The accumulator's 64 bytes of storage when the spec leaves them unspecified (R45, 93 U8): free values. -/
def State.freeStorage (s : State) : Memory :=
  Memory.writeList [] 0 ((List.range Config.accCap).map fun j => Config.freeByte (s.free + 5 + j))

/-- Reset of the block (R240, R241): IN, OUT and the parameters are not touched, the working registers and the
accumulator's storage are unspecified, hence free. The host's moves to come are not the block's. -/
def State.resetBlock (s : State) : State :=
  (((((((((s.releaseWork).setWork { s.releaseWork.work with p0 := s.freePosition 4 }).setAcc
    { mem := s.freeStorage, len := 0 }).drawFree Config.accCap).setBest 0 0).setArgP0 0).setPhase .idle).setOp
    .none).setStatus .ok 0).setResult 0

/-! ## Sequencing: a statement goes on, raises, or makes an access outside the contract -/

/-- What a statement of the pseudocode ends in. -/
inductive Flow where
  /-- The next statement runs. -/
  | go (s : State)
  /-- An exception was taken: no further statement of the operation is executed (R220). -/
  | raised (s : State)
  /-- An access outside the contract (R56). -/
  | fault (f : Fault)
  deriving DecidableEq, Repr

/-- One statement after another (R17). -/
def Flow.andThen (x : Flow) (f : State → Flow) : Flow :=
  match x with
  | .go s => f s
  | .raised s => .raised s
  | .fault e => .fault e

/-- The outcome of a meaning: an exception taken is a next state. -/
def Flow.outcome : Flow → Host.Outcome State Fault Refusal
  | .go s => .next s
  | .raised s => .next s
  | .fault e => .fault e

/-! ## Stream operations on the state -/

/-- `peek(IN, a)` (R53). -/
def peekInput (t : ByteStream) (a : Nat) : Except Fault Byte :=
  match t.peek a with
  | some b => .ok b
  | none => .error (.invalidRead .inp a)

/-- `peek(OUT, a)` (R53). -/
def State.peekOut (s : State) (a : Nat) : Except Fault Byte :=
  match s.out.peek a with
  | some b => .ok b
  | none => .error (.invalidRead .out a)

/-- `append(OUT, b)`: CapacityFault(OUT.len) when OUT is full, and nothing written (R55, R211, R216). -/
def State.appendOut (s : State) (b : Byte) : Flow :=
  if s.out.len < s.params.outLimit then .go (s.setOut (s.out.append b))
  else .raised (s.raise .capacity s.out.len)

/-- `append_bytes(OUT, bs)`: stops at the append that raises (R57). -/
def State.appendOutBytes : List Byte → State → Flow
  | [], s => .go s
  | b :: bs, s => (s.appendOut b).andThen (State.appendOutBytes bs)

/-- `append(ACC, b)`: the accumulator holds at most 64 bytes (R55, R252). -/
def State.appendAcc (s : State) (b : Byte) : Flow :=
  if s.acc.len < Config.accCap then .go (s.setAcc (s.acc.append b)) else .fault .accumulatorOverflow

/-- `read(IN)`: its byte goes to the statement that reads (R54). -/
def State.readIn (s : State) (f : Byte → State → Flow) : Flow :=
  match s.inp.read with
  | some (b, inp) => f b (s.setInp inp)
  | none => .fault (.invalidRead .inp s.inp.pos)

/-- A command as a resumable instruction: accepted when no operation runs (R191), one step of the operation when it is
the one that runs (R20), dropped when another one runs (R191). -/
def State.command (cmd : Cmd) (run : State → Flow) (s : State) : Host.Outcome State Fault Refusal :=
  if s.phase = .busy then
    if s.op = cmd then (run s).outcome else .next s
  else .next (s.start cmd)

end Sys2Proof.Machine
end

