-- ==== Sys2Proof/Machine/Commands.lean ====
section
/-! DEFINITION. The command NONE (spec/43_commands.md R190). The other three commands stand with their units:
Matcher.lean, Encoder.lean, Decoder.lean. -/

namespace Sys2Proof.Machine

/-- NONE: no effect, PHASE and all state unchanged (R190). -/
def execNone (s : State) : Host.Outcome State Fault Refusal := .next s

end Sys2Proof.Machine
end

