-- ==== Sys2Proof/Machine/Decoder.lean ====
section
/-! DEFINITION. The decoder: the tokens LITRUN and MATCH, and UNPACK (spec/42_decoder.md). A token is executed with
`IN.pos` at its control byte; each of its bytes is consumed by a `read(IN)` as the pseudocode does. The spec gives the
working registers any value outside the statement that uses them (93 U7); that C, O, N, I, OFF and BASE keep the last
token's values while UNPACK runs is the model's choice (log entry 22). -/

namespace Sys2Proof.Machine

/-! ## Consuming a token's bytes -/

/-- `C <- read(IN)` of a control byte already decoded (R164). -/
def fetchControl (c : Byte) (s : State) : Flow := s.readIn fun _ s => .go (s.setWork { s.work with c := c })

/-- `O <- read(IN)`, `OFF <- O − 256` (R168). -/
def fetchOffset (o : Byte) (s : State) : Flow :=
  s.readIn fun _ s => .go (s.setWork { s.work with o := o, off := negoff o })

/-- TruncatedFault at the position of the control byte (R165, R167, R211). -/
def raiseTruncated (s : State) : Flow := .raised (s.raise .truncated (s.inp.pos - 1))

/-- DistanceFault at the position of the control byte (R169, R170, R211). -/
def raiseDistance (s : State) : Flow := .raised (s.raise .distance (s.inp.pos - 2))

/-- What the fetch does with bytes the decoder rejects: the control byte is read, and the token is cut off (R165, R167);
a token the sampled length would allow but IN does not hold is an invalid read (R56; log entries 11 and 16). -/
def rejectToken (e : DecodeError) (s : State) : Flow :=
  match e with
  | .endOfStream => .fault (.invalidRead .inp s.inp.pos)
  | .truncatedLiteralRun c =>
    (fetchControl c s).andThen fun s =>
      if s.work.l - s.inp.pos < litRunLength c then raiseTruncated s else .fault (.invalidRead .inp s.inp.len)
  | .truncatedMatch c =>
    (fetchControl c s).andThen fun s =>
      if s.inp.pos ≥ s.work.l then raiseTruncated s else .fault (.invalidRead .inp s.inp.len)

/-! ## LITRUN (R166) -/

/-- `append(OUT, read(IN))` for each data byte, in order. -/
def copyLiterals : List Byte → State → Flow
  | [], s => .go s
  | b :: bs, s =>
    s.readIn fun _ s =>
    (s.appendOut b).andThen fun s =>
    copyLiterals bs (s.setWork { s.work with i := s.work.i + 1 })

/-- LITRUN (R166): the whole run must be there before anything is appended (R165). C, N and I keep their last values
after it, I = N (DESIGN CHOICE, log entry 22). -/
def runLitrun (nm1 : BitVec 6) (data : List Byte) (s : State) : Flow :=
  (fetchControl (litrunControl nm1) s).andThen fun s =>
  let n := litRunLength (litrunControl nm1)
  let s := s.setWork { s.work with n := n, i := 0 }
  if s.work.l - s.inp.pos < n then raiseTruncated s else copyLiterals data s

/-! ## MATCH (R168) -/

/-- The copy loop: `append(OUT, peek(OUT, BASE + I))`, one byte at a time, so that a later peek reads bytes this token
appended (R171, R250). -/
def copyMatch : Nat → State → Flow
  | 0, s => .go s
  | n + 1, s =>
    match s.peekOut (s.work.base + s.work.i) with
    | .error e => .fault e
    | .ok b =>
      (s.appendOut b).andThen fun s => copyMatch n (s.setWork { s.work with i := s.work.i + 1 })

/-- MATCH (R168), its checks in the order of R219: no offset byte (R167), offset byte 0x00 when the parameter says so
(R170), a source before the start of OUT (R169). C, O, N, I, OFF and BASE keep their last values after it, I = N (DESIGN
CHOICE, log entry 22). -/
def runMatch (c o : Byte) (s : State) : Flow :=
  (fetchControl c s).andThen fun s =>
  if s.inp.pos ≥ s.work.l then raiseTruncated s else
  (fetchOffset o s).andThen fun s =>
  if o = 0 ∧ s.params.offsetZero = .fault then raiseDistance s else
  let s := s.setWork { s.work with n := matchLength c }
  if matchSource s.out.len s.work.off < 0 then raiseDistance s else
  let s := s.setWork { s.work with base := (matchSource s.out.len s.work.off).toNat, i := 0 }
  copyMatch s.work.n s

/-! ## The tokens' meanings -/

/-- LITRUN (R166). -/
def execLitrun (nm1 : BitVec 6) (data : List Byte) (s : State) : Host.Outcome State Fault Refusal :=
  (runLitrun nm1 data s).outcome

/-- MATCH with a control byte in 0x00..0x7F (R168). -/
def execMatchLo (lm4 : BitVec 7) (ofs : Byte) (s : State) : Host.Outcome State Fault Refusal :=
  (runMatch (matchLoControl lm4) ofs s).outcome

/-- MATCH with a control byte in 0x80..0xBF (R168). -/
def execMatchHi (lm4 : BitVec 6) (ofs : Byte) (s : State) : Host.Outcome State Fault Refusal :=
  (runMatch (matchHiControl lm4) ofs s).outcome

/-! ## UNPACK (R160) -/

/-- The bytes at the cursor up to the sampled length, at most the longest token: what the decoder is given. -/
def State.fetchBytes (s : State) : List Byte :=
  (List.range (min (min s.work.l s.inp.len - s.inp.pos) Config.maxToken)).map fun j => s.inp.mem.read (s.inp.pos + j)

/-- The token at the cursor (R164). -/
def State.fetchToken (s : State) : Except DecodeError Instr := (decodeToken s.fetchBytes).map Prod.fst

/-- One token's statements. A command is no token and never comes out of the token decoder. -/
def runToken (i : Instr) (s : State) : Flow :=
  match i with
  | .litrun nm1 data => runLitrun nm1 data s
  | .matchLo lm4 ofs => runMatch (matchLoControl lm4) ofs s
  | .matchHi lm4 ofs => runMatch (matchHiControl lm4) ofs s
  | .cmdNone => .go s
  | .cmdFind => .go s
  | .cmdPack => .go s
  | .cmdUnpack => .go s

/-- One step of the running UNPACK command: the token at the cursor while input remains, then RESULT <- OUT.len
(R160, R172). -/
def runUnpack (s : State) : Flow :=
  if s.inputRemains then
    match s.fetchToken with
    | .ok i => runToken i s
    | .error e => rejectToken e s
  else .go (s.finish s.out.len)

/-- UNPACK: accepted (R191), then R160 one token at a time (R194; log entry 1). -/
def execUnpack (s : State) : Host.Outcome State Fault Refusal := s.command .unpack runUnpack

end Sys2Proof.Machine
end

