-- ==== Sys2Proof/Machine/Matcher.lean ====
section
/-! DEFINITION. The matcher: `find_best_match` (spec/40_matcher.md) and the command FIND (R192). It reads IN by `peek`
only and writes MLEN, MPOS and its scratch registers (R118). -/

namespace Sys2Proof.Machine

/-- The `while` of R110 at candidate `p`: count equal bytes from `k` on, at most `fuel` more, stopping at the first
unequal pair and at the end of the input `l` (R114). The bound is tested before the peeks (R124). -/
def countRun (inp : ByteStream) (l p p0 : Nat) : Nat → Nat → Except Fault Nat
  | 0, k => .ok k
  | fuel + 1, k =>
    if p0 + k < l then
      match peekInput inp (p + k), peekInput inp (p0 + k) with
      | .ok x, .ok y => if x = y then countRun inp l p p0 fuel (k + 1) else .ok k
      | .error e, _ => .error e
      | .ok _, .error e => .error e
    else .ok k

/-- The run length at candidate `p` for cursor `p0`, capped at 195 (R114). -/
def runLength (inp : ByteStream) (l p p0 : Nat) : Except Fault Nat := countRun inp l p p0 Config.maxMatch 0

/-- The `for` of R110: `n` candidates from `p` down, the best so far being `(len, pos)`. A candidate replaces the best
only when strictly longer (R115); the scan stops once the best is 195 (R117). -/
def scanCandidates (inp : ByteStream) (l p0 : Nat) : Nat → Nat → Nat → Nat → Except Fault (Nat × Nat)
  | 0, _, len, pos => .ok (len, pos)
  | n + 1, p, len, pos =>
    match runLength inp l p p0 with
    | .error e => .error e
    | .ok k =>
      let len' := if k > len then k else len
      let pos' := if k > len then p else pos
      if len' = Config.maxMatch then .ok (len', pos') else scanCandidates inp l p0 n (p - 1) len' pos'

/-- FIND(IN, L, P0) of R110: nearest candidate first (R113), no candidate below position 1 or further back than 255
(R112, R120), `(0, 0)` when nothing is found (R111, R126; log entry 12). -/
def findBest (inp : ByteStream) (l p0 : Nat) : Except Fault (Nat × Nat) :=
  if 2 ≤ p0 then scanCandidates inp l p0 (windowCount p0) (p0 - 1) 0 0 else .ok (0, 0)

/-- Run the matcher at `p0`: MLEN and MPOS take the candidate, P0 the cursor, and P and K are unspecified afterwards
(R26, R117; log entry 5). -/
def runMatcher (p0 : Nat) (s : State) : Flow :=
  match findBest s.inp.toByteStream s.work.l p0 with
  | .error e => .fault e
  | .ok (len, pos) =>
    .go (((s.setBest len pos).setWork
      { s.work with p0 := p0, p := s.freePosition 0, k := s.freeCount 0 }).drawFree 1)

/-- The running FIND command (R192): the matcher at P0, then RESULT <- MLEN. -/
def runFind (s : State) : Flow := (runMatcher s.work.p0 s).andThen fun s => .go (s.finish s.mlen)

/-- FIND: accepted (R191), then run to its end (R192). -/
def execFind (s : State) : Host.Outcome State Fault Refusal := s.command .find runFind

end Sys2Proof.Machine
end

