-- ==== Sys2Proof/Machine/Encoder.lean ====
section
/-! DEFINITION. The encoder: PACK and its steps FLUSH, EMIT_MATCH and ACCUMULATE (spec/41_encoder.md). -/

namespace Sys2Proof.Machine

/-- FLUSH (R140): the literal-run control byte, the accumulator's live bytes, then `reset(ACC)`. -/
def flush (s : State) : Flow :=
  (s.appendOut (litControl s.acc.len)).andThen fun s =>
  (s.appendOutBytes s.acc.bytes).andThen fun s =>
  .go (s.setAcc s.acc.reset)

/-- `if ACC.len > 0: FLUSH` (R130 steps 2a and 4, R145). -/
def flushPending (s : State) : Flow := if s.accNonempty then flush s else .go s

/-- EMIT_MATCH (R142): the clamp (R141), the offset before the seek (R254), the seek by the clamped length, then the
control byte and the offset byte. A failed seek empties the accumulator and raises SeekFault(IN.pos) (R149). OFF keeps its
value while PACK runs on (DESIGN CHOICE, log entry 22). -/
def emitMatch (s : State) : Flow :=
  let s := s.setBest (clampLength s.mlen) s.mpos
  let s := s.setWork { s.work with off := matchOffset s.mpos s.inp.pos }
  match s.inp.seek s.mlen with
  | none => .raised (s.raise .seek s.inp.pos)
  | some inp =>
    ((s.setInp inp).appendOut (matchControl s.mlen)).andThen fun s =>
    s.appendOut (offsetByte s.work.off)

/-- ACCUMULATE (R144): one byte from the cursor into ACC, flushed at exactly 64. -/
def accumulate (s : State) : Flow :=
  s.readIn fun b s =>
  (s.appendAcc b).andThen fun s =>
  if s.accFull then flush s else .go s

/-- One iteration of the loop of R130: the matcher at the cursor (R133), then a match token when its length is above 3
(R134), else one literal. -/
def packIteration (s : State) : Flow :=
  (runMatcher s.inp.pos s).andThen fun s =>
  if s.usable then (flushPending s).andThen emitMatch else accumulate s

/-- The end of R130: the final flush (R145) and RESULT <- OUT.len − OUT0 (R146). -/
def packEnd (s : State) : Flow :=
  (flushPending s).andThen fun s => .go (s.finish (s.out.len - s.work.out0))

/-- One step of the running PACK command: an iteration while input remains, then the end. -/
def runPack (s : State) : Flow := if s.inputRemains then packIteration s else packEnd s

/-- PACK: accepted (R191), then R130 one iteration at a time (R193; log entry 1). -/
def execPack (s : State) : Host.Outcome State Fault Refusal := s.command .pack runPack

end Sys2Proof.Machine
end

