-- ==== Sys2Proof/Machine/Dispatch.lean ====
section
/-! DEFINITION. One arm per instruction, each one call of its meaning. -/

namespace Sys2Proof.Machine

def exec (i : Instr) (s : State) : Host.Outcome State Fault Refusal :=
  match i with
  | .litrun nm1 data => Sys2Proof.Machine.execLitrun nm1 data s
  | .matchLo lm4 ofs => Sys2Proof.Machine.execMatchLo lm4 ofs s
  | .matchHi lm4 ofs => Sys2Proof.Machine.execMatchHi lm4 ofs s
  | .cmdNone => Sys2Proof.Machine.execNone s
  | .cmdFind => Sys2Proof.Machine.execFind s
  | .cmdPack => Sys2Proof.Machine.execPack s
  | .cmdUnpack => Sys2Proof.Machine.execUnpack s

end Sys2Proof.Machine
end

