-- ==== Sys2Proof/Machine/Sequencer.lean ====
section
/-! DEFINITION. The two agents of R20: the sequencer, which runs one instruction a step while PHASE is BUSY, and the
host, whose moves are those of R197. And how the host's test interface places an instruction where it is fetched. -/

namespace Sys2Proof.Machine

/-! ## The sequencer -/

/-- The instruction the sequencer runs next: in UNPACK with input remaining the token at the cursor (R30, R164), else
the operation in OP; none when no operation runs (R230) and, which no run reaches, with OP = NONE (log entry 14). -/
def State.nextInstr (s : State) : Option (Except DecodeError Instr) :=
  if s.phase = .busy then
    match s.op with
    | .none => none
    | .find => some (.ok .cmdFind)
    | .pack => some (.ok .cmdPack)
    | .unpack => if s.inputRemains then some s.fetchToken else some (.ok .cmdUnpack)
  else none

/-- One step of the sequencer; an idle block does nothing (R230). -/
def sequencerStep (s : State) : Host.Outcome State Fault Refusal :=
  match s.nextInstr with
  | none => .next s
  | some (.ok i) => exec i s
  | some (.error e) => (rejectToken e s).outcome

/-! ## The host port -/

/-- The host writes a register (R36, R190, R191, R197): CMD runs its instruction, or is dropped while BUSY; ARG_P0 takes
the value, and there is no such move while BUSY; the others are read-only and the write has no effect. -/
def hostWrite (r : HostReg) (v : Nat) (s : State) : Host.Outcome State Fault Refusal :=
  match r with
  | .cmd =>
    if v < 4 then
      if s.phase = .busy then .next s else exec (decodeCommand (BitVec.ofNat 2 v)) s
    else .refused .hostValueTooWide
  | .argP0 =>
    if s.phase = .busy then .refused .hostAccessWhileBusy
    else if v ≤ s.params.maxLen then .next (s.setArgP0 v)
    else .refused .hostValueTooWide
  | .phase => .next s
  | .op => .next s
  | .status => .next s
  | .info => .next s
  | .result => .next s
  | .mlen => .next s
  | .mpos => .next s

/-- One move of the host (R197). The streams are the operation's while it runs (R74): there is no move that touches one
then. -/
def hostStep (m : HostMove) (s : State) : Host.Outcome State Fault Refusal :=
  match m with
  | .resetIn =>
    if s.phase = .busy then .refused .hostAccessWhileBusy else .next (s.setInp s.inp.reset)
  | .appendIn b =>
    if s.phase = .busy then .refused .hostAccessWhileBusy
    else if s.inp.len < s.params.maxLen then .next (s.setInp (s.inp.append b))
    else .refused .hostInputTooLong
  | .resetOut =>
    if s.phase = .busy then .refused .hostAccessWhileBusy else .next (s.setOut s.out.reset)
  | .write r v => hostWrite r v s
  | .resetBlock => .next s.resetBlock

/-! ## What the host reads: these change nothing (R195, R197; log entry 20) -/

/-- PHASE as the host reads it (R35). -/
def Phase.code : Phase → Nat
  | .idle => 0
  | .busy => 1
  | .done => 2
  | .fault => 3

/-- OP as the host reads it (R35, R190). -/
def Cmd.code : Cmd → Nat
  | .none => 0
  | .find => 1
  | .pack => 2
  | .unpack => 3

/-- STATUS as the host reads it (R35, R210). -/
def Status.code : Status → Nat
  | .ok => 0
  | .seek => 1
  | .truncated => 2
  | .distance => 3
  | .capacity => 4

/-- A register as the host reads it; CMD is write-only (R35). -/
def State.hostRead (s : State) : HostReg → Option Nat
  | .cmd => none
  | .argP0 => some s.argP0
  | .phase => some s.phase.code
  | .op => some s.op.code
  | .status => some s.status.code
  | .info => some s.info
  | .result => some s.result
  | .mlen => some s.mlen
  | .mpos => some s.mpos

/-- The host's `length(OUT)`: only while no operation runs (R197). -/
def State.hostOutLength (s : State) : Option Nat := if s.phase = .busy then none else some s.out.length

/-- The host's `peek(OUT, a)`: only while no operation runs (R197). -/
def State.hostPeekOut (s : State) (a : Nat) : Option Byte := if s.phase = .busy then none else s.out.peek a

/-- The host's `position(IN)`: what the operation left is visible once no operation runs (R195). -/
def State.hostInPosition (s : State) : Option Nat := if s.phase = .busy then none else some s.inp.position

/-! ## Placing an instruction where the next step fetches it -/

/-- A token goes where UNPACK fetches, at `IN.pos`, and UNPACK is running with it inside the sampled length. -/
def State.placeToken (s : State) (bytes : List Byte) : State :=
  let len := max s.inp.len (s.inp.pos + bytes.length)
  let s := s.setInp { s.inp with mem := s.inp.mem.writeList s.inp.pos bytes, len := len }
  (((s.setWork { s.work with l := len }).setPhase .busy).setOp .unpack).setHost (none :: s.host)

/-- A command goes where commands come from: the host's next move writes CMD, and no operation runs. -/
def State.placeCommand (s : State) (v : Nat) : State :=
  (s.setPhase (if s.phase = .busy then .done else s.phase)).setHost (some (.write .cmd v) :: s.host)

/-- A word of the opcode table, placed. -/
def State.placeWord (s : State) (nbits w : Nat) : State :=
  if isCommandWord nbits w then s.placeCommand w else s.placeToken (tableBytes nbits w)

end Sys2Proof.Machine
end

