-- ==== Sys2Proof/Machine/Step.lean ====
section
/-! DEFINITION. One step of the machine: the host's move when it is its turn, else the sequencer's. -/

namespace Sys2Proof.Machine

/-- One step. The front of `host` says whose turn it is (log entry 4). -/
def step (s : State) : Host.Outcome State Fault Refusal :=
  match s.host with
  | some m :: rest => hostStep m (s.setHost rest)
  | none :: rest => sequencerStep (s.setHost rest)
  | [] => sequencerStep s

/-- `s` with the instruction of the table word `w` stored where `step` fetches its next instruction. -/
def State.withFetchWord (s : State) (nbits w : Nat) : State := s.placeWord nbits w

end Sys2Proof.Machine
end

