-- ==== Sys2Proof/Machine/System.lean ====
section
/-! DEFINITION. Several instances of the block (R200): the product of independent single-instance machines (log
entry 18). -/

namespace Sys2Proof.Machine

/-- Any number of instances, each with its own streams and registers. -/
abbrev Instances := List State

/-- Instance `k` makes one step and the others stay as they are; an index without an instance makes none. -/
def instanceStep (k : Nat) (ss : Instances) : Host.Outcome Instances Fault Refusal :=
  match ss[k]? with
  | none => .next ss
  | some s =>
    match step s with
    | .next t => .next (ss.set k t)
    | .fault f => .fault f
    | .refused r => .refused r

end Sys2Proof.Machine
end

