-- ==== Sys2Proof/Safety.lean ====
section
/-! DEFINITION. What counts as a safe state and a safe run, and the words the statements use: the invariant of the
machine, the start conditions of R243, the matcher's candidates and repetitions said without a search, and the meaning
of a token stream said without a copy loop. -/

namespace Sys2Proof.Machine

/-! ## The invariant -/

/-- The streams: every memory in its canonical form, the cursor inside IN (R22), the lengths inside their bounds (R22,
R23), the accumulator's storage 64 bytes (R24). -/
abbrev State.StreamsOk (s : State) : Prop :=
  s.inp.mem.wf = true ∧ s.out.mem.wf = true ∧ s.acc.mem.wf = true ∧
  s.inp.pos ≤ s.inp.len ∧ s.inp.len ≤ s.params.maxLen ∧
  s.out.len ≤ s.params.outLimit ∧
  (s.acc.mem.all fun cell => decide (cell.1 < Config.accCap)) = true

/-- The working registers hold values of their widths (R25). -/
abbrev State.WorkFits (s : State) : Prop :=
  s.work.l ≤ s.params.maxLen ∧ s.work.out0 ≤ s.params.maxLen ∧ s.work.p0 ≤ s.params.maxLen ∧
  s.work.p ≤ s.params.maxLen ∧ s.work.base ≤ s.params.maxLen ∧
  s.work.k < 256 ∧ s.work.n < 256 ∧ s.work.i < 256 ∧ -256 ≤ s.work.off ∧ s.work.off < 256

/-- The host-visible registers hold values of their ranges (R25, R35), and MPOS is 0 exactly when MLEN is (R119,
R126). -/
abbrev State.RegistersFit (s : State) : Prop :=
  s.argP0 ≤ s.params.maxLen ∧ s.info ≤ s.params.maxLen ∧ s.result ≤ s.params.maxLen ∧
  s.mlen ≤ Config.maxMatch ∧ s.mpos ≤ s.params.maxLen ∧ (s.mlen = 0 ↔ s.mpos = 0)

/-- The accumulator is empty whenever PACK is not running (R149) and holds at most 63 bytes between PACK's statements
(R24). -/
abbrev State.AccOk (s : State) : Prop :=
  if s.phase = .busy ∧ s.op = .pack then s.acc.len ≤ 63 else s.acc.len = 0

/-- The control registers agree with one another (R35, R36), and a running operation's samples are of its streams
(R46). -/
abbrev State.ControlOk (s : State) : Prop :=
  (s.status ≠ .ok ↔ s.phase = .fault) ∧ (s.phase ≠ .fault → s.info = 0) ∧ (s.phase ≠ .done → s.result = 0) ∧
  (s.phase = .idle ↔ s.op = .none) ∧
  (s.phase = .busy → s.work.l = s.inp.len) ∧
  (s.phase = .busy ∧ s.op = .pack → s.work.out0 ≤ s.out.len)

/-- The invariant of the machine. -/
abbrev State.Inv (s : State) : Prop :=
  s.StreamsOk ∧ s.WorkFits ∧ s.RegistersFit ∧ s.AccOk ∧ s.ControlOk

/-! ## Whose turn it is -/

/-- The next step is the sequencer's. -/
def State.sequencerTurn (s : State) : Bool :=
  match s.host with
  | [] => true
  | none :: _ => true
  | some _ :: _ => false

/-- The state the sequencer works on when it is its turn: the turn is used up. -/
def State.afterTurn (s : State) : State := s.setHost s.host.tail

/-! ## Start conditions -/

/-- What the host owes the block's registers and streams before PACK or UNPACK (R243, conditions 1 to 3 and the first
half of 4; 5 holds by construction). -/
abbrev State.StreamsAtStart (s : State) : Prop :=
  s.phase ≠ .busy ∧ s.inp.len ≤ s.params.maxLen ∧ s.inp.pos = 0 ∧ s.out.len = 0

/-- The room in OUT that suffices for PACK of IN, `n + ceil(n / 64)` (R98). -/
abbrev State.packRoom (s : State) : Nat := s.inp.len + (s.inp.len + 63) / 64

/-- The start conditions of R243 for an operation that needs `room` bytes of OUT: condition 4 asks that OUT's capacity
suffices. An unbounded OUT_CAP still leaves the bound MAXLEN (R23, R55; log entry 23). -/
abbrev State.StartOk (s : State) (room : Nat) : Prop := s.StreamsAtStart ∧ room ≤ s.params.outLimit

/-- `t` is reached by `n` steps of the machine from `s`. -/
def Reaches (n : Nat) (s t : State) : Prop := Host.Core.run Sys2Proof.core n s = .next t

/-- The command code of an operation (R190). -/
def Cmd.write (c : Cmd) : Option HostMove := some (.write .cmd c.code)

/-! ## The matcher's candidates and repetitions (R112, R114) -/

/-- `p` is a candidate start for the cursor `p0`: `max(1, P0 − 255) ≤ p ≤ P0 − 1` on integers (R112). -/
def Candidate (p0 p : Nat) : Prop := max 1 ((p0 : Int) - 255) ≤ (p : Int) ∧ (p : Int) ≤ (p0 : Int) - 1

/-- `k` bytes from `p` on repeat at `p0`, within the cap and the input (R114). -/
def Repeats (m : Memory) (l p p0 k : Nat) : Prop :=
  k ≤ Config.maxMatch ∧ (k = 0 ∨ p0 + k ≤ l) ∧ ∀ j < k, m.read (p + j) = m.read (p0 + j)

/-- The scan of R110 without the early stop of R117. -/
def scanAll (inp : ByteStream) (l p0 : Nat) : Nat → Nat → Nat → Nat → Except Fault (Nat × Nat)
  | 0, _, len, pos => .ok (len, pos)
  | n + 1, p, len, pos =>
    match runLength inp l p p0 with
    | .error e => .error e
    | .ok k => scanAll inp l p0 n (p - 1) (if k > len then k else len) (if k > len then p else pos)

/-- FIND without the early stop. -/
def findBestNoStop (inp : ByteStream) (l p0 : Nat) : Except Fault (Nat × Nat) :=
  if 2 ≤ p0 then scanAll inp l p0 (windowCount p0) (p0 - 1) 0 0 else .ok (0, 0)

/-! ## What tokens mean on the output (R166, R168, R171) -/

/-- The backward distance of an offset byte, `256 − o` (R90). -/
def distance (o : Byte) : Nat := 256 - o.toNat

/-- The bytes a match appends to an output of length `len` held by `m`: the last `d` bytes before it, over and over
(R171). -/
def matchBytes (m : Memory) (len d n : Nat) : List Byte := (List.range n).map fun j => m.read (len - d + j % d)

/-- A match on an output as a list: none when its source lies before the start of the output (R169), or for offset byte
0x00 when the parameter says so (R170). -/
def matchEffect (z : OffsetZero) (c o : Byte) (out : List Byte) : Option (List Byte) :=
  if o = 0 ∧ z = .fault then none
  else if out.length < distance o then none
  else some (out ++ (List.range (matchLength c)).map fun j =>
    out.getD (out.length - distance o + j % distance o) 0)

/-- A token on an output as a list. -/
def tokenEffect (z : OffsetZero) (i : Instr) (out : List Byte) : Option (List Byte) :=
  match i with
  | .litrun _ data => some (out ++ data)
  | .matchLo lm4 o => matchEffect z (matchLoControl lm4) o out
  | .matchHi lm4 o => matchEffect z (matchHiControl lm4) o out
  | .cmdNone => some out
  | .cmdFind => some out
  | .cmdPack => some out
  | .cmdUnpack => some out

/-- A token stream on an output, token after token (R86, R160). -/
def streamEffect (z : OffsetZero) : List Instr → List Byte → Option (List Byte)
  | [], out => some out
  | i :: is, out =>
    match tokenEffect z i out with
    | none => none
    | some out' => streamEffect z is out'

/-- The bytes of a token stream on the wire, with no separators (R86). -/
def streamBytes (ts : List Instr) : List Byte := ts.flatMap tokenBytes

/-! ## The position invariant of PACK (R147) -/

/-- The literal run that would hold the bytes now in ACC: none when it is empty. -/
def State.pendingTokens (s : State) : List Instr :=
  if s.acc.len = 0 then [] else [.litrun (BitVec.ofNat 6 (s.acc.len - 1)) s.acc.bytes]

/-- OUT holds tokens which, with one literal run of the bytes now in ACC after them, mean exactly the first `IN.pos`
bytes of IN, whatever OFFSET_ZERO is (R147). -/
def State.PositionOk (s : State) : Prop :=
  ∃ ts, (∀ i ∈ ts, i.wf = true ∧ i.isToken = true) ∧ s.out.bytes = streamBytes ts ∧
    ∀ z, streamEffect z (ts ++ s.pendingTokens) [] = some (s.inp.bytes.take s.inp.pos)

/-! ## A CapacityFault (R211, R216, R220) -/

/-- `t` is `s` after a CapacityFault in PACK: OUT is full, the record says where, and what neither the fault nor the
operation writes is as before. -/
abbrev State.CapacityFaulted (s t : State) : Prop :=
  t.phase = .fault ∧ t.status = .capacity ∧ t.info = s.params.outLimit ∧ t.out.len = s.params.outLimit ∧
  t.result = 0 ∧ t.acc.len = 0 ∧ t.op = s.op ∧ t.argP0 = s.argP0 ∧ t.params = s.params ∧ t.host = s.host

/-! ## Hidden state (R26, R27, R40) -/

/-- Two states that the host and every rule see alike: they may differ in the accumulator's storage beyond its length
(R40), in the working registers that carry nothing on (R26), and in how many free values were drawn. L, OUT0 and P0 are
live while an operation runs. -/
abbrev State.Alike (s t : State) : Prop :=
  s.params = t.params ∧ s.inp = t.inp ∧ s.out = t.out ∧ s.acc.len = t.acc.len ∧
  (∀ a < s.acc.len, s.acc.mem.read a = t.acc.mem.read a) ∧
  s.mlen = t.mlen ∧ s.mpos = t.mpos ∧ s.argP0 = t.argP0 ∧ s.phase = t.phase ∧ s.op = t.op ∧
  s.status = t.status ∧ s.info = t.info ∧ s.result = t.result ∧ s.host = t.host ∧
  (s.phase = .busy → s.work.l = t.work.l ∧ (s.op = .pack → s.work.out0 = t.work.out0) ∧
    (s.op = .find → s.work.p0 = t.work.p0))

end Sys2Proof.Machine
end

