-- ==== Sys2Proof/Certificates/Slice0/Obligations.lean ====
section
/-! DEFINITION. The statements for the provers, each from the numbered rules of spec/. -/

open Sys2Proof Sys2Proof.Machine

/-! ## Encoding -/

/-- Decoding the code of any well-formed instruction gives it back with nothing left over (R81 to R84, R190). -/
def Obligations.DecodeEncodeRoundTrip : Prop :=
  ∀ i : Instr, i.wf = true → decode (encode i) = .ok (i, [])

/-- What the token decoder reads off a stream is well-formed, and its bytes and the rest are the stream: no bit of a
token is dropped and every byte string has one reading (R85, R86). -/
def Obligations.DecodedTokenBytesAreTheStream : Prop :=
  ∀ (bytes : List Byte) (i : Instr) (rest : List Byte), decodeToken bytes = .ok (i, rest) →
    i.wf = true ∧ i.isToken = true ∧ tokenBytes i ++ rest = bytes

/-- The control byte alone tells the token's kind and its length: bits 7:6 both set is a literal run of `2 + c[5:0]`
bytes, anything else a match of 2 bytes, and every control byte is one of the two (R80, R85). -/
def Obligations.ControlByteDecidesKindAndLength : Prop :=
  ∀ (c : Byte) (rest : List Byte), 64 ≤ rest.length → ∃ i tail,
    decodeToken (c :: rest) = .ok (i, tail) ∧
    (c.extractLsb' 6 2 = 3#2 → (∃ data, i = .litrun (c.extractLsb' 0 6) data) ∧
      rest.length = 1 + (c.extractLsb' 0 6).toNat + tail.length) ∧
    (c.extractLsb' 6 2 ≠ 3#2 → ((∃ l o, i = .matchLo l o) ∨ (∃ l o, i = .matchHi l o)) ∧
      rest.length = 1 + tail.length)

/-- A token that is cut short is rejected by name, and nothing else is (R165, R167, R80). Naming the rejections is the
model's choice (log entry 16). -/
def Obligations.OnlyTruncatedTokensAreRejected : Prop :=
  decodeToken [] = .error .endOfStream ∧
  ∀ (c : Byte) (rest : List Byte),
    (isLiteral c = true → (decodeToken (c :: rest) = .error (.truncatedLiteralRun c) ↔
      rest.length < litRunLength c)) ∧
    (isLiteral c = false → (decodeToken (c :: rest) = .error (.truncatedMatch c) ↔ rest = [])) ∧
    ((isLiteral c = true ∧ litRunLength c ≤ rest.length) ∨ (isLiteral c = false ∧ rest ≠ []) →
      ∃ i tail, decodeToken (c :: rest) = .ok (i, tail))

/-- Words written out from the encodings of R101 and R190 decode to the instructions they stand for. The command codes and
the assembler examples are the spec's decisions D20 and D21. -/
def Obligations.SampleWordsDecode : Prop :=
  decode (.token [0xc1, 0x41, 0x41]) = .ok (.litrun 1 [0x41, 0x41], []) ∧
  decode (.token [0x04, 0xff]) = .ok (.matchLo 4 0xff, []) ∧
  decode (.token [0xbf, 0xff]) = .ok (.matchHi 0x3f 0xff, []) ∧
  decode (.token [0x00, 0x01]) = .ok (.matchLo 0 0x01, []) ∧
  decode (.command 0) = .ok (.cmdNone, []) ∧
  decode (.command 1) = .ok (.cmdFind, []) ∧
  decode (.command 2) = .ok (.cmdPack, []) ∧
  decode (.command 3) = .ok (.cmdUnpack, [])

/-- The literal-run length field, both ways (R87). -/
def Obligations.LiteralLengthField : Prop :=
  (∀ c : Byte, isLiteral c = true → litRunLength c = (c &&& 0x3F).toNat + 1 ∧
    1 ≤ litRunLength c ∧ litRunLength c ≤ 64 ∧ litControl (litRunLength c) = c) ∧
  ∀ len, 1 ≤ len → len ≤ 64 → (litControl len).toNat = 0xC0 + len - 1 ∧ isLiteral (litControl len) = true ∧
    litRunLength (litControl len) = len

/-- The match length field, both ways (R88). -/
def Obligations.MatchLengthField : Prop :=
  (∀ c : Byte, isLiteral c = false → matchLength c = c.toNat + 4 ∧ 4 ≤ matchLength c ∧ matchLength c ≤ 195 ∧
    matchControl (matchLength c) = c) ∧
  ∀ len, 4 ≤ len → len ≤ 195 → (matchControl len).toNat = len - 4 ∧ isLiteral (matchControl len) = false ∧
    matchLength (matchControl len) = len

/-- Encoder and decoder agree on every offset the encoder can emit, and 0x00 is the one byte it cannot (R91). -/
def Obligations.OffsetFieldAgrees : Prop :=
  (∀ off : Int, -255 ≤ off → off ≤ -1 → (offsetByte off).toNat = 256 + off ∧ negoff (offsetByte off) = off ∧
    offsetByte off ≠ 0) ∧
  (∀ o : Byte, -256 ≤ negoff o ∧ negoff o ≤ -1 ∧ (o ≠ 0 → offsetByte (negoff o) = o)) ∧
  negoff 0 = -256

/-! ## Reset -/

/-- Reset of the block, also while an operation runs, puts the block's own state to its reset values and touches neither
IN nor OUT (R240, R241). The reset is the spec's decision D17; that it comes as a move of the host is log entry 4. -/
def Obligations.BlockResetValues : Prop :=
  ∀ (s : State) (rest : List (Option HostMove)), s.host = some .resetBlock :: rest → ∃ t, step s = .next t ∧
    t.phase = .idle ∧ t.op = .none ∧ t.status = .ok ∧ t.info = 0 ∧ t.result = 0 ∧ t.argP0 = 0 ∧ t.mlen = 0 ∧
    t.mpos = 0 ∧ t.acc.len = 0 ∧ t.inp = s.inp ∧ t.out = s.out ∧ t.params = s.params ∧ t.host = rest ∧
    t.nextInstr = none

/-- The state after reset holds the values of R45, and every step of it does nothing until the host moves (R240). The
empty streams and the zero working registers are the model's choice (log entries 7 and 8). -/
def Obligations.ResetStateIsIdle : Prop :=
  State.reset.phase = .idle ∧ State.reset.op = .none ∧ State.reset.status = .ok ∧ State.reset.info = 0 ∧
  State.reset.result = 0 ∧ State.reset.argP0 = 0 ∧ State.reset.mlen = 0 ∧ State.reset.mpos = 0 ∧
  State.reset.acc.len = 0 ∧ step State.reset = .next State.reset

/-! ## Fetch and step -/

/-- On a host's write of CMD while no operation runs, a step is `exec` of the command decoded from the value (R190, R191).
On the sequencer's turn a step is `exec` of the instruction selected: in UNPACK with input remaining the token decoded
at the cursor, in the other operations the operation itself, and nothing when no operation runs (R20, R30, R160,
R230). The turns of host and sequencer are log entry 4. That an operation runs one loop iteration or one token a step
is the model's choice (log entry 1). -/
def Obligations.StepRunsSelectedInstruction : Prop :=
  (∀ (s : State) (v : Nat) (rest : List (Option HostMove)), s.phase ≠ .busy → v < 4 →
    s.host = some (.write .cmd v) :: rest → step s = exec (decodeCommand (BitVec.ofNat 2 v)) (s.setHost rest)) ∧
  ∀ s : State, s.sequencerTurn = true →
    (s.phase ≠ .busy → step s = .next s.afterTurn) ∧
    (s.phase = .busy → s.op = .find → step s = exec .cmdFind s.afterTurn) ∧
    (s.phase = .busy → s.op = .pack → step s = exec .cmdPack s.afterTurn) ∧
    (s.phase = .busy → s.op = .unpack → s.work.l ≤ s.inp.pos → step s = exec .cmdUnpack s.afterTurn) ∧
    (s.phase = .busy → s.op = .unpack → s.inp.pos < s.work.l → ∀ i rest,
      decodeToken s.fetchBytes = .ok (i, rest) → step s = exec i s.afterTurn)

/-- When IN holds a token's bytes at the cursor, inside the sampled length, UNPACK's next step is `exec` of that token:
the bytes are fetched from the lowest position up (R64, R82, R84, R164). That an operation runs one loop iteration or
one token a step is the model's choice (log entry 1). -/
def Obligations.StepRunsTokenStoredInInput : Prop :=
  ∀ (s : State) (i : Instr), s.sequencerTurn = true → s.phase = .busy → s.op = .unpack →
    i.wf = true → i.isToken = true → s.inp.pos + (tokenBytes i).length ≤ s.work.l → s.work.l ≤ s.inp.len →
    (∀ j (h : j < (tokenBytes i).length), s.inp.mem.read (s.inp.pos + j) = (tokenBytes i)[j]) →
    step s = exec i s.afterTurn

/-- UNPACK with input remaining executes the token at the cursor: its meaning is that of the token (R160). That an
operation runs one loop iteration or one token a step is the model's choice (log entry 1). -/
def Obligations.UnpackExecutesToken : Prop :=
  ∀ (s : State) (i : Instr) (rest : List Byte), s.phase = .busy → s.op = .unpack → s.inp.pos < s.work.l →
    decodeToken s.fetchBytes = .ok (i, rest) → exec .cmdUnpack s = exec i s

/-! ## Commands -/

/-- The four command codes, and NONE changes nothing (R190). The codes are the spec's decision D21. -/
def Obligations.CommandCodesAndNone : Prop :=
  decodeCommand 0 = .cmdNone ∧ decodeCommand 1 = .cmdFind ∧ decodeCommand 2 = .cmdPack ∧
  decodeCommand 3 = .cmdUnpack ∧ ∀ s : State, exec .cmdNone s = .next s

/-- A non-zero command accepted: OP, PHASE, the cleared record, and the samples of each operation, and nothing else (R46,
R191). That an operation runs one loop iteration or one token a step is the model's choice (log entry 1). The
registers are the spec's decision D2. -/
def Obligations.CommandAccepted : Prop :=
  ∀ (s : State) (i : Instr) (c : Cmd), s.phase ≠ .busy →
    (i, c) ∈ [(Instr.cmdFind, Cmd.find), (Instr.cmdPack, Cmd.pack), (Instr.cmdUnpack, Cmd.unpack)] →
    ∃ t, exec i s = .next t ∧ t.op = c ∧ t.phase = .busy ∧ t.status = .ok ∧ t.info = 0 ∧ t.result = 0 ∧
      t.work = { s.work with
        l := s.inp.len
        out0 := if c = .pack then s.out.len else s.work.out0
        p0 := if c = .find then s.argP0 else s.work.p0 } ∧
      t.acc.len = (if c = .pack then 0 else s.acc.len) ∧ t.acc.mem = s.acc.mem ∧
      t.inp = s.inp ∧ t.out = s.out ∧ t.mlen = s.mlen ∧ t.mpos = s.mpos ∧ t.argP0 = s.argP0 ∧
      t.params = s.params ∧ t.host = s.host

/-- The host's write of CMD: accepted as START while no operation runs, dropped without effect while one does (R191). The
registers are the spec's decision D2; the host's moves are log entry 4. -/
def Obligations.CommandWriteStartsOrIsDropped : Prop :=
  ∀ (s : State) (c : Cmd) (rest : List (Option HostMove)), c ≠ .none → s.host = c.write :: rest →
    (s.phase = .busy → step s = .next (s.setHost rest)) ∧
    (s.phase ≠ .busy → ∃ t, step s = .next t ∧ t.op = c ∧ t.phase = .busy ∧ t.status = .ok ∧ t.info = 0 ∧
      t.result = 0 ∧ t.work.l = s.inp.len ∧ (c = .pack → t.work.out0 = s.out.len ∧ t.acc.len = 0) ∧
      (c = .find → t.work.p0 = s.argP0) ∧ t.inp = s.inp ∧ t.out = s.out ∧ t.host = rest)

/-- PHASE moves only from IDLE, DONE or FAULT to BUSY when the host writes a non-zero command, from BUSY to DONE or FAULT
by the sequencer, and to IDLE at reset (R37). The register PHASE is the spec's decision D2. -/
def Obligations.PhaseMovesOnlyAsStated : Prop :=
  ∀ s t : State, step s = .next t → t.phase ≠ s.phase →
    (s.phase ≠ .busy ∧ t.phase = .busy ∧ ∃ c rest, c ≠ Cmd.none ∧ s.host = c.write :: rest ∧ t.op = c) ∨
    (s.phase = .busy ∧ s.sequencerTurn = true ∧ (t.phase = .done ∨ t.phase = .fault)) ∨
    (t.phase = .idle ∧ ∃ rest, s.host = some .resetBlock :: rest)

/-- STATUS and INFO are sticky: after a fault they keep their values, and PHASE stays FAULT, until a command is accepted
or the block is reset (R38). The stickiness is the spec's decision D14. -/
def Obligations.FaultRecordIsSticky : Prop :=
  ∀ s t : State, s.phase = .fault → step s = .next t →
    (t.phase = .fault ∧ t.status = s.status ∧ t.info = s.info) ∨
    (∃ c rest, c ≠ Cmd.none ∧ s.host = c.write :: rest ∧ t.phase = .busy) ∨
    (∃ rest, s.host = some .resetBlock :: rest ∧ t.phase = .idle)

/-- The streams and ARG_P0 cannot be touched by the host while an operation runs: the model has no such move, and refuses
it by name (R74, R197). The spec calls it no move (93 U10, decision D18); the refusal's name is the model's (log entry
9). -/
def Obligations.HostAccessWhileBusyRefused : Prop :=
  ∀ (s : State) (m : HostMove) (rest : List (Option HostMove)), s.phase = .busy → s.host = some m :: rest →
    (m = .resetIn ∨ m = .resetOut ∨ (∃ b, m = .appendIn b) ∨ (∃ v, m = .write .argP0 v)) →
    step s = .refused .hostAccessWhileBusy

/-- The host loads IN by `reset` and `append`, clears OUT by `reset` and writes ARG_P0, and each move changes what it
names only (R60, R55, R197). The moves as items of a list are the model's choice (log entry 4). -/
def Obligations.HostMovesWhileIdle : Prop :=
  ∀ (s : State) (rest : List (Option HostMove)), s.phase ≠ .busy → s.inp.mem.wf = true →
    (s.host = some .resetIn :: rest → ∃ t, step s = .next t ∧ t.inp.len = 0 ∧ t.inp.pos = 0 ∧
      t = (s.setHost rest).setInp t.inp) ∧
    (∀ b, s.host = some (.appendIn b) :: rest → s.inp.len < s.params.maxLen → ∃ t, step s = .next t ∧
      t.inp.bytes = s.inp.bytes ++ [b] ∧ t.inp.pos = s.inp.pos ∧ t = (s.setHost rest).setInp t.inp) ∧
    (s.host = some .resetOut :: rest → ∃ t, step s = .next t ∧ t.out.len = 0 ∧
      t = (s.setHost rest).setOut t.out) ∧
    (∀ v, s.host = some (.write .argP0 v) :: rest → v ≤ s.params.maxLen →
      step s = .next ((s.setHost rest).setArgP0 v))

/-- A host write to PHASE, OP, STATUS, INFO, RESULT, MLEN or MPOS has no effect, at any time (R36). The registers are the
spec's decision D2. -/
def Obligations.ReadOnlyRegistersIgnoreHostWrites : Prop :=
  ∀ (s : State) (r : HostReg) (v : Nat) (rest : List (Option HostMove)), r ≠ .cmd → r ≠ .argP0 →
    s.host = some (.write r v) :: rest → step s = .next (s.setHost rest)

/-- What the host reads: each register, coded as R35 and R210 say, at any time, CMD being write-only; OUT and the cursor
of IN only while no operation runs, OUT below its length only (R195, R197). The registers and their codes are the
spec's decisions D2 and D13; reads as functions of the state are log entry 20. -/
def Obligations.HostReadsCodesAndStreams : Prop :=
  ∀ s : State,
    s.hostRead .cmd = none ∧ s.hostRead .argP0 = some s.argP0 ∧ s.hostRead .info = some s.info ∧
    s.hostRead .result = some s.result ∧ s.hostRead .mlen = some s.mlen ∧ s.hostRead .mpos = some s.mpos ∧
    (s.hostRead .phase = some 0 ↔ s.phase = .idle) ∧ (s.hostRead .phase = some 1 ↔ s.phase = .busy) ∧
    (s.hostRead .phase = some 2 ↔ s.phase = .done) ∧ (s.hostRead .phase = some 3 ↔ s.phase = .fault) ∧
    (s.hostRead .op = some 0 ↔ s.op = .none) ∧ (s.hostRead .op = some 1 ↔ s.op = .find) ∧
    (s.hostRead .op = some 2 ↔ s.op = .pack) ∧ (s.hostRead .op = some 3 ↔ s.op = .unpack) ∧
    (s.hostRead .status = some 0 ↔ s.status = .ok) ∧ (s.hostRead .status = some 1 ↔ s.status = .seek) ∧
    (s.hostRead .status = some 2 ↔ s.status = .truncated) ∧ (s.hostRead .status = some 3 ↔ s.status = .distance) ∧
    (s.hostRead .status = some 4 ↔ s.status = .capacity) ∧
    (s.phase = .busy → s.hostOutLength = none ∧ s.hostInPosition = none ∧ ∀ a, s.hostPeekOut a = none) ∧
    (s.phase ≠ .busy → s.hostOutLength = some s.out.len ∧ s.hostInPosition = some s.inp.pos ∧
      ∀ a, s.hostPeekOut a = if a < s.out.len then some (s.out.mem.read a) else none)

/-! ## Exceptions -/

/-- Exception entry does, and only does, what R220 lists; the working registers are unspecified after an operation (R26),
so nothing is said of them. The entry is the spec's decision D14. -/
def Obligations.ExceptionEntry : Prop :=
  ∀ (s : State) (x : Status) (info : Nat),
    (s.raise x info).status = x ∧ (s.raise x info).info = info ∧ (s.raise x info).result = 0 ∧
    (s.raise x info).acc.len = 0 ∧ (s.raise x info).phase = .fault ∧
    (s.raise x info).acc.mem = s.acc.mem ∧ (s.raise x info).inp = s.inp ∧ (s.raise x info).out = s.out ∧
    (s.raise x info).mlen = s.mlen ∧ (s.raise x info).mpos = s.mpos ∧ (s.raise x info).argP0 = s.argP0 ∧
    (s.raise x info).op = s.op ∧ (s.raise x info).params = s.params ∧ (s.raise x info).host = s.host

/-- `append(OUT, ·)` on a full OUT raises CapacityFault with OUT.len and writes nothing; below the limit it writes one
byte at the end and raises nothing (R55, R216). CapacityFault is the spec's decision D19. With OUT_CAP unbounded the
limit is MAXLEN, by R55; R216 says that the exception does not exist then, and following R55 there is the model's
reading (DEDUCED, log entry 23). -/
def Obligations.AppendRaisesWhenOutIsFull : Prop :=
  ∀ (s : State) (b : Byte),
    (s.params.outLimit ≤ s.out.len → ∃ t, s.appendOut b = .raised t ∧ t.phase = .fault ∧ t.status = .capacity ∧
      t.info = s.out.len ∧ t.result = 0 ∧ t.acc.len = 0 ∧ t.out = s.out ∧ t.inp = s.inp) ∧
    (s.out.len < s.params.outLimit → s.out.mem.wf = true → ∃ t, s.appendOut b = .go t ∧
      t.out.bytes = s.out.bytes ++ [b] ∧ t = s.setOut t.out)

/-! ## The tokens -/

/-- LITRUN with its data in IN and room in OUT appends the data verbatim and advances the cursor by `1 + N`; no other
register changes but the working registers (R166). That the working registers keep the token's values is the model's
choice (log entry 22). -/
def Obligations.LitrunAppendsItsData : Prop :=
  ∀ (s : State) (nm1 : BitVec 6) (data : List Byte), (Instr.litrun nm1 data).wf = true →
    s.inp.pos + 1 + data.length ≤ s.work.l → s.work.l ≤ s.inp.len →
    s.out.len + data.length ≤ s.params.outLimit → s.out.mem.wf = true →
    ∃ t, exec (.litrun nm1 data) s = .next t ∧ t.out.bytes = s.out.bytes ++ data ∧
      t.inp = { s.inp with pos := s.inp.pos + 1 + data.length } ∧
      t.work = { s.work with
        c := litrunControl nm1
        n := nm1.toNat + 1
        i := nm1.toNat + 1 } ∧
      t = ((s.setOut t.out).setInp t.inp).setWork t.work

/-- A literal run whose data is cut short raises TruncatedFault at its control byte and appends nothing (R165). When the
fault is detected is the spec's decision D12. -/
def Obligations.TruncatedLitrunFaults : Prop :=
  ∀ (s : State) (nm1 : BitVec 6) (data : List Byte), s.inp.pos < s.inp.len →
    s.work.l - (s.inp.pos + 1) < nm1.toNat + 1 →
    ∃ t, exec (.litrun nm1 data) s = .next t ∧ t.phase = .fault ∧ t.status = .truncated ∧ t.info = s.inp.pos ∧
      t.result = 0 ∧ t.acc.len = 0 ∧ t.out = s.out ∧ t.inp = { s.inp with pos := s.inp.pos + 1 } ∧
      t.op = s.op ∧ t.mlen = s.mlen ∧ t.mpos = s.mpos ∧ t.argP0 = s.argP0

/-- A cut-off token at the end of IN, which no decoder reads whole, makes the sequencer's step raise TruncatedFault at its
control byte with nothing appended (R165, R167). When the fault is detected is the spec's decision D12; how the
rejected bytes reach it is log entry 16. -/
def Obligations.StepFaultsOnTruncatedToken : Prop :=
  ∀ (s : State), s.sequencerTurn = true → s.phase = .busy → s.op = .unpack → s.work.l = s.inp.len →
    s.inp.pos < s.inp.len → s.inp.len - (s.inp.pos + 1) < tokenNeed (s.inp.mem.read s.inp.pos) →
    ∃ t, step s = .next t ∧ t.phase = .fault ∧ t.status = .truncated ∧ t.info = s.inp.pos ∧ t.result = 0 ∧
      t.acc.len = 0 ∧ t.out = s.out ∧ t.inp = { s.inp with pos := s.inp.pos + 1 }

/-- MATCH, both rows: with its offset byte in IN, a source inside OUT and room in OUT, it appends `C + 4` bytes, the last
`256 − O` bytes of OUT over and over, and advances the cursor by 2; no other register changes but the working
registers (R168, R171). That the working registers keep the token's values is the model's choice (log entry 22). -/
def Obligations.MatchCopiesFromOutput : Prop :=
  ∀ (s : State) (c o : Byte) (i : Instr),
    ((∃ l, i = .matchLo l o ∧ c = matchLoControl l) ∨ (∃ l, i = .matchHi l o ∧ c = matchHiControl l)) →
    s.inp.pos + 2 ≤ s.work.l → s.work.l ≤ s.inp.len → ¬(o = 0 ∧ s.params.offsetZero = .fault) →
    distance o ≤ s.out.len → s.out.len + (c.toNat + 4) ≤ s.params.outLimit → s.out.mem.wf = true →
    ∃ t, exec i s = .next t ∧
      t.out.bytes = s.out.bytes ++ matchBytes s.out.mem s.out.len (distance o) (c.toNat + 4) ∧
      t.inp = { s.inp with pos := s.inp.pos + 2 } ∧
      t.work = { s.work with
        c := c
        o := o
        off := (o.toNat : Int) - 256
        n := c.toNat + 4
        base := s.out.len - distance o
        i := c.toNat + 4 } ∧
      t = ((s.setOut t.out).setInp t.inp).setWork t.work

/-- A match with no offset byte raises TruncatedFault at its control byte (R167). When the fault is detected is the spec's
decision D12. -/
def Obligations.TruncatedMatchFaults : Prop :=
  ∀ (s : State) (o : Byte) (i : Instr), ((∃ l, i = .matchLo l o) ∨ (∃ l, i = .matchHi l o)) →
    s.inp.pos < s.inp.len → s.work.l ≤ s.inp.pos + 1 →
    ∃ t, exec i s = .next t ∧ t.phase = .fault ∧ t.status = .truncated ∧ t.info = s.inp.pos ∧ t.result = 0 ∧
      t.acc.len = 0 ∧ t.out = s.out ∧ t.inp = { s.inp with pos := s.inp.pos + 1 }

/-- A match that reaches before the start of the output raises DistanceFault at its control byte before it appends
anything (R169); with OFFSET_ZERO = fault so does every match with offset byte 0x00 (R170). The fault is the spec's
decisions D10 and D11. -/
def Obligations.DistanceFaults : Prop :=
  ∀ (s : State) (o : Byte) (i : Instr), ((∃ l, i = .matchLo l o) ∨ (∃ l, i = .matchHi l o)) →
    s.inp.pos + 2 ≤ s.work.l → s.work.l ≤ s.inp.len →
    ((s.out.len : Int) + ((o.toNat : Int) - 256) < 0 ∨ (o = 0 ∧ s.params.offsetZero = .fault)) →
    ∃ t, exec i s = .next t ∧ t.phase = .fault ∧ t.status = .distance ∧ t.info = s.inp.pos ∧ t.result = 0 ∧
      t.acc.len = 0 ∧ t.out = s.out ∧ t.inp = { s.inp with pos := s.inp.pos + 2 }

/-- A token whose bytes do not all fit in OUT, and that passes the checks before the copy, raises CapacityFault at the
append that finds OUT full, whatever the limit (R216, R219, R221). CapacityFault is the spec's decision D19; that OUT
then holds what was appended is log entry 17. With OUT_CAP unbounded the limit is MAXLEN, by R55; R216 says that the
exception does not exist then, and following R55 there is the model's reading (DEDUCED, log entry 23). -/
def Obligations.TokenFaultsWhenOutFills : Prop :=
  ∀ (s : State) (i : Instr), i.wf = true → i.isToken = true → s.out.len ≤ s.params.outLimit →
    s.inp.pos + (tokenBytes i).length ≤ s.work.l → s.work.l ≤ s.inp.len →
    (tokenEffect s.params.offsetZero i s.out.bytes).isSome = true →
    s.params.outLimit < s.out.len + i.outputLength →
    ∃ t, exec i s = .next t ∧ t.phase = .fault ∧ t.status = .capacity ∧ t.info = s.params.outLimit ∧ t.result = 0 ∧
      t.acc.len = 0 ∧ t.out.len = s.params.outLimit

/-- The frame of the tokens, whether they complete or take an exception: no byte of IN or of the accumulator's storage
changes, and no byte of OUT but the `outputLength` bytes from the old end on; MLEN, MPOS, ARG_P0, OP, the parameters
and the host's moves do not change; PHASE, STATUS, INFO, RESULT and ACC.len change only by an exception (R166, R168,
R162, R220). That a literal run leaves O, OFF and BASE as they were is the model's choice (log entry 22). -/
def Obligations.TokenFrame : Prop :=
  ∀ (s t : State) (i : Instr), i.isToken = true → exec i s = .next t →
    (∀ a, t.inp.mem.read a = s.inp.mem.read a) ∧ t.inp.len = s.inp.len ∧
    (∀ a, t.acc.mem.read a = s.acc.mem.read a) ∧
    (∀ a, ¬(s.out.len ≤ a ∧ a < s.out.len + i.outputLength) → t.out.mem.read a = s.out.mem.read a) ∧
    t.mlen = s.mlen ∧ t.mpos = s.mpos ∧ t.argP0 = s.argP0 ∧ t.op = s.op ∧ t.params = s.params ∧ t.host = s.host ∧
    t.work.p0 = s.work.p0 ∧
    ((t.phase = s.phase ∧ t.status = s.status ∧ t.info = s.info ∧ t.result = s.result ∧ t.acc.len = s.acc.len ∧
      t.work.l = s.work.l ∧ t.work.out0 = s.work.out0 ∧ t.work.p = s.work.p ∧ t.work.k = s.work.k ∧
      ((∃ nm1 data, i = .litrun nm1 data) →
        t.work.o = s.work.o ∧ t.work.off = s.work.off ∧ t.work.base = s.work.base)) ∨
     (t.phase = .fault ∧ (t.status = .truncated ∨ t.status = .distance ∨ t.status = .capacity) ∧ t.result = 0 ∧
      t.acc.len = 0))

/-- UNPACK's end: with no input remaining RESULT is the final output length and PHASE is DONE, and no stream changes
(R172). -/
def Obligations.UnpackEnds : Prop :=
  ∀ s : State, s.phase = .busy → s.op = .unpack → s.work.l ≤ s.inp.pos →
    ∃ t, exec .cmdUnpack s = .next t ∧ t.phase = .done ∧ t.result = s.out.len ∧ t.out = s.out ∧ t.inp = s.inp ∧
      t.acc = s.acc ∧ t.status = s.status ∧ t.info = s.info ∧ t.op = s.op ∧ t.mlen = s.mlen ∧ t.mpos = s.mpos ∧
      t.argP0 = s.argP0 ∧ t.params = s.params ∧ t.host = s.host

/-! ## The matcher -/

/-- FIND runs to its end and answers the nearest of the longest: MLEN is the greatest length that repeats at a candidate,
MPOS the highest candidate that reaches it, `(0, 0)` when none repeats a byte; RESULT is MLEN; and IN, OUT, ACC and
the other registers do not change (R110, R116, R118, R119, R192). The bound by L is the spec's decision D6, MPOS = 0
without a match its decision D5 (log entry 12). That an operation runs one loop iteration or one token a step is the
model's choice (log entry 1). -/
def Obligations.FindAnswersNearestLongest : Prop :=
  ∀ s : State, s.phase = .busy → s.op = .find → s.work.l ≤ s.inp.len →
    ∃ t, exec .cmdFind s = .next t ∧ t.phase = .done ∧ t.result = t.mlen ∧
      (∀ p k, Candidate s.work.p0 p → Repeats s.inp.mem s.work.l p s.work.p0 k → k ≤ t.mlen) ∧
      (t.mlen = 0 → t.mpos = 0) ∧
      (1 ≤ t.mlen → Candidate s.work.p0 t.mpos ∧ Repeats s.inp.mem s.work.l t.mpos s.work.p0 t.mlen ∧
        ∀ p, Candidate s.work.p0 p → Repeats s.inp.mem s.work.l p s.work.p0 t.mlen → p ≤ t.mpos) ∧
      t.inp = s.inp ∧ t.out = s.out ∧ t.acc = s.acc ∧ t.op = s.op ∧ t.status = s.status ∧ t.info = s.info ∧
      t.argP0 = s.argP0 ∧ t.params = s.params ∧ t.host = s.host

/-- At a cursor at or past the end of the input, and at positions 0 and 1, FIND makes no peek, whatever IN holds, and
answers `(0, 0)` (R120, R127). MPOS = 0 is the spec's decision D5, the cursor past the end its D26 (log entry 12). -/
def Obligations.FindWithoutCandidates : Prop :=
  ∀ s : State, s.phase = .busy → s.op = .find → (s.work.l ≤ s.work.p0 ∨ s.work.p0 ≤ 1) →
    ∃ t, exec .cmdFind s = .next t ∧ t.phase = .done ∧ t.mlen = 0 ∧ t.mpos = 0 ∧ t.result = 0

/-- A match never reaches past the end of the input; at the last byte none is longer than 1; a byte that stands nowhere
in the window gives length 0 (R123). -/
def Obligations.FindStaysInsideInput : Prop :=
  ∀ (inp : ByteStream) (l p0 len pos : Nat), l ≤ inp.len → p0 ≤ l → findBest inp l p0 = .ok (len, pos) →
    p0 + len ≤ l ∧ (p0 + 1 = l → len ≤ 1) ∧
    ((∀ p, Candidate p0 p → inp.mem.read p ≠ inp.mem.read p0) → len = 0)

/-- A repeat exactly 255 bytes back is a candidate and is found; a repeat 256 bytes back never is (R129). -/
def Obligations.WindowBoundary : Prop :=
  ∀ (inp : ByteStream) (l p0 len pos k : Nat), l ≤ inp.len → 256 ≤ p0 → findBest inp l p0 = .ok (len, pos) →
    (Repeats inp.mem l (p0 - 255) p0 k → k ≤ len) ∧ (1 ≤ len → pos ≠ p0 - 256)

/-- The early stop changes nothing: the scan without it gives the same result (R117). -/
def Obligations.EarlyStopChangesNothing : Prop :=
  ∀ (inp : ByteStream) (l p0 : Nat), l ≤ inp.len → findBest inp l p0 = findBestNoStop inp l p0

/-! ## The encoder -/

/-- PACK where the best match is 3 or shorter: exactly one byte moves from the cursor to the accumulator, which is flushed
as one literal-run token when it reaches exactly 64 (R134, R144). That an operation runs one loop iteration or one
token a step is the model's choice (log entry 1). The one-byte advance is the spec's decision D23. That P0 keeps the
cursor of the last search and OFF, C, O, N, I and BASE keep their values is the model's choice (DESIGN CHOICE, log
entry 22). -/
def Obligations.PackTakesLiteral : Prop :=
  ∀ (s : State) (len pos : Nat), s.Inv → s.phase = .busy → s.op = .pack → s.inp.pos < s.work.l →
    findBest s.inp.toByteStream s.work.l s.inp.pos = .ok (len, pos) → len ≤ 3 →
    (s.acc.len = 63 → s.out.len + 65 ≤ s.params.outLimit) →
    ∃ t, exec .cmdPack s = .next t ∧ t.inp = { s.inp with pos := s.inp.pos + 1 } ∧
      (s.acc.len < 63 → t.acc.bytes = s.acc.bytes ++ [s.inp.mem.read s.inp.pos] ∧ t.out = s.out) ∧
      (s.acc.len = 63 → t.acc.len = 0 ∧
        t.out.bytes = s.out.bytes ++ 0xFF :: (s.acc.bytes ++ [s.inp.mem.read s.inp.pos])) ∧
      t.phase = .busy ∧ t.op = .pack ∧ t.status = s.status ∧ t.info = s.info ∧ t.result = s.result ∧
      t.mlen = len ∧ t.mpos = pos ∧ t.argP0 = s.argP0 ∧
      t.work = { s.work with
        p0 := s.inp.pos
        p := t.work.p
        k := t.work.k } ∧
      t.params = s.params ∧ t.host = s.host

/-- PACK where the best match is longer than 3: pending literals are flushed first, then the match token is written, its
offset measured from the cursor the matcher was run at, and the cursor advances by the match length (R134, R140, R142,
R148). That an operation runs one loop iteration or one token a step is the model's choice (log entry 1). The amount
of the advance is the spec's decision D9. That an operation runs one loop iteration or one token a step is the model's
choice (log entry 1). The amount of the advance is the spec's decision D9; that OFF keeps its value afterwards is log
entry 22. -/
def Obligations.PackEmitsMatch : Prop :=
  ∀ (s : State) (len pos : Nat), s.Inv → s.phase = .busy → s.op = .pack → s.inp.pos < s.work.l →
    findBest s.inp.toByteStream s.work.l s.inp.pos = .ok (len, pos) → 3 < len →
    s.out.len + (if s.acc.len = 0 then 0 else s.acc.len + 1) + 2 ≤ s.params.outLimit →
    ∃ t, exec .cmdPack s = .next t ∧ t.inp = { s.inp with pos := s.inp.pos + len } ∧ t.acc.len = 0 ∧
      t.out.bytes = s.out.bytes ++
        (if s.acc.len = 0 then [] else BitVec.ofNat 8 (0xC0 + s.acc.len - 1) :: s.acc.bytes) ++
        [BitVec.ofNat 8 (len - 4), BitVec.ofInt 8 ((pos : Int) - (s.inp.pos : Int))] ∧
      t.work = { s.work with
        p0 := s.inp.pos
        p := t.work.p
        k := t.work.k
        off := (pos : Int) - (s.inp.pos : Int) } ∧
      t.phase = .busy ∧ t.op = .pack ∧ t.status = s.status ∧ t.info = s.info ∧ t.result = s.result ∧
      t.mlen = len ∧ t.mpos = pos ∧ t.argP0 = s.argP0 ∧ t.acc.mem = s.acc.mem ∧
      t.params = s.params ∧ t.host = s.host

/-- PACK's end: the pending literals are flushed, RESULT is the number of bytes written, PHASE is DONE and the
accumulator is empty (R145, R146). -/
def Obligations.PackEnds : Prop :=
  ∀ s : State, s.Inv → s.phase = .busy → s.op = .pack → s.work.l ≤ s.inp.pos →
    s.out.len + (if s.acc.len = 0 then 0 else s.acc.len + 1) ≤ s.params.outLimit →
    ∃ t, exec .cmdPack s = .next t ∧ t.phase = .done ∧ t.result = t.out.len - s.work.out0 ∧ t.acc.len = 0 ∧
      t.acc.mem = s.acc.mem ∧
      t.out.bytes = s.out.bytes ++
        (if s.acc.len = 0 then [] else BitVec.ofNat 8 (0xC0 + s.acc.len - 1) :: s.acc.bytes) ∧
      t.inp = s.inp ∧ t.op = .pack ∧ t.status = s.status ∧ t.info = s.info ∧ t.mlen = s.mlen ∧ t.mpos = s.mpos ∧
      t.argP0 = s.argP0 ∧ t.params = s.params ∧ t.host = s.host

/-- Where PACK takes CapacityFault: in a match step where the pending flush or the two bytes of the token do not fit, in a
literal step where the flush of the 64th byte does not fit, and at the end where the final flush does not fit. OUT is
then full, INFO its length, RESULT 0 and ACC empty. The cursor has not moved when the flush before a match fails, so
that fault comes before the seek; it is past the match when the token's own bytes fail, and past the byte read in a
literal step (R216, R219, R220). That an operation runs one loop iteration or one token a step is the model's choice
(log entry 1). CapacityFault is the spec's decision D19; that OUT then holds what was appended is log entry 17. With
OUT_CAP unbounded the limit is MAXLEN, by R55; R216 says that the exception does not exist then, and following R55
there is the model's reading (DEDUCED, log entry 23). -/
def Obligations.PackFaultsWhenOutFills : Prop :=
  ∀ s : State, s.Inv → s.phase = .busy → s.op = .pack →
    (∀ len pos, s.inp.pos < s.work.l → findBest s.inp.toByteStream s.work.l s.inp.pos = .ok (len, pos) →
      (3 < len → s.params.outLimit < s.out.len + (if s.acc.len = 0 then 0 else s.acc.len + 1) + 2 →
        ∃ t, exec .cmdPack s = .next t ∧ s.CapacityFaulted t ∧ t.mlen = len ∧ t.mpos = pos ∧
          t.inp = { s.inp with
            pos := if s.params.outLimit < s.out.len + (if s.acc.len = 0 then 0 else s.acc.len + 1) then s.inp.pos
              else s.inp.pos + len }) ∧
      (len ≤ 3 → s.acc.len = 63 → s.params.outLimit < s.out.len + 65 →
        ∃ t, exec .cmdPack s = .next t ∧ s.CapacityFaulted t ∧ t.mlen = len ∧ t.mpos = pos ∧
          t.inp = { s.inp with pos := s.inp.pos + 1 })) ∧
    (s.work.l ≤ s.inp.pos → s.params.outLimit < s.out.len + (if s.acc.len = 0 then 0 else s.acc.len + 1) →
      ∃ t, exec .cmdPack s = .next t ∧ s.CapacityFaulted t ∧ t.mlen = s.mlen ∧ t.mpos = s.mpos ∧ t.inp = s.inp)

/-- PACK accepted from the start conditions meets the position invariant: nothing is written and the cursor is at 0
(R147, R243). -/
def Obligations.PackStartMeetsPositionInvariant : Prop :=
  ∀ (s : State) (rest : List (Option HostMove)), s.StreamsAtStart → s.host = Cmd.pack.write :: rest →
    ∃ t, step s = .next t ∧ t.phase = .busy ∧ t.op = .pack ∧ t.PositionOk

/-- The position invariant of PACK: at the top of every loop iteration, and at the end, a decoder that had executed the
tokens written to OUT and one literal run of the bytes now in ACC would have produced exactly the bytes of IN before
the cursor. Every step of a running PACK that takes no exception keeps it (R147). That an operation runs one loop
iteration or one token a step is the model's choice (log entry 1). -/
def Obligations.PackKeepsPositionInvariant : Prop :=
  ∀ s t : State, s.Inv → s.phase = .busy → s.op = .pack → s.PositionOk → step s = .next t →
    t.phase = .busy ∨ t.phase = .done → t.PositionOk

/-- EMIT_MATCH when the cursor cannot advance by the match length: SeekFault with the unmoved cursor, the accumulator
emptied, and nothing of the token written (R142, R212). The record is the spec's decision D13. -/
def Obligations.EmitMatchSeekFaults : Prop :=
  ∀ s : State, s.inp.len < s.inp.pos + min s.mlen 195 →
    ∃ t, emitMatch s = .raised t ∧ t.phase = .fault ∧ t.status = .seek ∧ t.info = s.inp.pos ∧ t.result = 0 ∧
      t.acc.len = 0 ∧ t.out = s.out ∧ t.inp = s.inp

/-- From the invariant no step records SeekFault: the seek of PACK cannot fail (R143). -/
def Obligations.SeekFaultIsUnreachable : Prop :=
  ∀ s t : State, s.Inv → s.status ≠ .seek → step s = .next t → t.status ≠ .seek

/-- The frame of the commands, whether they are accepted, run on, end or take an exception: no byte of IN changes, its
length neither, and the cursor never moves back; ARG_P0, the parameters and the host's moves do not change; OUT is
append only; and only PACK's storage into the accumulator at its end, by one byte, changes the accumulator's storage
(R22, R23, R31, R51, R118). -/
def Obligations.CommandFrame : Prop :=
  ∀ (s t : State) (i : Instr), i.isToken = false → exec i s = .next t →
    (∀ a, t.inp.mem.read a = s.inp.mem.read a) ∧ t.inp.len = s.inp.len ∧ s.inp.pos ≤ t.inp.pos ∧
    t.argP0 = s.argP0 ∧ t.params = s.params ∧ t.host = s.host ∧
    s.out.len ≤ t.out.len ∧ (∀ a, ¬(s.out.len ≤ a ∧ a < t.out.len) → t.out.mem.read a = s.out.mem.read a) ∧
    (∀ a, ¬(i = .cmdPack ∧ s.phase = .busy ∧ s.op = .pack ∧ a = s.acc.len) →
      t.acc.mem.read a = s.acc.mem.read a) ∧
    (i = .cmdFind → t.inp = s.inp ∧ t.out = s.out ∧ t.acc = s.acc) ∧
    (i ≠ .cmdFind ∧ i ≠ .cmdPack → t.mlen = s.mlen ∧ t.mpos = s.mpos)

/-! ## The whole machine -/

/-- Every step keeps the invariant: the memories stay canonical, the cursor stays inside IN, the accumulator is empty
unless PACK runs, the registers keep their ranges and agree with one another (R22, R23, R24, R35, R36, R149). The
canonical memory and the ranges as an invariant are the model's choices (log entries 6 and 13), MPOS = 0 with MLEN = 0
is log entry 12. -/
def Obligations.StepKeepsInvariant : Prop :=
  ∀ s t : State, s.Inv → step s = .next t → t.Inv

/-- The state after reset meets the invariant. Its empty streams and zero working registers are log entries 7 and 8. -/
def Obligations.ResetMeetsInvariant : Prop := State.reset.Inv

/-- From the invariant no step makes an access outside the contract: every peek and read is at a valid position and no
65th byte reaches the accumulator, whatever bytes IN holds (R56, R124, R175, R252). -/
def Obligations.NoStepAccessesOutsideContract : Prop :=
  ∀ (s : State) (f : Fault), s.Inv → step s ≠ .fault f

/-- Every operation terminates, in DONE or FAULT, within as many steps as IN has unread bytes and one more, and UNPACK
ends in DONE or one of its three faults (R175, R195). That an operation runs one loop iteration or one token a step is
the model's choice (log entry 1). -/
def Obligations.OperationsTerminate : Prop :=
  ∀ s : State, s.Inv → s.phase = .busy → s.host = [] →
    ∃ n t, n ≤ s.work.l - s.inp.pos + 1 ∧ Reaches n s t ∧
      ((t.phase = .done ∧ t.status = .ok) ∨
       (t.phase = .fault ∧ s.op = .pack ∧ t.status = .capacity) ∨
       (t.phase = .fault ∧ s.op = .unpack ∧
         (t.status = .truncated ∨ t.status = .distance ∨ t.status = .capacity)))

/-- UNPACK accepts every well-formed token stream, canonical or not: when IN holds the bytes of tokens that all have an
effect on OUT and the output fits, UNPACK runs to DONE, OUT is that effect and RESULT its length (R86, R160, R172,
R176). That an operation runs one loop iteration or one token a step is the model's choice (log entry 1). -/
def Obligations.UnpackRunsEveryWellFormedStream : Prop :=
  ∀ (s : State) (ts : List Instr) (out : List Byte), s.Inv → s.phase ≠ .busy → s.inp.pos = 0 →
    s.host = [Cmd.unpack.write] → (∀ i ∈ ts, i.wf = true ∧ i.isToken = true) → s.inp.bytes = streamBytes ts →
    streamEffect s.params.offsetZero ts s.out.bytes = some out → out.length ≤ s.params.outLimit →
    ∃ n t, n ≤ ts.length + 2 ∧ Reaches n s t ∧ t.host = [] ∧ t.phase = .done ∧ t.out.bytes = out ∧ t.result = out.length ∧
      t.inp.pos = t.inp.len

/-- The round trip: PACK of any bytes, from the start conditions and with room for its output, runs to DONE; and UNPACK of
what it wrote, from the start conditions and with room, runs to DONE and gives the bytes back (R153, R243). StartOk
asks for the room under min(MAXLEN, OUT_CAP) also with OUT_CAP unbounded, where R243 condition 4 asks nothing more;
that is the model's reading (DEDUCED, log entry 23). -/
def Obligations.UnpackOfPackIsIdentity : Prop :=
  ∀ s : State, s.Inv → s.StartOk s.packRoom → s.host = [Cmd.pack.write] →
    ∃ n t, Reaches n s t ∧ t.host = [] ∧ t.phase = .done ∧ t.result = t.out.len ∧ t.inp.pos = t.inp.len ∧
      ∀ u : State, u.Inv → u.StartOk s.inp.len → u.host = [Cmd.unpack.write] → u.inp.bytes = t.out.bytes →
        ∃ m v, Reaches m u v ∧ v.host = [] ∧ v.phase = .done ∧ v.out.bytes = s.inp.bytes ∧ v.result = s.inp.len

/-- PACK of `n` bytes, started with room for `n + ceil(n / 64)` bytes, runs to its end (the command taken from the host,
all input consumed), never faults, and writes at most that many; RESULT is what it wrote (R98, R216). StartOk asks for
the room under min(MAXLEN, OUT_CAP) also with OUT_CAP unbounded, where R243 condition 4 asks nothing more; that is the
model's reading (DEDUCED, log entry 23). -/
def Obligations.PackOutputBound : Prop :=
  ∀ s : State, s.Inv → s.StartOk s.packRoom → s.host = [Cmd.pack.write] →
    ∃ n t, Reaches n s t ∧ t.host = [] ∧ t.phase = .done ∧ t.inp.pos = t.inp.len ∧ t.result = t.out.len ∧
      t.out.len ≤ s.packRoom

/-- UNPACK of `m` bytes writes at most `195 · floor(m / 2)` bytes (R98). -/
def Obligations.UnpackOutputBound : Prop :=
  ∀ (s t : State) (n : Nat), s.Inv → s.StreamsAtStart → s.host = [Cmd.unpack.write] → Reaches n s t →
    t.out.len ≤ 195 * (s.inp.len / 2)

/-- What PACK writes is a canonical stream: well-formed tokens; no offset byte 0x00; a literal run shorter than 64 is
followed by a match or the end; the first token of a non-empty stream is a literal run, of at least two bytes when the
input has at least two; no match's source starts at original position 0; and they decode to the input (R95). StartOk
asks for the room under min(MAXLEN, OUT_CAP) also with OUT_CAP unbounded, where R243 condition 4 asks nothing more;
that is the model's reading (DEDUCED, log entry 23). -/
def Obligations.PackWritesCanonicalStream : Prop :=
  ∀ s : State, s.Inv → s.StartOk s.packRoom → s.host = [Cmd.pack.write] →
    ∃ n t ts, Reaches n s t ∧ t.host = [] ∧ t.phase = .done ∧ t.out.bytes = streamBytes ts ∧
      (∀ i ∈ ts, i.wf = true ∧ i.isToken = true ∧ (∀ l, i ≠ .matchLo l 0) ∧ (∀ l, i ≠ .matchHi l 0)) ∧
      (∀ pre post a b da db, ts = pre ++ .litrun a da :: .litrun b db :: post → a = 63) ∧
      (∀ i post, ts = i :: post → ∃ a data, i = .litrun a data ∧ min 2 s.inp.len ≤ data.length) ∧
      (∀ z pre i post o, ts = pre ++ i :: post → ((∃ l, i = .matchLo l o) ∨ (∃ l, i = .matchHi l o)) →
        ∃ out, streamEffect z pre [] = some out ∧ distance o < out.length) ∧
      ∀ z, streamEffect z ts [] = some s.inp.bytes

/-- A 64-byte input of all-distinct bytes is one literal run of length 64, a 65-byte one a run of 64 and a run of 1
(R154). -/
def Obligations.DistinctBytesPackAsLiteralRuns : Prop :=
  ∀ s : State, s.Inv → s.StartOk s.packRoom → s.host = [Cmd.pack.write] → s.inp.bytes.Nodup →
    (s.inp.len = 64 ∨ s.inp.len = 65) →
    ∃ n t, Reaches n s t ∧ t.host = [] ∧ t.phase = .done ∧
      (s.inp.len = 64 → t.out.bytes = 0xFF :: s.inp.bytes) ∧
      (s.inp.len = 65 → t.out.bytes = 0xFF :: s.inp.bytes.take 64 ++ 0xC0 :: s.inp.bytes.drop 64)

/-- The stale bytes of the accumulator, the scratch registers and the free values are unobservable: from two states that
differ in them alone, a step gives two states that differ in them alone (R26, R27, R40, R199). The free values are the
model's form of what the spec leaves unspecified (log entry 5). -/
def Obligations.HiddenStateIsUnobservable : Prop :=
  ∀ s t s' : State, s.Inv → t.Inv → s.Alike t → step s = .next s' → ∃ t', step t = .next t' ∧ s'.Alike t'

/-- Instances are independent: a step of one leaves every other as it is, and what it does is its own machine's step
(R200). The product form is the spec's decision D27 (log entry 18). -/
def Obligations.InstancesAreIndependent : Prop :=
  ∀ (k : Nat) (ss ts : Instances), instanceStep k ss = .next ts →
    ts.length = ss.length ∧ (∀ j, j ≠ k → ts[j]? = ss[j]?) ∧
    ∀ s, ss[k]? = some s → ∃ t, step s = .next t ∧ ts[k]? = some t
end

