-- ==== Sys2Proof/Laws/Decode.lean ====
section
/-! SUPPORT. The laws of the token format: the fields of a control byte, both ways, and what the decoder answers. -/

namespace Sys2Proof

/-! ## Control bytes -/

@[simp] theorem isLiteral_litrunControl : ∀ nm1 : BitVec 6, isLiteral (litrunControl nm1) = true := by decide
@[simp] theorem isLiteral_matchLoControl : ∀ l : BitVec 7, isLiteral (matchLoControl l) = false := by decide
@[simp] theorem isLiteral_matchHiControl : ∀ l : BitVec 6, isLiteral (matchHiControl l) = false := by decide
@[simp] theorem litRunLength_litrunControl : ∀ nm1 : BitVec 6, litRunLength (litrunControl nm1) = nm1.toNat + 1 := by
  decide
@[simp] theorem extract_litrunControl : ∀ nm1 : BitVec 6, (litrunControl nm1).extractLsb' 0 6 = nm1 := by decide
/-- A literal control byte is made of its low six bits. -/
theorem litrunControl_extract : ∀ c : Byte, isLiteral c = true → litrunControl (c.extractLsb' 0 6) = c := by decide
/-- The kind of a control byte by its bits 7:6 (R80). -/
theorem isLiteral_iff : ∀ c : Byte, isLiteral c = true ↔ c.extractLsb' 6 2 = 3#2 := by decide
theorem litRunLength_eq : ∀ c : Byte, litRunLength c = (c.extractLsb' 0 6).toNat + 1 := by decide
theorem litRunLength_le (c : Byte) : 1 ≤ litRunLength c ∧ litRunLength c ≤ 64 := by
  rw [litRunLength_eq]; have := (c.extractLsb' 0 6).isLt; omega
theorem tokenNeed_le (c : Byte) : 1 ≤ tokenNeed c ∧ tokenNeed c ≤ 64 := by
  unfold tokenNeed
  split_ifs
  · exact litRunLength_le c
  · omega
theorem matchLength_lo : ∀ l : BitVec 7, 4 ≤ matchLength (matchLoControl l) ∧ matchLength (matchLoControl l) ≤ 195 := by
  decide
theorem matchLength_hi : ∀ l : BitVec 6, 4 ≤ matchLength (matchHiControl l) ∧ matchLength (matchHiControl l) ≤ 195 := by
  decide
/-- Every match control byte is that of exactly one row: MATCH.lo by a clear bit 7, else MATCH.hi (R93). -/
theorem matchControl_row : ∀ c : Byte, isLiteral c = false →
    (if (c &&& 0x80) == 0 then matchLoControl (c.extractLsb' 0 7) else matchHiControl (c.extractLsb' 0 6)) = c := by
  decide

@[simp] theorem decodeMatch_lo (l : BitVec 7) (o : Byte) : decodeMatch (matchLoControl l) o = .matchLo l o := by
  have h1 : ∀ l : BitVec 7, (matchLoControl l &&& 128#8) = 0#8 := by decide
  have h2 : ∀ l : BitVec 7, (matchLoControl l).extractLsb' 0 7 = l := by decide
  simp [decodeMatch, h1, h2]
@[simp] theorem decodeMatch_hi (l : BitVec 6) (o : Byte) : decodeMatch (matchHiControl l) o = .matchHi l o := by
  have h1 : ∀ l : BitVec 6, ¬(matchHiControl l &&& 128#8) = 0#8 := by decide
  have h2 : ∀ l : BitVec 6, (matchHiControl l).extractLsb' 0 6 = l := by decide
  simp [decodeMatch, h1, h2]

/-- The row a match decodes to, with its control byte. -/
theorem decodeMatch_cases {c : Byte} (h : isLiteral c = false) (o : Byte) :
    (∃ l, c = matchLoControl l ∧ decodeMatch c o = .matchLo l o) ∨
    (∃ l, c = matchHiControl l ∧ decodeMatch c o = .matchHi l o) := by
  have hr := matchControl_row c h
  by_cases hb : ((c &&& 0x80) == 0) = true
  · rw [if_pos hb] at hr
    exact .inl ⟨_, hr.symm, by simp only [decodeMatch, hb, if_true]⟩
  · rw [if_neg hb] at hr
    exact .inr ⟨_, hr.symm, by simp only [decodeMatch, hb, Bool.false_eq_true, if_false]⟩

/-! ## Field values -/

theorem litControl_eq : ∀ n : BitVec 6, litControl (n.toNat + 1) = litrunControl n := by decide

/-- The control byte of a run of `len` bytes, for a length in 1..64 (R87). -/
theorem litControl_of_le {len : Nat} (h1 : 1 ≤ len) (h2 : len ≤ 64) :
    litControl len = litrunControl (BitVec.ofNat 6 (len - 1)) := by
  have := litControl_eq (BitVec.ofNat 6 (len - 1))
  rwa [BitVec.toNat_ofNat, Nat.mod_eq_of_lt (by omega), Nat.sub_add_cancel h1] at this

/-- The control byte of a match of `len` bytes, for a length in 4..195, is a match control byte of that length (R88). -/
theorem matchControl_spec {len : Nat} (h1 : 4 ≤ len) (h2 : len ≤ 195) :
    isLiteral (matchControl len) = false ∧ matchLength (matchControl len) = len := by
  have hall : ∀ c : Byte, c.toNat ≤ 191 → isLiteral c = false := by decide
  have ht : (matchControl len).toNat = len - 4 := by
    simp only [matchControl, Config.matchBias, BitVec.toNat_ofNat]; omega
  exact ⟨hall _ (by omega), by simp only [matchLength, Config.matchBias, ht]; omega⟩

/-- The offset byte of a backward distance in 1..255 (R89), read back (R90, R91). -/
theorem offsetByte_spec {off : Int} (h1 : -255 ≤ off) (h2 : off ≤ -1) :
    ((offsetByte off).toNat : Int) = 256 + off := by
  simp only [offsetByte, BitVec.toNat_ofInt]
  omega

theorem negoff_offsetByte {off : Int} (h1 : -255 ≤ off) (h2 : off ≤ -1) : negoff (offsetByte off) = off := by
  rw [negoff, offsetByte_spec h1 h2]; omega

/-! ## What the decoder answers -/

theorem decodeToken_litrun {nm1 : BitVec 6} {data : List Byte} (h : data.length = nm1.toNat + 1) (rest : List Byte) :
    decodeToken (litrunControl nm1 :: (data ++ rest)) = .ok (.litrun nm1 data, rest) := by
  simp [decodeToken, ← h]

theorem decodeToken_match {c : Byte} (h : isLiteral c = false) (o : Byte) (rest : List Byte) :
    decodeToken (c :: o :: rest) = .ok (decodeMatch c o, rest) := by simp [decodeToken, h]

/-- All the decoder can answer: a name for what is missing, or one of the two kinds of token (R80, R85). -/
theorem decodeToken_cases (bytes : List Byte) :
    (bytes = [] ∧ decodeToken bytes = .error .endOfStream) ∨
    (∃ c rest, bytes = c :: rest ∧ isLiteral c = true ∧ rest.length < litRunLength c ∧
      decodeToken bytes = .error (.truncatedLiteralRun c)) ∨
    (∃ c, bytes = [c] ∧ isLiteral c = false ∧ decodeToken bytes = .error (.truncatedMatch c)) ∨
    (∃ nm1 data rest, bytes = litrunControl nm1 :: (data ++ rest) ∧ data.length = nm1.toNat + 1 ∧
      decodeToken bytes = .ok (.litrun nm1 data, rest)) ∨
    (∃ c o rest, bytes = c :: o :: rest ∧ isLiteral c = false ∧ decodeToken bytes = .ok (decodeMatch c o, rest)) := by
  match bytes with
  | [] => exact .inl ⟨rfl, rfl⟩
  | c :: rest =>
    by_cases hl : isLiteral c = true
    · by_cases ht : rest.length < litRunLength c
      · exact .inr (.inl ⟨c, rest, rfl, hl, ht, by simp [decodeToken, hl, ht]⟩)
      · refine .inr (.inr (.inr (.inl ⟨c.extractLsb' 0 6, rest.take (litRunLength c), rest.drop (litRunLength c), ?_, ?_,
          by simp [decodeToken, hl, ht]⟩)))
        · rw [litrunControl_extract c hl, List.take_append_drop]
        · rw [List.length_take, ← litRunLength_eq]; omega
    · rw [Bool.not_eq_true] at hl
      match rest with
      | [] => exact .inr (.inr (.inl ⟨c, rfl, hl, by simp [decodeToken, hl]⟩))
      | o :: rest => exact .inr (.inr (.inr (.inr ⟨c, o, rest, rfl, hl, decodeToken_match hl o rest⟩)))

end Sys2Proof
end

