-- ==== Sys2Proof/Laws/State.lean ====
section
/-! SUPPORT. One lemma per field per setter: what each setter of the state writes, and that it writes nothing else. -/

namespace Sys2Proof.Machine

variable (s : State)

@[simp] theorem State.setInp_params (v : InputStream) : (s.setInp v).params = s.params := rfl
@[simp] theorem State.setInp_inp (v : InputStream) : (s.setInp v).inp = v := rfl
@[simp] theorem State.setInp_out (v : InputStream) : (s.setInp v).out = s.out := rfl
@[simp] theorem State.setInp_acc (v : InputStream) : (s.setInp v).acc = s.acc := rfl
@[simp] theorem State.setInp_work (v : InputStream) : (s.setInp v).work = s.work := rfl
@[simp] theorem State.setInp_mlen (v : InputStream) : (s.setInp v).mlen = s.mlen := rfl
@[simp] theorem State.setInp_mpos (v : InputStream) : (s.setInp v).mpos = s.mpos := rfl
@[simp] theorem State.setInp_argP0 (v : InputStream) : (s.setInp v).argP0 = s.argP0 := rfl
@[simp] theorem State.setInp_phase (v : InputStream) : (s.setInp v).phase = s.phase := rfl
@[simp] theorem State.setInp_op (v : InputStream) : (s.setInp v).op = s.op := rfl
@[simp] theorem State.setInp_status (v : InputStream) : (s.setInp v).status = s.status := rfl
@[simp] theorem State.setInp_info (v : InputStream) : (s.setInp v).info = s.info := rfl
@[simp] theorem State.setInp_result (v : InputStream) : (s.setInp v).result = s.result := rfl
@[simp] theorem State.setInp_host (v : InputStream) : (s.setInp v).host = s.host := rfl
@[simp] theorem State.setInp_free (v : InputStream) : (s.setInp v).free = s.free := rfl

@[simp] theorem State.setOut_params (v : ByteStream) : (s.setOut v).params = s.params := rfl
@[simp] theorem State.setOut_inp (v : ByteStream) : (s.setOut v).inp = s.inp := rfl
@[simp] theorem State.setOut_out (v : ByteStream) : (s.setOut v).out = v := rfl
@[simp] theorem State.setOut_acc (v : ByteStream) : (s.setOut v).acc = s.acc := rfl
@[simp] theorem State.setOut_work (v : ByteStream) : (s.setOut v).work = s.work := rfl
@[simp] theorem State.setOut_mlen (v : ByteStream) : (s.setOut v).mlen = s.mlen := rfl
@[simp] theorem State.setOut_mpos (v : ByteStream) : (s.setOut v).mpos = s.mpos := rfl
@[simp] theorem State.setOut_argP0 (v : ByteStream) : (s.setOut v).argP0 = s.argP0 := rfl
@[simp] theorem State.setOut_phase (v : ByteStream) : (s.setOut v).phase = s.phase := rfl
@[simp] theorem State.setOut_op (v : ByteStream) : (s.setOut v).op = s.op := rfl
@[simp] theorem State.setOut_status (v : ByteStream) : (s.setOut v).status = s.status := rfl
@[simp] theorem State.setOut_info (v : ByteStream) : (s.setOut v).info = s.info := rfl
@[simp] theorem State.setOut_result (v : ByteStream) : (s.setOut v).result = s.result := rfl
@[simp] theorem State.setOut_host (v : ByteStream) : (s.setOut v).host = s.host := rfl
@[simp] theorem State.setOut_free (v : ByteStream) : (s.setOut v).free = s.free := rfl

@[simp] theorem State.setAcc_params (v : ByteStream) : (s.setAcc v).params = s.params := rfl
@[simp] theorem State.setAcc_inp (v : ByteStream) : (s.setAcc v).inp = s.inp := rfl
@[simp] theorem State.setAcc_out (v : ByteStream) : (s.setAcc v).out = s.out := rfl
@[simp] theorem State.setAcc_acc (v : ByteStream) : (s.setAcc v).acc = v := rfl
@[simp] theorem State.setAcc_work (v : ByteStream) : (s.setAcc v).work = s.work := rfl
@[simp] theorem State.setAcc_mlen (v : ByteStream) : (s.setAcc v).mlen = s.mlen := rfl
@[simp] theorem State.setAcc_mpos (v : ByteStream) : (s.setAcc v).mpos = s.mpos := rfl
@[simp] theorem State.setAcc_argP0 (v : ByteStream) : (s.setAcc v).argP0 = s.argP0 := rfl
@[simp] theorem State.setAcc_phase (v : ByteStream) : (s.setAcc v).phase = s.phase := rfl
@[simp] theorem State.setAcc_op (v : ByteStream) : (s.setAcc v).op = s.op := rfl
@[simp] theorem State.setAcc_status (v : ByteStream) : (s.setAcc v).status = s.status := rfl
@[simp] theorem State.setAcc_info (v : ByteStream) : (s.setAcc v).info = s.info := rfl
@[simp] theorem State.setAcc_result (v : ByteStream) : (s.setAcc v).result = s.result := rfl
@[simp] theorem State.setAcc_host (v : ByteStream) : (s.setAcc v).host = s.host := rfl
@[simp] theorem State.setAcc_free (v : ByteStream) : (s.setAcc v).free = s.free := rfl

@[simp] theorem State.setWork_params (v : Work) : (s.setWork v).params = s.params := rfl
@[simp] theorem State.setWork_inp (v : Work) : (s.setWork v).inp = s.inp := rfl
@[simp] theorem State.setWork_out (v : Work) : (s.setWork v).out = s.out := rfl
@[simp] theorem State.setWork_acc (v : Work) : (s.setWork v).acc = s.acc := rfl
@[simp] theorem State.setWork_work (v : Work) : (s.setWork v).work = v := rfl
@[simp] theorem State.setWork_mlen (v : Work) : (s.setWork v).mlen = s.mlen := rfl
@[simp] theorem State.setWork_mpos (v : Work) : (s.setWork v).mpos = s.mpos := rfl
@[simp] theorem State.setWork_argP0 (v : Work) : (s.setWork v).argP0 = s.argP0 := rfl
@[simp] theorem State.setWork_phase (v : Work) : (s.setWork v).phase = s.phase := rfl
@[simp] theorem State.setWork_op (v : Work) : (s.setWork v).op = s.op := rfl
@[simp] theorem State.setWork_status (v : Work) : (s.setWork v).status = s.status := rfl
@[simp] theorem State.setWork_info (v : Work) : (s.setWork v).info = s.info := rfl
@[simp] theorem State.setWork_result (v : Work) : (s.setWork v).result = s.result := rfl
@[simp] theorem State.setWork_host (v : Work) : (s.setWork v).host = s.host := rfl
@[simp] theorem State.setWork_free (v : Work) : (s.setWork v).free = s.free := rfl

@[simp] theorem State.setBest_params (l p : Nat) : (s.setBest l p).params = s.params := rfl
@[simp] theorem State.setBest_inp (l p : Nat) : (s.setBest l p).inp = s.inp := rfl
@[simp] theorem State.setBest_out (l p : Nat) : (s.setBest l p).out = s.out := rfl
@[simp] theorem State.setBest_acc (l p : Nat) : (s.setBest l p).acc = s.acc := rfl
@[simp] theorem State.setBest_work (l p : Nat) : (s.setBest l p).work = s.work := rfl
@[simp] theorem State.setBest_mlen (l p : Nat) : (s.setBest l p).mlen = l := rfl
@[simp] theorem State.setBest_mpos (l p : Nat) : (s.setBest l p).mpos = p := rfl
@[simp] theorem State.setBest_argP0 (l p : Nat) : (s.setBest l p).argP0 = s.argP0 := rfl
@[simp] theorem State.setBest_phase (l p : Nat) : (s.setBest l p).phase = s.phase := rfl
@[simp] theorem State.setBest_op (l p : Nat) : (s.setBest l p).op = s.op := rfl
@[simp] theorem State.setBest_status (l p : Nat) : (s.setBest l p).status = s.status := rfl
@[simp] theorem State.setBest_info (l p : Nat) : (s.setBest l p).info = s.info := rfl
@[simp] theorem State.setBest_result (l p : Nat) : (s.setBest l p).result = s.result := rfl
@[simp] theorem State.setBest_host (l p : Nat) : (s.setBest l p).host = s.host := rfl
@[simp] theorem State.setBest_free (l p : Nat) : (s.setBest l p).free = s.free := rfl

@[simp] theorem State.setArgP0_params (v : Nat) : (s.setArgP0 v).params = s.params := rfl
@[simp] theorem State.setArgP0_inp (v : Nat) : (s.setArgP0 v).inp = s.inp := rfl
@[simp] theorem State.setArgP0_out (v : Nat) : (s.setArgP0 v).out = s.out := rfl
@[simp] theorem State.setArgP0_acc (v : Nat) : (s.setArgP0 v).acc = s.acc := rfl
@[simp] theorem State.setArgP0_work (v : Nat) : (s.setArgP0 v).work = s.work := rfl
@[simp] theorem State.setArgP0_mlen (v : Nat) : (s.setArgP0 v).mlen = s.mlen := rfl
@[simp] theorem State.setArgP0_mpos (v : Nat) : (s.setArgP0 v).mpos = s.mpos := rfl
@[simp] theorem State.setArgP0_argP0 (v : Nat) : (s.setArgP0 v).argP0 = v := rfl
@[simp] theorem State.setArgP0_phase (v : Nat) : (s.setArgP0 v).phase = s.phase := rfl
@[simp] theorem State.setArgP0_op (v : Nat) : (s.setArgP0 v).op = s.op := rfl
@[simp] theorem State.setArgP0_status (v : Nat) : (s.setArgP0 v).status = s.status := rfl
@[simp] theorem State.setArgP0_info (v : Nat) : (s.setArgP0 v).info = s.info := rfl
@[simp] theorem State.setArgP0_result (v : Nat) : (s.setArgP0 v).result = s.result := rfl
@[simp] theorem State.setArgP0_host (v : Nat) : (s.setArgP0 v).host = s.host := rfl
@[simp] theorem State.setArgP0_free (v : Nat) : (s.setArgP0 v).free = s.free := rfl

@[simp] theorem State.setPhase_params (v : Phase) : (s.setPhase v).params = s.params := rfl
@[simp] theorem State.setPhase_inp (v : Phase) : (s.setPhase v).inp = s.inp := rfl
@[simp] theorem State.setPhase_out (v : Phase) : (s.setPhase v).out = s.out := rfl
@[simp] theorem State.setPhase_acc (v : Phase) : (s.setPhase v).acc = s.acc := rfl
@[simp] theorem State.setPhase_work (v : Phase) : (s.setPhase v).work = s.work := rfl
@[simp] theorem State.setPhase_mlen (v : Phase) : (s.setPhase v).mlen = s.mlen := rfl
@[simp] theorem State.setPhase_mpos (v : Phase) : (s.setPhase v).mpos = s.mpos := rfl
@[simp] theorem State.setPhase_argP0 (v : Phase) : (s.setPhase v).argP0 = s.argP0 := rfl
@[simp] theorem State.setPhase_phase (v : Phase) : (s.setPhase v).phase = v := rfl
@[simp] theorem State.setPhase_op (v : Phase) : (s.setPhase v).op = s.op := rfl
@[simp] theorem State.setPhase_status (v : Phase) : (s.setPhase v).status = s.status := rfl
@[simp] theorem State.setPhase_info (v : Phase) : (s.setPhase v).info = s.info := rfl
@[simp] theorem State.setPhase_result (v : Phase) : (s.setPhase v).result = s.result := rfl
@[simp] theorem State.setPhase_host (v : Phase) : (s.setPhase v).host = s.host := rfl
@[simp] theorem State.setPhase_free (v : Phase) : (s.setPhase v).free = s.free := rfl

@[simp] theorem State.setOp_params (v : Cmd) : (s.setOp v).params = s.params := rfl
@[simp] theorem State.setOp_inp (v : Cmd) : (s.setOp v).inp = s.inp := rfl
@[simp] theorem State.setOp_out (v : Cmd) : (s.setOp v).out = s.out := rfl
@[simp] theorem State.setOp_acc (v : Cmd) : (s.setOp v).acc = s.acc := rfl
@[simp] theorem State.setOp_work (v : Cmd) : (s.setOp v).work = s.work := rfl
@[simp] theorem State.setOp_mlen (v : Cmd) : (s.setOp v).mlen = s.mlen := rfl
@[simp] theorem State.setOp_mpos (v : Cmd) : (s.setOp v).mpos = s.mpos := rfl
@[simp] theorem State.setOp_argP0 (v : Cmd) : (s.setOp v).argP0 = s.argP0 := rfl
@[simp] theorem State.setOp_phase (v : Cmd) : (s.setOp v).phase = s.phase := rfl
@[simp] theorem State.setOp_op (v : Cmd) : (s.setOp v).op = v := rfl
@[simp] theorem State.setOp_status (v : Cmd) : (s.setOp v).status = s.status := rfl
@[simp] theorem State.setOp_info (v : Cmd) : (s.setOp v).info = s.info := rfl
@[simp] theorem State.setOp_result (v : Cmd) : (s.setOp v).result = s.result := rfl
@[simp] theorem State.setOp_host (v : Cmd) : (s.setOp v).host = s.host := rfl
@[simp] theorem State.setOp_free (v : Cmd) : (s.setOp v).free = s.free := rfl

@[simp] theorem State.setStatus_params (st : Status) (n : Nat) : (s.setStatus st n).params = s.params := rfl
@[simp] theorem State.setStatus_inp (st : Status) (n : Nat) : (s.setStatus st n).inp = s.inp := rfl
@[simp] theorem State.setStatus_out (st : Status) (n : Nat) : (s.setStatus st n).out = s.out := rfl
@[simp] theorem State.setStatus_acc (st : Status) (n : Nat) : (s.setStatus st n).acc = s.acc := rfl
@[simp] theorem State.setStatus_work (st : Status) (n : Nat) : (s.setStatus st n).work = s.work := rfl
@[simp] theorem State.setStatus_mlen (st : Status) (n : Nat) : (s.setStatus st n).mlen = s.mlen := rfl
@[simp] theorem State.setStatus_mpos (st : Status) (n : Nat) : (s.setStatus st n).mpos = s.mpos := rfl
@[simp] theorem State.setStatus_argP0 (st : Status) (n : Nat) : (s.setStatus st n).argP0 = s.argP0 := rfl
@[simp] theorem State.setStatus_phase (st : Status) (n : Nat) : (s.setStatus st n).phase = s.phase := rfl
@[simp] theorem State.setStatus_op (st : Status) (n : Nat) : (s.setStatus st n).op = s.op := rfl
@[simp] theorem State.setStatus_status (st : Status) (n : Nat) : (s.setStatus st n).status = st := rfl
@[simp] theorem State.setStatus_info (st : Status) (n : Nat) : (s.setStatus st n).info = n := rfl
@[simp] theorem State.setStatus_result (st : Status) (n : Nat) : (s.setStatus st n).result = s.result := rfl
@[simp] theorem State.setStatus_host (st : Status) (n : Nat) : (s.setStatus st n).host = s.host := rfl
@[simp] theorem State.setStatus_free (st : Status) (n : Nat) : (s.setStatus st n).free = s.free := rfl

@[simp] theorem State.setResult_params (v : Nat) : (s.setResult v).params = s.params := rfl
@[simp] theorem State.setResult_inp (v : Nat) : (s.setResult v).inp = s.inp := rfl
@[simp] theorem State.setResult_out (v : Nat) : (s.setResult v).out = s.out := rfl
@[simp] theorem State.setResult_acc (v : Nat) : (s.setResult v).acc = s.acc := rfl
@[simp] theorem State.setResult_work (v : Nat) : (s.setResult v).work = s.work := rfl
@[simp] theorem State.setResult_mlen (v : Nat) : (s.setResult v).mlen = s.mlen := rfl
@[simp] theorem State.setResult_mpos (v : Nat) : (s.setResult v).mpos = s.mpos := rfl
@[simp] theorem State.setResult_argP0 (v : Nat) : (s.setResult v).argP0 = s.argP0 := rfl
@[simp] theorem State.setResult_phase (v : Nat) : (s.setResult v).phase = s.phase := rfl
@[simp] theorem State.setResult_op (v : Nat) : (s.setResult v).op = s.op := rfl
@[simp] theorem State.setResult_status (v : Nat) : (s.setResult v).status = s.status := rfl
@[simp] theorem State.setResult_info (v : Nat) : (s.setResult v).info = s.info := rfl
@[simp] theorem State.setResult_result (v : Nat) : (s.setResult v).result = v := rfl
@[simp] theorem State.setResult_host (v : Nat) : (s.setResult v).host = s.host := rfl
@[simp] theorem State.setResult_free (v : Nat) : (s.setResult v).free = s.free := rfl

@[simp] theorem State.setHost_params (v : List (Option HostMove)) : (s.setHost v).params = s.params := rfl
@[simp] theorem State.setHost_inp (v : List (Option HostMove)) : (s.setHost v).inp = s.inp := rfl
@[simp] theorem State.setHost_out (v : List (Option HostMove)) : (s.setHost v).out = s.out := rfl
@[simp] theorem State.setHost_acc (v : List (Option HostMove)) : (s.setHost v).acc = s.acc := rfl
@[simp] theorem State.setHost_work (v : List (Option HostMove)) : (s.setHost v).work = s.work := rfl
@[simp] theorem State.setHost_mlen (v : List (Option HostMove)) : (s.setHost v).mlen = s.mlen := rfl
@[simp] theorem State.setHost_mpos (v : List (Option HostMove)) : (s.setHost v).mpos = s.mpos := rfl
@[simp] theorem State.setHost_argP0 (v : List (Option HostMove)) : (s.setHost v).argP0 = s.argP0 := rfl
@[simp] theorem State.setHost_phase (v : List (Option HostMove)) : (s.setHost v).phase = s.phase := rfl
@[simp] theorem State.setHost_op (v : List (Option HostMove)) : (s.setHost v).op = s.op := rfl
@[simp] theorem State.setHost_status (v : List (Option HostMove)) : (s.setHost v).status = s.status := rfl
@[simp] theorem State.setHost_info (v : List (Option HostMove)) : (s.setHost v).info = s.info := rfl
@[simp] theorem State.setHost_result (v : List (Option HostMove)) : (s.setHost v).result = s.result := rfl
@[simp] theorem State.setHost_host (v : List (Option HostMove)) : (s.setHost v).host = v := rfl
@[simp] theorem State.setHost_free (v : List (Option HostMove)) : (s.setHost v).free = s.free := rfl

@[simp] theorem State.drawFree_params (n : Nat) : (s.drawFree n).params = s.params := rfl
@[simp] theorem State.drawFree_inp (n : Nat) : (s.drawFree n).inp = s.inp := rfl
@[simp] theorem State.drawFree_out (n : Nat) : (s.drawFree n).out = s.out := rfl
@[simp] theorem State.drawFree_acc (n : Nat) : (s.drawFree n).acc = s.acc := rfl
@[simp] theorem State.drawFree_work (n : Nat) : (s.drawFree n).work = s.work := rfl
@[simp] theorem State.drawFree_mlen (n : Nat) : (s.drawFree n).mlen = s.mlen := rfl
@[simp] theorem State.drawFree_mpos (n : Nat) : (s.drawFree n).mpos = s.mpos := rfl
@[simp] theorem State.drawFree_argP0 (n : Nat) : (s.drawFree n).argP0 = s.argP0 := rfl
@[simp] theorem State.drawFree_phase (n : Nat) : (s.drawFree n).phase = s.phase := rfl
@[simp] theorem State.drawFree_op (n : Nat) : (s.drawFree n).op = s.op := rfl
@[simp] theorem State.drawFree_status (n : Nat) : (s.drawFree n).status = s.status := rfl
@[simp] theorem State.drawFree_info (n : Nat) : (s.drawFree n).info = s.info := rfl
@[simp] theorem State.drawFree_result (n : Nat) : (s.drawFree n).result = s.result := rfl
@[simp] theorem State.drawFree_host (n : Nat) : (s.drawFree n).host = s.host := rfl
@[simp] theorem State.drawFree_free (n : Nat) : (s.drawFree n).free = s.free + n := rfl

end Sys2Proof.Machine
end

