-- ==== Sys2Proof/Laws/Memory.lean ====
section
/-! SUPPORT. The laws of memory: what a write does to a read, and that every memory operation keeps the canonical form,
so that equal memories are equal data. -/

namespace Sys2Proof.Machine

/-! ## The canonical form -/

@[simp] theorem Memory.wfFrom_nil (lo : Nat) : Memory.wfFrom lo [] = true := rfl

@[simp] theorem Memory.wfFrom_cons (lo a : Nat) (b : Byte) (m : Memory) :
    Memory.wfFrom lo ((a, b) :: m) = true ↔ lo ≤ a ∧ b ≠ Memory.unlisted ∧ Memory.wfFrom (a + 1) m = true := by
  simp [Memory.wfFrom, and_assoc]

theorem Memory.wfFrom_mono {lo hi : Nat} (h : lo ≤ hi) : ∀ {m : Memory}, Memory.wfFrom hi m = true →
    Memory.wfFrom lo m = true
  | [], _ => rfl
  | (a, b) :: m, hm => by
    rw [Memory.wfFrom_cons] at hm ⊢
    exact ⟨by omega, hm.2⟩

/-- Below the canonical form's first address nothing is listed. -/
theorem Memory.read_of_lt {lo a : Nat} (h : a < lo) : ∀ {m : Memory}, Memory.wfFrom lo m = true →
    m.read a = Memory.unlisted
  | [], _ => rfl
  | (k, v) :: m, hm => by
    rw [Memory.wfFrom_cons] at hm
    have hk : k ≠ a := by omega
    simpa [Memory.read, hk] using Memory.read_of_lt (by omega) hm.2.2

/-! ## Reads after writes -/

@[simp] theorem Memory.read_nil (a : Nat) : Memory.read [] a = Memory.unlisted := rfl

theorem Memory.read_write_other {a x : Nat} (h : x ≠ a) (b : Byte) : ∀ m : Memory, (m.write a b).read x = m.read x
  | [] => by
    by_cases hb : b = Memory.unlisted <;> simp [Memory.write, Memory.read, hb, Ne.symm h]
  | (k, v) :: m => by
    have ih := Memory.read_write_other h b m
    have h' : a ≠ x := Ne.symm h
    unfold Memory.write
    split_ifs with h1 h2 h3 h4
    · rfl
    · simp [Memory.read, h']
    · subst h3; simp [Memory.read, h']
    · subst h3; simp [Memory.read, h']
    · simp [Memory.read, ih]

theorem Memory.read_write_same_from (a : Nat) (b : Byte) : ∀ {lo : Nat} {m : Memory}, Memory.wfFrom lo m = true →
    (m.write a b).read a = b
  | _, [], _ => by
    by_cases hb : b = Memory.unlisted <;> simp [Memory.write, Memory.read, hb]
  | lo, (k, v) :: m, hm => by
    rw [Memory.wfFrom_cons] at hm
    unfold Memory.write
    split_ifs with h1 h2 h3 h4
    · have hk : k ≠ a := by omega
      simp [Memory.read, hk, h2, Memory.read_of_lt (by omega : a < k + 1) hm.2.2]
    · simp [Memory.read]
    · subst h3; rw [h4]; exact Memory.read_of_lt (Nat.lt_succ_self _) hm.2.2
    · simp [Memory.read]
    · have hk : k ≠ a := fun e => h3 e.symm
      simpa [Memory.read, hk] using Memory.read_write_same_from a b hm.2.2

theorem Memory.read_write_same {m : Memory} (hm : m.wf = true) (a : Nat) (b : Byte) : (m.write a b).read a = b :=
  Memory.read_write_same_from a b hm

/-! ## Every operation keeps the canonical form -/

theorem Memory.write_wfFrom (a : Nat) (b : Byte) : ∀ {lo : Nat} {m : Memory}, lo ≤ a → Memory.wfFrom lo m = true →
    Memory.wfFrom lo (m.write a b) = true
  | _, [], h, _ => by
    by_cases hb : b = Memory.unlisted <;> simp [Memory.write, hb, h]
  | lo, (k, v) :: m, h, hm => by
    have hm' := hm
    rw [Memory.wfFrom_cons] at hm
    unfold Memory.write
    split_ifs with h1 h2 h3 h4
    · exact hm'
    · rw [Memory.wfFrom_cons, Memory.wfFrom_cons]
      exact ⟨h, h2, h1, hm.2⟩
    · exact Memory.wfFrom_mono (by omega) hm.2.2
    · rw [Memory.wfFrom_cons]
      exact ⟨h, h4, h3 ▸ hm.2.2⟩
    · rw [Memory.wfFrom_cons]
      exact ⟨hm.1, hm.2.1, Memory.write_wfFrom a b (by omega) hm.2.2⟩

theorem Memory.write_wf {m : Memory} (hm : m.wf = true) (a : Nat) (b : Byte) : (m.write a b).wf = true :=
  Memory.write_wfFrom a b (Nat.zero_le a) hm

theorem Memory.writeList_wf : ∀ (bs : List Byte) {m : Memory} (a : Nat), m.wf = true → (m.writeList a bs).wf = true
  | [], _, _, hm => hm
  | b :: bs, _, a, hm => Memory.writeList_wf bs (a + 1) (Memory.write_wf hm a b)

theorem Memory.read_writeList_lt {x : Nat} : ∀ (bs : List Byte) (m : Memory) {a : Nat}, x < a →
    (m.writeList a bs).read x = m.read x
  | [], _, _, _ => rfl
  | b :: bs, m, a, h => by
    rw [Memory.writeList, Memory.read_writeList_lt bs _ (by omega), Memory.read_write_other (by omega)]

/-- After `writeList`, position `a + j` holds the `j`-th byte written. -/
theorem Memory.read_writeList : ∀ (bs : List Byte) {m : Memory} (a : Nat), m.wf = true → ∀ j (h : j < bs.length),
    (m.writeList a bs).read (a + j) = bs[j]
  | b :: bs, m, a, hm, 0, _ => by
    show ((m.write a b).writeList (a + 1) bs).read a = b
    rw [Memory.read_writeList_lt bs _ (Nat.lt_succ_self a), Memory.read_write_same hm]
  | b :: bs, m, a, hm, j + 1, h => by
    have := Memory.read_writeList bs (a + 1) (Memory.write_wf hm a b) j (by simpa using h)
    rw [Memory.writeList, show a + (j + 1) = a + 1 + j by omega, this]
    rfl

/-- Addresses a write leaves listed: the old ones and the written one. -/
theorem Memory.all_write {p : Host.Cell → Bool} {a : Nat} {b : Byte} (hp : p (a, b) = true) : ∀ {m : Memory},
    m.all p = true → (m.write a b).all p = true
  | [], _ => by by_cases hb : b = Memory.unlisted <;> simp [Memory.write, hb, hp]
  | (k, v) :: m, hm => by
    have hm' := hm
    rw [List.all_cons, Bool.and_eq_true] at hm
    unfold Memory.write
    split_ifs with h1 h2 h3 h4
    · exact hm'
    · rw [List.all_cons, hp, Bool.true_and]; exact hm'
    · exact hm.2
    · rw [List.all_cons, hp, Bool.true_and]; exact hm.2
    · rw [List.all_cons, hm.1, Bool.true_and]; exact Memory.all_write hp hm.2

/-! ## Equal memories are equal data -/

theorem Memory.ext_from : ∀ {lo : Nat} {m n : Memory}, Memory.wfFrom lo m = true → Memory.wfFrom lo n = true →
    (∀ a, m.read a = n.read a) → m = n
  | _, [], [], _, _, _ => rfl
  | _, [], (k, v) :: n, _, hn, h => by
    rw [Memory.wfFrom_cons] at hn
    have := h k
    simp [Memory.read] at this
    exact absurd this.symm hn.2.1
  | _, (k, v) :: m, [], hm, _, h => by
    rw [Memory.wfFrom_cons] at hm
    have := h k
    simp [Memory.read] at this
    exact absurd this hm.2.1
  | lo, (k, v) :: m, (l, w) :: n, hm, hn, h => by
    rw [Memory.wfFrom_cons] at hm hn
    have hkl : k = l := by
      rcases Nat.lt_trichotomy k l with hlt | heq | hgt
      · have := h k
        have hne : l ≠ k := by omega
        simp [Memory.read, hne, Memory.read_of_lt (by omega : k < l + 1) hn.2.2] at this
        exact absurd this hm.2.1
      · exact heq
      · have := h l
        have hne : k ≠ l := by omega
        simp [Memory.read, hne, Memory.read_of_lt (by omega : l < k + 1) hm.2.2] at this
        exact absurd this.symm hn.2.1
    subst hkl
    have hv : v = w := by simpa [Memory.read] using h k
    subst hv
    have : m = n := Memory.ext_from hm.2.2 hn.2.2 fun a => by
      by_cases ha : k = a
      · subst ha
        rw [Memory.read_of_lt (Nat.lt_succ_self k) hm.2.2, Memory.read_of_lt (Nat.lt_succ_self k) hn.2.2]
      · simpa [Memory.read, ha] using h a
    rw [this]

/-- Two memories in the canonical form that read alike everywhere are the same list. -/
theorem Memory.ext_of_wf {m n : Memory} (hm : m.wf = true) (hn : n.wf = true) (h : ∀ a, m.read a = n.read a) : m = n :=
  Memory.ext_from hm hn h

end Sys2Proof.Machine
end

