-- ==== Sys2Proof/Laws/Streams.lean ====
section
/-! SUPPORT. The laws of the streams: what `peek`, `append`, `append_bytes`, `read`, `seek` and `reset` do to the live
bytes (R53 to R60). -/

namespace Sys2Proof.Machine

/-! ## Live bytes -/

@[simp] theorem ByteStream.bytes_length (t : ByteStream) : t.bytes.length = t.len := by simp [ByteStream.bytes]

theorem ByteStream.bytes_getElem (t : ByteStream) (j : Nat) (h : j < t.bytes.length) : t.bytes[j] = t.mem.read j := by
  simp [ByteStream.bytes]

theorem ByteStream.bytes_getElem? (t : ByteStream) (j : Nat) :
    t.bytes[j]? = if j < t.len then some (t.mem.read j) else none := by
  by_cases h : j < t.len <;> simp [ByteStream.bytes, h]

theorem ByteStream.bytes_of_len_zero {t : ByteStream} (h : t.len = 0) : t.bytes = [] := by
  simp [ByteStream.bytes, h]

/-- The live bytes depend on the length and on the bytes below it only. -/
theorem ByteStream.bytes_congr {t u : ByteStream} (hl : t.len = u.len) (h : ∀ a < t.len, t.mem.read a = u.mem.read a) :
    t.bytes = u.bytes := by
  unfold ByteStream.bytes
  rw [← hl]
  exact List.map_congr_left fun a ha => h a (by simpa using ha)

theorem ByteStream.peek_of_lt {t : ByteStream} {a : Nat} (h : a < t.len) : t.peek a = some (t.mem.read a) := by
  simp [ByteStream.peek, h]

theorem ByteStream.peek_eq_none {t : ByteStream} {a : Nat} : t.peek a = none ↔ t.len ≤ a := by
  simp [ByteStream.peek]

/-! ## Append -/

@[simp] theorem ByteStream.append_len (t : ByteStream) (b : Byte) : (t.append b).len = t.len + 1 := rfl

theorem ByteStream.append_wf {t : ByteStream} (h : t.mem.wf = true) (b : Byte) : (t.append b).mem.wf = true :=
  Memory.write_wf h _ _

theorem ByteStream.append_read_other {t : ByteStream} {a : Nat} (h : a ≠ t.len) (b : Byte) :
    (t.append b).mem.read a = t.mem.read a := Memory.read_write_other h b t.mem

theorem ByteStream.append_read_same {t : ByteStream} (h : t.mem.wf = true) (b : Byte) :
    (t.append b).mem.read t.len = b := Memory.read_write_same h _ _

theorem ByteStream.append_bytes {t : ByteStream} (h : t.mem.wf = true) (b : Byte) :
    (t.append b).bytes = t.bytes ++ [b] := by
  unfold ByteStream.bytes
  rw [append_len, List.range_succ, List.map_append, List.map_singleton, append_read_same h]
  congr 1
  exact List.map_congr_left fun a ha => append_read_other (by have := List.mem_range.1 ha; omega) b

@[simp] theorem ByteStream.appendBytes_nil (t : ByteStream) : t.appendBytes [] = t := rfl

@[simp] theorem ByteStream.appendBytes_cons (t : ByteStream) (b : Byte) (bs : List Byte) :
    t.appendBytes (b :: bs) = (t.append b).appendBytes bs := rfl

@[simp] theorem ByteStream.appendBytes_len : ∀ (bs : List Byte) (t : ByteStream),
    (t.appendBytes bs).len = t.len + bs.length
  | [], _ => rfl
  | b :: bs, t => by
    rw [appendBytes_cons, appendBytes_len bs, append_len, List.length_cons]; omega

theorem ByteStream.appendBytes_wf : ∀ (bs : List Byte) {t : ByteStream}, t.mem.wf = true →
    (t.appendBytes bs).mem.wf = true
  | [], _, h => h
  | b :: bs, _, h => appendBytes_wf bs (append_wf h b)

theorem ByteStream.appendBytes_read_other {a : Nat} : ∀ (bs : List Byte) {t : ByteStream},
    ¬(t.len ≤ a ∧ a < t.len + bs.length) → (t.appendBytes bs).mem.read a = t.mem.read a
  | [], _, _ => rfl
  | b :: bs, t, h => by
    rw [List.length_cons] at h
    rw [appendBytes_cons, appendBytes_read_other bs (by rw [append_len]; omega),
      append_read_other (by omega)]

theorem ByteStream.appendBytes_bytes : ∀ (bs : List Byte) {t : ByteStream}, t.mem.wf = true →
    (t.appendBytes bs).bytes = t.bytes ++ bs
  | [], t, _ => by simp
  | b :: bs, t, h => by
    rw [appendBytes_cons, appendBytes_bytes bs (append_wf h b), append_bytes h]; simp

theorem ByteStream.appendBytes_append : ∀ (bs cs : List Byte) (t : ByteStream),
    t.appendBytes (bs ++ cs) = (t.appendBytes bs).appendBytes cs
  | [], _, _ => rfl
  | b :: bs, cs, t => appendBytes_append bs cs (t.append b)

/-- Appending one byte more at the end. -/
theorem ByteStream.appendBytes_snoc (bs : List Byte) (b : Byte) (t : ByteStream) :
    t.appendBytes (bs ++ [b]) = (t.appendBytes bs).append b := by rw [appendBytes_append]; rfl

/-- The accumulator's storage stays inside its 64 bytes. -/
theorem ByteStream.append_all {p : Host.Cell → Bool} {t : ByteStream} {b : Byte} (hp : p (t.len, b) = true)
    (h : t.mem.all p = true) : (t.append b).mem.all p = true := Memory.all_write hp h

/-! ## Reset -/

@[simp] theorem ByteStream.reset_len (t : ByteStream) : t.reset.len = 0 := rfl
@[simp] theorem ByteStream.reset_mem (t : ByteStream) : t.reset.mem = t.mem := rfl
@[simp] theorem ByteStream.reset_bytes (t : ByteStream) : t.reset.bytes = [] := rfl
@[simp] theorem ByteStream.length_eq (t : ByteStream) : t.length = t.len := rfl

/-! ## The input cursor -/

theorem InputStream.read_of_lt {t : InputStream} (h : t.pos < t.len) :
    t.read = some (t.mem.read t.pos, { t with pos := t.pos + 1 }) := by simp [InputStream.read, h]

theorem InputStream.read_of_ge {t : InputStream} (h : t.len ≤ t.pos) : t.read = none := by
  simp [InputStream.read]; omega

/-- What a read can do: one byte forward inside the stream, or nothing at its end. -/
theorem InputStream.read_cases (t : InputStream) :
    (t.pos < t.len ∧ t.read = some (t.mem.read t.pos, { t with pos := t.pos + 1 })) ∨
    (t.len ≤ t.pos ∧ t.read = none) := by
  by_cases h : t.pos < t.len
  · exact .inl ⟨h, InputStream.read_of_lt h⟩
  · exact .inr ⟨by omega, InputStream.read_of_ge (by omega)⟩

theorem InputStream.seek_of_le {t : InputStream} {n : Nat} (h : t.pos + n ≤ t.len) :
    t.seek n = some { t with pos := t.pos + n } := by simp [InputStream.seek, h]

theorem InputStream.seek_of_gt {t : InputStream} {n : Nat} (h : t.len < t.pos + n) : t.seek n = none := by
  simp [InputStream.seek]; omega

end Sys2Proof.Machine
end

