-- ==== Sys2Proof/Laws/Flow.lean ====
section
/-! SUPPORT. Sequencing, and what each shared operation of Ops.lean can do, said once: the fields it writes and the
fields it leaves. -/

namespace Sys2Proof.Machine

/-! ## Sequencing -/

@[simp] theorem Flow.andThen_go (s : State) (f : State → Flow) : (Flow.go s).andThen f = f s := rfl
@[simp] theorem Flow.andThen_raised (s : State) (f : State → Flow) : (Flow.raised s).andThen f = .raised s := rfl
@[simp] theorem Flow.andThen_fault (e : Fault) (f : State → Flow) : (Flow.fault e).andThen f = .fault e := rfl
@[simp] theorem Flow.andThen_go_right (x : Flow) : (x.andThen fun s => .go s) = x := by cases x <;> rfl
@[simp] theorem Flow.outcome_go (s : State) : (Flow.go s).outcome = .next s := rfl
@[simp] theorem Flow.outcome_raised (s : State) : (Flow.raised s).outcome = .next s := rfl
@[simp] theorem Flow.outcome_fault (e : Fault) : (Flow.fault e).outcome = .fault e := rfl

/-- A statement ends well when going on meets `G` and taking an exception meets `R`; an access outside the contract is
not spoken of. -/
def Flow.Post (x : Flow) (G R : State → Prop) : Prop :=
  match x with
  | .go s => G s
  | .raised s => R s
  | .fault _ => True

@[simp] theorem Flow.post_go {s : State} {G R : State → Prop} : (Flow.go s).Post G R ↔ G s := Iff.rfl
@[simp] theorem Flow.post_raised {s : State} {G R : State → Prop} : (Flow.raised s).Post G R ↔ R s := Iff.rfl
@[simp] theorem Flow.post_fault {e : Fault} {G R : State → Prop} : (Flow.fault e).Post G R := trivial

theorem Flow.Post.imp {x : Flow} {G R G' R' : State → Prop} (h : x.Post G R) (hg : ∀ s, G s → G' s)
    (hr : ∀ s, R s → R' s) : x.Post G' R' := by
  cases x with
  | go s => exact hg s h
  | raised s => exact hr s h
  | fault e => trivial

/-- One statement after another. -/
theorem Flow.Post.andThen {x : Flow} {f : State → Flow} {G R G' : State → Prop} (h : x.Post G R)
    (hf : ∀ s, G s → (f s).Post G' R) : (x.andThen f).Post G' R := by
  cases x with
  | go s => exact hf s h
  | raised s => exact h
  | fault e => trivial

/-- A meaning that ends well ends well as an outcome. -/
theorem Flow.Post.outcome {x : Flow} {P : State → Prop} {t : State} (h : x.Post P P) (ht : x.outcome = .next t) : P t := by
  cases x with
  | go s => rw [← (Host.Outcome.next.inj ht)]; exact h
  | raised s => rw [← (Host.Outcome.next.inj ht)]; exact h
  | fault e => cases ht

theorem Flow.andThen_assoc (x : Flow) (f g : State → Flow) :
    (x.andThen f).andThen g = x.andThen fun s => (f s).andThen g := by cases x <;> rfl

/-! ## Setters compose -/

@[simp] theorem State.setOut_setOut (s : State) (u v : ByteStream) : (s.setOut u).setOut v = s.setOut v := rfl
@[simp] theorem State.setInp_setInp (s : State) (u v : InputStream) : (s.setInp u).setInp v = s.setInp v := rfl
@[simp] theorem State.setWork_setWork (s : State) (u v : Work) : (s.setWork u).setWork v = s.setWork v := rfl
@[simp] theorem State.setAcc_setAcc (s : State) (u v : ByteStream) : (s.setAcc u).setAcc v = s.setAcc v := rfl
@[simp] theorem State.setOut_self (s : State) : s.setOut s.out = s := rfl
@[simp] theorem State.setInp_self (s : State) : s.setInp s.inp = s := rfl
@[simp] theorem State.setWork_self (s : State) : s.setWork s.work = s := rfl
@[simp] theorem State.setAcc_self (s : State) : s.setAcc s.acc = s := rfl
@[simp] theorem State.setHost_self (s : State) : s.setHost s.host = s := rfl

/-! ## Releasing the working registers -/

@[simp] theorem State.releaseWork_params (s : State) : (s.releaseWork).params = s.params := rfl
@[simp] theorem State.releaseWork_inp (s : State) : (s.releaseWork).inp = s.inp := rfl
@[simp] theorem State.releaseWork_out (s : State) : (s.releaseWork).out = s.out := rfl
@[simp] theorem State.releaseWork_acc (s : State) : (s.releaseWork).acc = s.acc := rfl
@[simp] theorem State.releaseWork_mlen (s : State) : (s.releaseWork).mlen = s.mlen := rfl
@[simp] theorem State.releaseWork_mpos (s : State) : (s.releaseWork).mpos = s.mpos := rfl
@[simp] theorem State.releaseWork_argP0 (s : State) : (s.releaseWork).argP0 = s.argP0 := rfl
@[simp] theorem State.releaseWork_phase (s : State) : (s.releaseWork).phase = s.phase := rfl
@[simp] theorem State.releaseWork_op (s : State) : (s.releaseWork).op = s.op := rfl
@[simp] theorem State.releaseWork_status (s : State) : (s.releaseWork).status = s.status := rfl
@[simp] theorem State.releaseWork_info (s : State) : (s.releaseWork).info = s.info := rfl
@[simp] theorem State.releaseWork_result (s : State) : (s.releaseWork).result = s.result := rfl
@[simp] theorem State.releaseWork_host (s : State) : (s.releaseWork).host = s.host := rfl

@[simp] theorem State.releaseWork_p0 (s : State) : s.releaseWork.work.p0 = s.work.p0 := rfl

/-! ## The normal end of an operation -/

@[simp] theorem State.finish_params (s : State) (r : Nat) : (s.finish r).params = s.params := rfl
@[simp] theorem State.finish_inp (s : State) (r : Nat) : (s.finish r).inp = s.inp := rfl
@[simp] theorem State.finish_out (s : State) (r : Nat) : (s.finish r).out = s.out := rfl
@[simp] theorem State.finish_acc (s : State) (r : Nat) : (s.finish r).acc = s.acc := rfl
@[simp] theorem State.finish_mlen (s : State) (r : Nat) : (s.finish r).mlen = s.mlen := rfl
@[simp] theorem State.finish_mpos (s : State) (r : Nat) : (s.finish r).mpos = s.mpos := rfl
@[simp] theorem State.finish_argP0 (s : State) (r : Nat) : (s.finish r).argP0 = s.argP0 := rfl
@[simp] theorem State.finish_phase (s : State) (r : Nat) : (s.finish r).phase = .done := rfl
@[simp] theorem State.finish_op (s : State) (r : Nat) : (s.finish r).op = s.op := rfl
@[simp] theorem State.finish_status (s : State) (r : Nat) : (s.finish r).status = s.status := rfl
@[simp] theorem State.finish_info (s : State) (r : Nat) : (s.finish r).info = s.info := rfl
@[simp] theorem State.finish_result (s : State) (r : Nat) : (s.finish r).result = r := rfl
@[simp] theorem State.finish_host (s : State) (r : Nat) : (s.finish r).host = s.host := rfl

@[simp] theorem State.finish_p0 (s : State) (r : Nat) : (s.finish r).work.p0 = s.work.p0 := rfl

/-! ## Taking an exception -/

@[simp] theorem State.raise_params (s : State) (x : Status) (n : Nat) : (s.raise x n).params = s.params := rfl
@[simp] theorem State.raise_inp (s : State) (x : Status) (n : Nat) : (s.raise x n).inp = s.inp := rfl
@[simp] theorem State.raise_out (s : State) (x : Status) (n : Nat) : (s.raise x n).out = s.out := rfl
@[simp] theorem State.raise_acc (s : State) (x : Status) (n : Nat) : (s.raise x n).acc = s.acc.reset := rfl
@[simp] theorem State.raise_mlen (s : State) (x : Status) (n : Nat) : (s.raise x n).mlen = s.mlen := rfl
@[simp] theorem State.raise_mpos (s : State) (x : Status) (n : Nat) : (s.raise x n).mpos = s.mpos := rfl
@[simp] theorem State.raise_argP0 (s : State) (x : Status) (n : Nat) : (s.raise x n).argP0 = s.argP0 := rfl
@[simp] theorem State.raise_phase (s : State) (x : Status) (n : Nat) : (s.raise x n).phase = .fault := rfl
@[simp] theorem State.raise_op (s : State) (x : Status) (n : Nat) : (s.raise x n).op = s.op := rfl
@[simp] theorem State.raise_status (s : State) (x : Status) (n : Nat) : (s.raise x n).status = x := rfl
@[simp] theorem State.raise_info (s : State) (x : Status) (n : Nat) : (s.raise x n).info = n := rfl
@[simp] theorem State.raise_result (s : State) (x : Status) (n : Nat) : (s.raise x n).result = 0 := rfl
@[simp] theorem State.raise_host (s : State) (x : Status) (n : Nat) : (s.raise x n).host = s.host := rfl

@[simp] theorem State.raise_p0 (s : State) (x : Status) (n : Nat) : (s.raise x n).work.p0 = s.work.p0 := rfl

/-! ## Reset of the block -/

@[simp] theorem State.resetBlock_params (s : State) : (s.resetBlock).params = s.params := by simp [State.resetBlock]
@[simp] theorem State.resetBlock_inp (s : State) : (s.resetBlock).inp = s.inp := by simp [State.resetBlock]
@[simp] theorem State.resetBlock_out (s : State) : (s.resetBlock).out = s.out := by simp [State.resetBlock]
@[simp] theorem State.resetBlock_mlen (s : State) : (s.resetBlock).mlen = 0 := by simp [State.resetBlock]
@[simp] theorem State.resetBlock_mpos (s : State) : (s.resetBlock).mpos = 0 := by simp [State.resetBlock]
@[simp] theorem State.resetBlock_argP0 (s : State) : (s.resetBlock).argP0 = 0 := by simp [State.resetBlock]
@[simp] theorem State.resetBlock_phase (s : State) : (s.resetBlock).phase = .idle := by simp [State.resetBlock]
@[simp] theorem State.resetBlock_op (s : State) : (s.resetBlock).op = .none := by simp [State.resetBlock]
@[simp] theorem State.resetBlock_status (s : State) : (s.resetBlock).status = .ok := by simp [State.resetBlock]
@[simp] theorem State.resetBlock_info (s : State) : (s.resetBlock).info = 0 := by simp [State.resetBlock]
@[simp] theorem State.resetBlock_result (s : State) : (s.resetBlock).result = 0 := by simp [State.resetBlock]
@[simp] theorem State.resetBlock_host (s : State) : (s.resetBlock).host = s.host := by simp [State.resetBlock]

@[simp] theorem State.resetBlock_acc_len (s : State) : s.resetBlock.acc.len = 0 := by simp [State.resetBlock]

/-! ## Accepting a command -/

@[simp] theorem State.start_find_params (s : State) : (s.start .find).params = s.params := by simp [State.start]
@[simp] theorem State.start_find_inp (s : State) : (s.start .find).inp = s.inp := by simp [State.start]
@[simp] theorem State.start_find_out (s : State) : (s.start .find).out = s.out := by simp [State.start]
@[simp] theorem State.start_find_acc (s : State) : (s.start .find).acc = s.acc := by simp [State.start]
@[simp] theorem State.start_find_mlen (s : State) : (s.start .find).mlen = s.mlen := by simp [State.start]
@[simp] theorem State.start_find_mpos (s : State) : (s.start .find).mpos = s.mpos := by simp [State.start]
@[simp] theorem State.start_find_argP0 (s : State) : (s.start .find).argP0 = s.argP0 := by simp [State.start]
@[simp] theorem State.start_find_phase (s : State) : (s.start .find).phase = .busy := by simp [State.start]
@[simp] theorem State.start_find_op (s : State) : (s.start .find).op = .find := by simp [State.start]
@[simp] theorem State.start_find_status (s : State) : (s.start .find).status = .ok := by simp [State.start]
@[simp] theorem State.start_find_info (s : State) : (s.start .find).info = 0 := by simp [State.start]
@[simp] theorem State.start_find_result (s : State) : (s.start .find).result = 0 := by simp [State.start]
@[simp] theorem State.start_find_host (s : State) : (s.start .find).host = s.host := by simp [State.start]
@[simp] theorem State.start_find_work (s : State) : (s.start .find).work = { s.work with l := s.inp.len, p0 := s.argP0 } := by simp [State.start]

@[simp] theorem State.start_pack_params (s : State) : (s.start .pack).params = s.params := by simp [State.start]
@[simp] theorem State.start_pack_inp (s : State) : (s.start .pack).inp = s.inp := by simp [State.start]
@[simp] theorem State.start_pack_out (s : State) : (s.start .pack).out = s.out := by simp [State.start]
@[simp] theorem State.start_pack_acc (s : State) : (s.start .pack).acc = s.acc.reset := by simp [State.start]
@[simp] theorem State.start_pack_mlen (s : State) : (s.start .pack).mlen = s.mlen := by simp [State.start]
@[simp] theorem State.start_pack_mpos (s : State) : (s.start .pack).mpos = s.mpos := by simp [State.start]
@[simp] theorem State.start_pack_argP0 (s : State) : (s.start .pack).argP0 = s.argP0 := by simp [State.start]
@[simp] theorem State.start_pack_phase (s : State) : (s.start .pack).phase = .busy := by simp [State.start]
@[simp] theorem State.start_pack_op (s : State) : (s.start .pack).op = .pack := by simp [State.start]
@[simp] theorem State.start_pack_status (s : State) : (s.start .pack).status = .ok := by simp [State.start]
@[simp] theorem State.start_pack_info (s : State) : (s.start .pack).info = 0 := by simp [State.start]
@[simp] theorem State.start_pack_result (s : State) : (s.start .pack).result = 0 := by simp [State.start]
@[simp] theorem State.start_pack_host (s : State) : (s.start .pack).host = s.host := by simp [State.start]
@[simp] theorem State.start_pack_work (s : State) : (s.start .pack).work = { s.work with l := s.inp.len, out0 := s.out.len } := by simp [State.start]

@[simp] theorem State.start_unpack_params (s : State) : (s.start .unpack).params = s.params := by simp [State.start]
@[simp] theorem State.start_unpack_inp (s : State) : (s.start .unpack).inp = s.inp := by simp [State.start]
@[simp] theorem State.start_unpack_out (s : State) : (s.start .unpack).out = s.out := by simp [State.start]
@[simp] theorem State.start_unpack_acc (s : State) : (s.start .unpack).acc = s.acc := by simp [State.start]
@[simp] theorem State.start_unpack_mlen (s : State) : (s.start .unpack).mlen = s.mlen := by simp [State.start]
@[simp] theorem State.start_unpack_mpos (s : State) : (s.start .unpack).mpos = s.mpos := by simp [State.start]
@[simp] theorem State.start_unpack_argP0 (s : State) : (s.start .unpack).argP0 = s.argP0 := by simp [State.start]
@[simp] theorem State.start_unpack_phase (s : State) : (s.start .unpack).phase = .busy := by simp [State.start]
@[simp] theorem State.start_unpack_op (s : State) : (s.start .unpack).op = .unpack := by simp [State.start]
@[simp] theorem State.start_unpack_status (s : State) : (s.start .unpack).status = .ok := by simp [State.start]
@[simp] theorem State.start_unpack_info (s : State) : (s.start .unpack).info = 0 := by simp [State.start]
@[simp] theorem State.start_unpack_result (s : State) : (s.start .unpack).result = 0 := by simp [State.start]
@[simp] theorem State.start_unpack_host (s : State) : (s.start .unpack).host = s.host := by simp [State.start]
@[simp] theorem State.start_unpack_work (s : State) : (s.start .unpack).work = { s.work with l := s.inp.len } := by simp [State.start]
/-! ## What the working registers hold when they are unspecified: values of their widths -/

theorem State.freePosition_le (s : State) (n : Nat) : s.freePosition n ≤ s.params.maxLen :=
  Nat.lt_succ_iff.1 (Nat.mod_lt _ (Nat.succ_pos _))

theorem State.freeCount_lt (s : State) (n : Nat) : s.freeCount n < 256 := (Config.freeByte (s.free + n)).isLt

theorem State.freeOffset_range (n : Nat) :
    -256 ≤ (Config.freeOffset n).toInt ∧ (Config.freeOffset n).toInt < 256 := by
  have h1 := BitVec.le_toInt (Config.freeOffset n)
  have h2 := BitVec.toInt_lt (x := Config.freeOffset n)
  norm_num at h1 h2
  exact ⟨h1, h2⟩

/-! ## Stream operations on the state -/

/-- `append(OUT, ·)` writes one byte at the end, or raises CapacityFault and writes nothing (R55, R216). -/
theorem State.appendOut_cases (s : State) (b : Byte) :
    (s.out.len < s.params.outLimit ∧ s.appendOut b = .go (s.setOut (s.out.append b))) ∨
    (s.params.outLimit ≤ s.out.len ∧ s.appendOut b = .raised (s.raise .capacity s.out.len)) := by
  by_cases h : s.out.len < s.params.outLimit
  · exact .inl ⟨h, by simp [State.appendOut, h]⟩
  · exact .inr ⟨by omega, by simp [State.appendOut, h]⟩

theorem State.appendOut_of_lt {s : State} (h : s.out.len < s.params.outLimit) (b : Byte) :
    s.appendOut b = .go (s.setOut (s.out.append b)) := by simp [State.appendOut, h]

theorem State.appendOut_of_ge {s : State} (h : s.params.outLimit ≤ s.out.len) (b : Byte) :
    s.appendOut b = .raised (s.raise .capacity s.out.len) := by simp [State.appendOut]; omega

/-- `append_bytes(OUT, ·)` writes all the bytes where they fit. -/
theorem State.appendOutBytes_of_fits : ∀ (bs : List Byte) {s : State}, s.out.len + bs.length ≤ s.params.outLimit →
    s.appendOutBytes bs = .go (s.setOut (s.out.appendBytes bs))
  | [], _, _ => rfl
  | b :: bs, s, h => by
    rw [List.length_cons] at h
    rw [State.appendOutBytes, State.appendOut_of_lt (by omega), Flow.andThen_go,
      State.appendOutBytes_of_fits bs (by simp; omega)]
    simp

/-- Where they do not fit it writes the bytes that do, and raises CapacityFault at the limit. -/
theorem State.appendOutBytes_of_full : ∀ (bs : List Byte) {s : State}, s.out.len ≤ s.params.outLimit →
    s.params.outLimit < s.out.len + bs.length → s.appendOutBytes bs =
      .raised ((s.setOut (s.out.appendBytes (bs.take (s.params.outLimit - s.out.len)))).raise .capacity
        s.params.outLimit)
  | [], _, h, h' => by simp at h'; omega
  | b :: bs, s, h, h' => by
    rw [List.length_cons] at h'
    rcases s.appendOut_cases b with ⟨hl, he⟩ | ⟨hl, he⟩
    · obtain ⟨n, hn⟩ : ∃ n, s.params.outLimit - s.out.len = n + 1 := ⟨s.params.outLimit - s.out.len - 1, by omega⟩
      rw [State.appendOutBytes, he, Flow.andThen_go, State.appendOutBytes_of_full bs (by simp; omega) (by simp; omega),
        hn, List.take_succ_cons]
      simp [show s.params.outLimit - (s.out.len + 1) = n by omega]
    · have : s.params.outLimit = s.out.len := by omega
      rw [State.appendOutBytes, he, this]
      simp

theorem State.readIn_of_lt {s : State} (h : s.inp.pos < s.inp.len) (f : Byte → State → Flow) :
    s.readIn f = f (s.inp.mem.read s.inp.pos) (s.setInp { s.inp with pos := s.inp.pos + 1 }) := by
  simp [State.readIn, InputStream.read_of_lt h]

theorem State.readIn_of_ge {s : State} (h : s.inp.len ≤ s.inp.pos) (f : Byte → State → Flow) :
    s.readIn f = .fault (.invalidRead .inp s.inp.pos) := by
  simp [State.readIn, InputStream.read_of_ge h]

/-- A statement that reads IN ends well when it does after the cursor moved one byte inside IN. -/
theorem State.readIn_post {s : State} {f : Byte → State → Flow} {G R : State → Prop}
    (h : s.inp.pos < s.inp.len → (f (s.inp.mem.read s.inp.pos) (s.setInp { s.inp with pos := s.inp.pos + 1 })).Post G R) :
    (s.readIn f).Post G R := by
  by_cases hp : s.inp.pos < s.inp.len
  · rw [State.readIn_of_lt hp]; exact h hp
  · rw [State.readIn_of_ge (by omega)]; trivial

/-- The predicate `P` about a state survives `append(OUT, ·)` when it survives writing the byte and the exception. -/
theorem State.appendOut_post {s : State} {b : Byte} {G R : State → Prop} (hg : G (s.setOut (s.out.append b)))
    (hr : R (s.raise .capacity s.out.len)) : (s.appendOut b).Post G R := by
  rcases s.appendOut_cases b with ⟨_, he⟩ | ⟨_, he⟩ <;> rw [he] <;> assumption

theorem State.appendAcc_of_lt {s : State} (h : s.acc.len < 64) (b : Byte) :
    s.appendAcc b = .go (s.setAcc (s.acc.append b)) := by simp [State.appendAcc, h]

theorem State.peekOut_of_lt {s : State} {a : Nat} (h : a < s.out.len) : s.peekOut a = .ok (s.out.mem.read a) := by
  simp [State.peekOut, ByteStream.peek_of_lt h]

/-- A command is accepted, runs on, or is dropped (R191). -/
theorem State.command_cases (s : State) (c : Cmd) (run : State → Flow) :
    (s.phase ≠ .busy ∧ s.command c run = .next (s.start c)) ∨
    (s.phase = .busy ∧ s.op = c ∧ s.command c run = (run s).outcome) ∨
    (s.phase = .busy ∧ s.op ≠ c ∧ s.command c run = .next s) := by
  by_cases h : s.phase = .busy
  · by_cases h' : s.op = c
    · exact .inr (.inl ⟨h, h', by simp [State.command, h, h']⟩)
    · exact .inr (.inr ⟨h, h', by simp [State.command, h, h']⟩)
  · exact .inl ⟨h, by simp [State.command, h]⟩

end Sys2Proof.Machine
end

