-- ==== Sys2Proof/Laws/Decoder.lean ====
section
/-! SUPPORT. What the decoder's statements do, said once each in closed form: consuming a token's bytes, the literal copy
and the match copy, where OUT has room and where it fills. -/

namespace Sys2Proof.Machine

/-! ## Consuming a token's bytes -/

theorem fetchControl_of_lt {s : State} (h : s.inp.pos < s.inp.len) (c : Byte) : fetchControl c s =
    .go ((s.setInp { s.inp with pos := s.inp.pos + 1 }).setWork { s.work with c := c }) := by
  rw [fetchControl, State.readIn_of_lt h]; rfl

theorem fetchOffset_of_lt {s : State} (h : s.inp.pos < s.inp.len) (o : Byte) : fetchOffset o s =
    .go ((s.setInp { s.inp with pos := s.inp.pos + 1 }).setWork { s.work with o := o, off := negoff o }) := by
  rw [fetchOffset, State.readIn_of_lt h]; rfl

/-! ## The literal copy (R166) -/

theorem copyLiterals_of_fits : ∀ (bs : List Byte) {s : State}, s.inp.pos + bs.length ≤ s.inp.len →
    s.out.len + bs.length ≤ s.params.outLimit → copyLiterals bs s =
      .go (((s.setOut (s.out.appendBytes bs)).setInp { s.inp with pos := s.inp.pos + bs.length }).setWork
        { s.work with i := s.work.i + bs.length })
  | [], _, _, _ => rfl
  | b :: bs, s, hi, ho => by
    rw [List.length_cons] at hi ho
    rw [copyLiterals, State.readIn_of_lt (by omega), State.appendOut_of_lt (by simp; omega), Flow.andThen_go,
      copyLiterals_of_fits bs (by simp; omega) (by simp; omega)]
    simp only [State.setOut, State.setInp, State.setWork, ByteStream.appendBytes_cons, List.length_cons,
      Nat.add_assoc, Nat.add_comm 1]

theorem copyLiterals_of_full : ∀ (bs : List Byte) {s : State}, s.inp.pos + bs.length ≤ s.inp.len →
    s.out.len ≤ s.params.outLimit → s.params.outLimit < s.out.len + bs.length → copyLiterals bs s =
      .raised ((((s.setOut (s.out.appendBytes (bs.take (s.params.outLimit - s.out.len)))).setInp
        { s.inp with pos := s.inp.pos + (s.params.outLimit - s.out.len) + 1 }).setWork
        { s.work with i := s.work.i + (s.params.outLimit - s.out.len) }).raise .capacity s.params.outLimit)
  | [], _, _, h, h' => by simp at h'; omega
  | b :: bs, s, hi, h, h' => by
    rw [List.length_cons] at hi h'
    rw [copyLiterals, State.readIn_of_lt (by omega)]
    by_cases hl : s.out.len < s.params.outLimit
    · obtain ⟨n, hn⟩ : ∃ n, s.params.outLimit = s.out.len + (n + 1) := ⟨s.params.outLimit - s.out.len - 1, by omega⟩
      rw [State.appendOut_of_lt (by simpa using hl), Flow.andThen_go,
        copyLiterals_of_full bs (by simp; omega) (by simp; omega) (by simp; omega)]
      simp only [State.setOut_params, State.setInp_params, State.setWork_params, State.setOut_out, State.setInp_out,
        State.setWork_out, ByteStream.append_len, hn, show s.out.len + (n + 1) - (s.out.len + 1) = n by omega,
        show s.out.len + (n + 1) - s.out.len = n + 1 by omega, List.take_succ_cons, ByteStream.appendBytes_cons]
      simp only [State.setOut, State.setInp, State.setWork, Nat.add_assoc, Nat.add_comm 1]
    · have he : s.params.outLimit = s.out.len := by omega
      rw [State.appendOut_of_ge (by simp; omega), he]
      simp [State.setOut, State.setInp, State.setWork]

/-! ## The match copy (R168, R171) -/

/-- The bytes the copy loop appends when it starts reading at `a`, one at a time, each read after the one before was
appended. -/
def copiedBytes : ByteStream → Nat → Nat → List Byte
  | _, _, 0 => []
  | t, a, n + 1 => t.mem.read a :: copiedBytes (t.append (t.mem.read a)) (a + 1) n

@[simp] theorem copiedBytes_length : ∀ (n : Nat) (t : ByteStream) (a : Nat), (copiedBytes t a n).length = n
  | 0, _, _ => rfl
  | n + 1, t, a => by rw [copiedBytes, List.length_cons, copiedBytes_length n]

theorem copyMatch_of_fits : ∀ (n : Nat) {s : State}, s.work.base + s.work.i < s.out.len →
    s.out.len + n ≤ s.params.outLimit → copyMatch n s =
      .go ((s.setOut (s.out.appendBytes (copiedBytes s.out (s.work.base + s.work.i) n))).setWork
        { s.work with i := s.work.i + n })
  | 0, _, _, _ => rfl
  | n + 1, s, hb, ho => by
    rw [copyMatch, State.peekOut_of_lt hb]
    simp only
    rw [State.appendOut_of_lt (by omega), Flow.andThen_go, copyMatch_of_fits n (by simp; omega) (by simp; omega)]
    simp only [State.setOut, State.setWork, copiedBytes, ByteStream.appendBytes_cons, Nat.add_assoc, Nat.add_comm 1]

theorem copyMatch_of_full : ∀ (n : Nat) {s : State}, s.work.base + s.work.i < s.out.len →
    s.out.len ≤ s.params.outLimit → s.params.outLimit < s.out.len + n → copyMatch n s =
      .raised (((s.setOut (s.out.appendBytes
        (copiedBytes s.out (s.work.base + s.work.i) (s.params.outLimit - s.out.len)))).setWork
        { s.work with i := s.work.i + (s.params.outLimit - s.out.len) }).raise .capacity s.params.outLimit)
  | 0, _, _, h, h' => by omega
  | n + 1, s, hb, h, h' => by
    rw [copyMatch, State.peekOut_of_lt hb]
    simp only
    by_cases hl : s.out.len < s.params.outLimit
    · obtain ⟨k, hk⟩ : ∃ k, s.params.outLimit = s.out.len + (k + 1) := ⟨s.params.outLimit - s.out.len - 1, by omega⟩
      rw [State.appendOut_of_lt hl, Flow.andThen_go,
        copyMatch_of_full n (by simp; omega) (by simp; omega) (by simp; omega)]
      simp only [State.setOut_params, State.setWork_params, State.setOut_out,
        State.setWork_out, State.setWork_work, State.setOut_work, ByteStream.append_len, hk,
        show s.out.len + (k + 1) - (s.out.len + 1) = k by omega,
        show s.out.len + (k + 1) - s.out.len = k + 1 by omega, copiedBytes, ByteStream.appendBytes_cons]
      simp only [State.setOut, State.setWork, Nat.add_assoc, Nat.add_comm 1]
    · have he : s.params.outLimit = s.out.len := by omega
      rw [State.appendOut_of_ge (by omega), he]
      simp [copiedBytes, State.setWork]

theorem matchBytes_length (m : Memory) (len d n : Nat) : (matchBytes m len d n).length = n := by simp [matchBytes]

theorem matchBytes_succ (m : Memory) (len d n : Nat) :
    matchBytes m len d (n + 1) = matchBytes m len d n ++ [m.read (len - d + n % d)] := by
  simp [matchBytes, List.range_succ]

/-- The byte at `d` positions before the end, after `j` bytes of the match are appended, is the next one of the cycle. -/
theorem read_after_matchBytes {t : ByteStream} (h : t.mem.wf = true) {d : Nat} (hd : 1 ≤ d) (hl : d ≤ t.len) (j : Nat) :
    (t.appendBytes (matchBytes t.mem t.len d j)).mem.read (t.len - d + j) = t.mem.read (t.len - d + j % d) := by
  by_cases hj : j < d
  · rw [ByteStream.appendBytes_read_other _ (by omega), Nat.mod_eq_of_lt hj]
  · obtain ⟨k, rfl⟩ : ∃ k, j = d + k := ⟨j - d, by omega⟩
    have hb := ByteStream.appendBytes_bytes (matchBytes t.mem t.len d (d + k)) h
    have hk : t.len + k < (t.appendBytes (matchBytes t.mem t.len d (d + k))).bytes.length := by
      simp [matchBytes_length]; omega
    have hr := ByteStream.bytes_getElem _ (t.len + k) hk
    rw [show t.len - d + (d + k) = t.len + k by omega, ← hr]
    simp only [hb]
    rw [List.getElem_append_right (by simp)]
    simp [matchBytes]

/-- The copy loop appends the last `d` bytes over and over: what each peek sees includes the bytes appended before it
(R171, R250). -/
theorem copiedBytes_from {t : ByteStream} (h : t.mem.wf = true) {d : Nat} (hd : 1 ≤ d) (hl : d ≤ t.len) : ∀ (n j : Nat),
    matchBytes t.mem t.len d j ++ copiedBytes (t.appendBytes (matchBytes t.mem t.len d j)) (t.len - d + j) n =
      matchBytes t.mem t.len d (j + n)
  | 0, j => by simp [copiedBytes]
  | n + 1, j => by
    rw [copiedBytes, read_after_matchBytes h hd hl j, ← ByteStream.appendBytes_snoc, ← matchBytes_succ,
      Nat.add_assoc, List.append_cons, ← matchBytes_succ, copiedBytes_from h hd hl n (j + 1)]
    congr 1
    omega

theorem copiedBytes_eq {t : ByteStream} (h : t.mem.wf = true) {d : Nat} (hd : 1 ≤ d) (hl : d ≤ t.len) (n : Nat) :
    copiedBytes t (t.len - d) n = matchBytes t.mem t.len d n := by
  simpa [matchBytes] using copiedBytes_from h hd hl n 0

/-! ## Distances -/

theorem distance_range (o : Byte) : 1 ≤ distance o ∧ distance o ≤ 256 := by
  have := o.isLt; unfold distance; omega

/-- The source of a match lies inside OUT exactly when its distance is at most the bytes produced (R169). -/
theorem matchSource_neg_iff (n : Nat) (o : Byte) : matchSource n (negoff o) < 0 ↔ n < distance o := by
  have := o.isLt; unfold matchSource negoff distance; omega

theorem matchSource_toNat {n : Nat} {o : Byte} (h : distance o ≤ n) : (matchSource n (negoff o)).toNat = n - distance o := by
  have := o.isLt; unfold matchSource negoff distance at *; omega

/-! ## A token's statements in closed form -/

/-- LITRUN cut short raises TruncatedFault at its control byte (R165). -/
theorem runLitrun_of_truncated {s : State} {nm1 : BitVec 6} {data : List Byte} (hr : s.inp.pos < s.inp.len)
    (h : s.work.l - (s.inp.pos + 1) < nm1.toNat + 1) : runLitrun nm1 data s =
      .raised (((s.setInp { s.inp with pos := s.inp.pos + 1 }).setWork
        { s.work with c := litrunControl nm1, n := nm1.toNat + 1, i := 0 }).raise .truncated s.inp.pos) := by
  unfold runLitrun
  rw [fetchControl_of_lt hr]
  simp only [Flow.andThen_go, litRunLength_litrunControl]
  rw [if_pos (by simpa using h)]
  rfl

/-- LITRUN with its data there is the literal copy (R166). -/
theorem runLitrun_of_present {s : State} {nm1 : BitVec 6} {data : List Byte} (hr : s.inp.pos < s.inp.len)
    (h : nm1.toNat + 1 ≤ s.work.l - (s.inp.pos + 1)) : runLitrun nm1 data s =
      copyLiterals data ((s.setInp { s.inp with pos := s.inp.pos + 1 }).setWork
        { s.work with c := litrunControl nm1, n := nm1.toNat + 1, i := 0 }) := by
  unfold runLitrun
  rw [fetchControl_of_lt hr]
  simp only [Flow.andThen_go, litRunLength_litrunControl]
  rw [if_neg (by simp; omega)]
  rfl

/-- MATCH without its offset byte raises TruncatedFault at its control byte (R167). -/
theorem runMatch_of_truncated {s : State} {c o : Byte} (hr : s.inp.pos < s.inp.len) (h : s.work.l ≤ s.inp.pos + 1) :
    runMatch c o s = .raised (((s.setInp { s.inp with pos := s.inp.pos + 1 }).setWork
      { s.work with c := c }).raise .truncated s.inp.pos) := by
  unfold runMatch
  rw [fetchControl_of_lt hr]
  simp only [Flow.andThen_go]
  rw [if_pos (by simpa using h)]
  rfl

/-- MATCH whose source is out of reach raises DistanceFault at its control byte (R169, R170). N is written by the second
check only. -/
theorem runMatch_of_far {s : State} {c o : Byte} (h1 : s.inp.pos + 2 ≤ s.work.l) (h2 : s.work.l ≤ s.inp.len)
    (h : (o = 0 ∧ s.params.offsetZero = .fault) ∨ s.out.len < distance o) : ∃ n, runMatch c o s =
      .raised (((s.setInp { s.inp with pos := s.inp.pos + 2 }).setWork
        { s.work with c := c, o := o, off := negoff o, n := n }).raise .distance s.inp.pos) := by
  unfold runMatch
  rw [fetchControl_of_lt (by omega)]
  simp only [Flow.andThen_go]
  rw [if_neg (by simp; omega), fetchOffset_of_lt (by simp; omega)]
  simp only [Flow.andThen_go]
  by_cases hz : o = 0 ∧ s.params.offsetZero = .fault
  · rw [if_pos (by simpa using hz)]
    exact ⟨s.work.n, rfl⟩
  · rw [if_neg (by simpa using hz), if_pos]
    · exact ⟨matchLength c, rfl⟩
    · simp only [State.setWork_out, State.setInp_out, State.setWork_work, matchSource_neg_iff]
      exact h.resolve_left hz

/-- MATCH whose source is inside OUT is the match copy (R168). -/
theorem runMatch_of_near {s : State} {c o : Byte} (h1 : s.inp.pos + 2 ≤ s.work.l) (h2 : s.work.l ≤ s.inp.len)
    (h3 : ¬(o = 0 ∧ s.params.offsetZero = .fault)) (h4 : distance o ≤ s.out.len) : runMatch c o s =
      copyMatch (matchLength c) ((s.setInp { s.inp with pos := s.inp.pos + 2 }).setWork
        { s.work with c := c, o := o, off := negoff o, n := matchLength c, base := s.out.len - distance o, i := 0 }) := by
  unfold runMatch
  rw [fetchControl_of_lt (by omega)]
  simp only [Flow.andThen_go]
  rw [if_neg (by simp; omega), fetchOffset_of_lt (by simp; omega)]
  simp only [Flow.andThen_go]
  rw [if_neg (by simpa using h3), if_neg]
  · simp only [State.setWork_out, State.setInp_out, State.setWork_work]
    rw [matchSource_toNat h4]
    rfl
  · simp only [State.setWork_out, State.setInp_out, State.setWork_work, matchSource_neg_iff]
    omega

/-- What the fetch gives the decoder when input remains: the byte at the cursor and those after it (R164). -/
theorem fetchBytes_cons {s : State} (hl : s.work.l = s.inp.len) (hr : s.inp.pos < s.inp.len) : ∃ rest,
    s.fetchBytes = s.inp.mem.read s.inp.pos :: rest ∧ rest.length = min (s.inp.len - s.inp.pos - 1) 64 ∧
      ∀ j (h : j < rest.length), rest[j] = s.inp.mem.read (s.inp.pos + 1 + j) := by
  obtain ⟨k, hk⟩ : ∃ k, min (s.inp.len - s.inp.pos) 65 = k + 1 := ⟨min (s.inp.len - s.inp.pos) 65 - 1, by omega⟩
  refine ⟨(List.range k).map fun j => s.inp.mem.read (s.inp.pos + (j + 1)), ?_, by simp; omega, fun j h => ?_⟩
  · simp only [State.fetchBytes, hl, Nat.min_self, Config.maxToken]
    rw [hk, List.range_succ_eq_map]
    simp
  · simp [Nat.add_assoc, Nat.add_comm 1]

end Sys2Proof.Machine
end

