-- ==== Sys2Proof/Laws/Matcher.lean ====
section
/-! SUPPORT. What the matcher computes: the loop invariants of R114 and R116. -/

namespace Sys2Proof.Machine

/-! ## Candidates -/

/-- The lower end of the window with the constants in place (R112). -/
theorem windowLow_eq (p0 : Nat) : windowLow p0 = if p0 > 256 then p0 - 255 else 1 := rfl

/-- A candidate start said with natural numbers. -/
theorem candidate_iff {p0 p : Nat} : Candidate p0 p ↔ windowLow p0 ≤ p ∧ p < p0 := by
  rw [windowLow_eq]
  unfold Candidate
  split_ifs <;> omega

theorem windowLow_pos (p0 : Nat) : 1 ≤ windowLow p0 := by
  rw [windowLow_eq]; split_ifs <;> omega

theorem windowLow_le {p0 : Nat} (h : 1 ≤ p0) : windowLow p0 ≤ p0 := by
  rw [windowLow_eq]; split_ifs <;> omega

theorem le_windowLow_add (p0 : Nat) : p0 ≤ windowLow p0 + 255 := by
  rw [windowLow_eq]; split_ifs <;> omega

/-! ## Repetitions -/

theorem repeats_zero (m : Memory) (l p p0 : Nat) : Repeats m l p p0 0 := ⟨by simp, .inl rfl, by simp⟩

/-- Shorter repetitions of a repetition repeat. -/
theorem Repeats.mono {m : Memory} {l p p0 k k' : Nat} (h : Repeats m l p p0 k) (hk : k' ≤ k) : Repeats m l p p0 k' :=
  ⟨hk.trans h.1, by have := h.2.1; omega, fun j hj => h.2.2 j (by omega)⟩

theorem Repeats.bound {m : Memory} {l p p0 k : Nat} (h : Repeats m l p p0 k) (hk : 1 ≤ k) : p0 + k ≤ l := by
  have := h.2.1; omega

/-! ## The run length at one candidate -/

theorem peekInput_of_lt {t : ByteStream} {a : Nat} (h : a < t.len) : peekInput t a = .ok (t.mem.read a) := by
  simp [peekInput, ByteStream.peek_of_lt h]

/-- The count of R114 from a repetition of `k` bytes is the longest repetition. -/
theorem countRun_spec {inp : ByteStream} {l p p0 : Nat} (hl : l ≤ inp.len) (hp : p < p0) : ∀ (fuel k : Nat),
    k + fuel = Config.maxMatch → Repeats inp.mem l p p0 k → ∃ n, countRun inp l p p0 fuel k = .ok n ∧
      Repeats inp.mem l p p0 n ∧ ∀ n', Repeats inp.mem l p p0 n' → n' ≤ n
  | 0, k, hk, h => ⟨k, rfl, h, fun n' hn' => by have := hn'.1; omega⟩
  | fuel + 1, k, hk, h => by
    unfold countRun
    by_cases hb : p0 + k < l
    · rw [if_pos hb, peekInput_of_lt (by omega), peekInput_of_lt (by omega)]
      by_cases he : inp.mem.read (p + k) = inp.mem.read (p0 + k)
      · simp only [he, if_true]
        refine countRun_spec hl hp fuel (k + 1) (by omega) ⟨by omega, .inr (by omega), fun j hj => ?_⟩
        rcases Nat.lt_succ_iff_lt_or_eq.1 hj with hlt | rfl
        · exact h.2.2 j hlt
        · exact he
      · simp only [he, if_false]
        refine ⟨k, rfl, h, fun n' hn' => ?_⟩
        by_contra hc
        exact he (hn'.2.2 k (by omega))
    · rw [if_neg hb]
      refine ⟨k, rfl, h, fun n' hn' => ?_⟩
      by_contra hc
      have := hn'.bound (by omega)
      omega

/-- The run length of R114: the longest repetition at the candidate. -/
theorem runLength_spec {inp : ByteStream} {l p p0 : Nat} (hl : l ≤ inp.len) (hp : p < p0) :
    ∃ n, runLength inp l p p0 = .ok n ∧ Repeats inp.mem l p p0 n ∧ ∀ n', Repeats inp.mem l p p0 n' → n' ≤ n :=
  countRun_spec hl hp _ 0 (by simp) (repeats_zero _ _ _ _)

/-! ## The scan -/

/-- The loop invariant of R116: `(len, pos)` is the nearest of the longest among the candidates tried so far. -/
def BestOf (m : Memory) (l p0 : Nat) (tried : Nat → Prop) (len pos : Nat) : Prop :=
  (∀ q k, tried q → Repeats m l q p0 k → k ≤ len) ∧ (len = 0 → pos = 0) ∧
  (1 ≤ len → tried pos ∧ Repeats m l pos p0 len ∧ ∀ q, tried q → Repeats m l q p0 len → q ≤ pos)

theorem BestOf.congr {m : Memory} {l p0 len pos : Nat} {A B : Nat → Prop} (h : BestOf m l p0 A len pos)
    (hab : ∀ q, A q ↔ B q) : BestOf m l p0 B len pos := by
  rwa [show B = A from funext fun q => propext (hab q).symm]

/-- One more candidate, lower than all tried: it replaces the best only when strictly longer (R115). -/
theorem BestOf.step {m : Memory} {l p0 p n len pos : Nat} (h : BestOf m l p0 (fun q => p < q ∧ q < p0) len pos)
    (hp : p < p0) (hn : Repeats m l p p0 n) (hmax : ∀ n', Repeats m l p p0 n' → n' ≤ n) :
    BestOf m l p0 (fun q => p ≤ q ∧ q < p0) (if n > len then n else len) (if n > len then p else pos) := by
  obtain ⟨h1, h2, h3⟩ := h
  by_cases hgt : n > len
  · simp only [hgt, if_true]
    refine ⟨fun q k hq hk => ?_, by omega, fun _ => ⟨⟨le_refl p, hp⟩, hn, fun q hq hr => ?_⟩⟩
    · rcases Nat.eq_or_lt_of_le hq.1 with rfl | hlt
      · exact hmax k hk
      · exact (h1 q k ⟨hlt, hq.2⟩ hk).trans hgt.le
    · rcases Nat.eq_or_lt_of_le hq.1 with rfl | hlt
      · exact le_refl _
      · have := h1 q n ⟨hlt, hq.2⟩ hr; omega
  · simp only [hgt, if_false]
    refine ⟨fun q k hq hk => ?_, h2, fun h1l => ?_⟩
    · rcases Nat.eq_or_lt_of_le hq.1 with rfl | hlt
      · exact (hmax k hk).trans (by omega)
      · exact h1 q k ⟨hlt, hq.2⟩ hk
    · obtain ⟨ht, hr, hb⟩ := h3 h1l
      refine ⟨⟨ht.1.le, ht.2⟩, hr, fun q hq hrq => ?_⟩
      rcases Nat.eq_or_lt_of_le hq.1 with rfl | hlt
      · exact ht.1.le
      · exact hb q ⟨hlt, hq.2⟩ hrq

/-- Once the best is 195 no lower candidate changes it (R117). -/
theorem BestOf.stop {m : Memory} {l p0 p p' pos : Nat}
    (h : BestOf m l p0 (fun q => p ≤ q ∧ q < p0) Config.maxMatch pos) (hp : p' ≤ p) :
    BestOf m l p0 (fun q => p' ≤ q ∧ q < p0) Config.maxMatch pos := by
  obtain ⟨_, h2, h3⟩ := h
  obtain ⟨ht, hr, hb⟩ := h3 (by simp)
  refine ⟨fun q k _ hk => hk.1, h2, fun _ => ⟨⟨hp.trans ht.1, ht.2⟩, hr, fun q hq hrq => ?_⟩⟩
  by_cases hlt : p ≤ q
  · exact hb q ⟨hlt, hq.2⟩ hrq
  · have := ht.1; omega

theorem scanCandidates_spec {inp : ByteStream} {l p0 : Nat} (hl : l ≤ inp.len) : ∀ (n p len pos : Nat), n ≤ p →
    p < p0 → BestOf inp.mem l p0 (fun q => p < q ∧ q < p0) len pos → ∃ len' pos',
      scanCandidates inp l p0 n p len pos = .ok (len', pos') ∧
      BestOf inp.mem l p0 (fun q => p - n < q ∧ q < p0) len' pos'
  | 0, p, len, pos, _, _, h => ⟨len, pos, rfl, h⟩
  | n + 1, p, len, pos, hn, hp, h => by
    obtain ⟨k, hk, hr, hmax⟩ := runLength_spec (inp := inp) (l := l) hl hp
    have hb := h.step hp hr hmax
    unfold scanCandidates
    simp only [hk]
    by_cases hstop : (if k > len then k else len) = Config.maxMatch
    · rw [if_pos hstop]
      refine ⟨_, _, rfl, ?_⟩
      rw [hstop] at hb ⊢
      exact (hb.stop (p' := p - n) (by omega)).congr fun q => by omega
    · rw [if_neg hstop]
      obtain ⟨len', pos', he, hb'⟩ := scanCandidates_spec hl n (p - 1) _ _ (by omega) (by omega)
        (hb.congr fun q => (by omega : p ≤ q ∧ q < p0 ↔ p - 1 < q ∧ q < p0))
      exact ⟨len', pos', he, hb'.congr fun q => by omega⟩

/-- FIND answers the nearest of the longest over the whole window (R112, R116, R119). -/
theorem findBest_spec {inp : ByteStream} {l p0 : Nat} (hl : l ≤ inp.len) : ∃ len pos,
    findBest inp l p0 = .ok (len, pos) ∧ BestOf inp.mem l p0 (Candidate p0) len pos := by
  unfold findBest
  by_cases h2 : 2 ≤ p0
  · rw [if_pos h2]
    have hlo := windowLow_pos p0
    have hle := windowLow_le (p0 := p0) (by omega)
    have hbase : BestOf inp.mem l p0 (fun q => p0 - 1 < q ∧ q < p0) 0 0 :=
      ⟨fun q k hq => absurd hq (by omega), fun _ => rfl, fun h => absurd h (by omega)⟩
    obtain ⟨len, pos, he, hb⟩ := scanCandidates_spec hl (windowCount p0) (p0 - 1) 0 0
      (by unfold windowCount; omega) (by omega) hbase
    exact ⟨len, pos, he, hb.congr fun q => by rw [candidate_iff]; unfold windowCount; omega⟩
  · rw [if_neg h2]
    refine ⟨0, 0, rfl, fun q k hq => ?_, fun _ => rfl, fun h => absurd h (by omega)⟩
    have := candidate_iff.1 hq
    have := windowLow_pos p0
    omega

/-- What is known of any answer of FIND. -/
theorem findBest_bestOf {inp : ByteStream} {l p0 len pos : Nat} (hl : l ≤ inp.len)
    (h : findBest inp l p0 = .ok (len, pos)) : BestOf inp.mem l p0 (Candidate p0) len pos := by
  obtain ⟨len', pos', he, hb⟩ := findBest_spec (p0 := p0) hl
  rw [he] at h
  cases h
  exact hb

/-- An answer of FIND is in range: at most 195, inside the input, its position a candidate. -/
theorem BestOf.range {m : Memory} {l p0 len pos : Nat} (h : BestOf m l p0 (Candidate p0) len pos) :
    len ≤ 195 ∧ (len = 0 ↔ pos = 0) ∧ (1 ≤ len → p0 + len ≤ l ∧ 1 ≤ pos ∧ pos < p0 ∧ p0 ≤ pos + 255) := by
  obtain ⟨_, h2, h3⟩ := h
  rcases Nat.eq_zero_or_pos len with rfl | hpos
  · simp [h2]
  · obtain ⟨hc, hr, _⟩ := h3 hpos
    have hc' := candidate_iff.1 hc
    have := hr.1
    simp only [Config.maxMatch] at this
    have h1 := windowLow_pos p0
    have h255 := le_windowLow_add p0
    exact ⟨this, by omega, fun _ => ⟨hr.bound hpos, by omega, hc'.2, by omega⟩⟩

/-- The matcher at a cursor: MLEN and MPOS take the answer, and of the working registers only P0, P and K change. -/
theorem runMatcher_of_ok {s : State} {p0 len pos : Nat}
    (h : findBest s.inp.toByteStream s.work.l p0 = .ok (len, pos)) : runMatcher p0 s =
      .go (((s.setBest len pos).setWork
        { s.work with p0 := p0, p := s.freePosition 0, k := s.freeCount 0 }).drawFree 1) := by
  simp [runMatcher, h]

end Sys2Proof.Machine
end

