-- ==== Sys2Proof/Laws/Encoder.lean ====
section
/-! SUPPORT. What the encoder's steps FLUSH, EMIT_MATCH and ACCUMULATE do, said once each in closed form, where OUT has
room and where it fills. -/

namespace Sys2Proof.Machine

/-! ## FLUSH (R140) -/

/-- The bytes FLUSH writes: the literal-run control byte and the accumulator's live bytes. -/
def runBytes (acc : ByteStream) : List Byte := litControl acc.len :: acc.bytes

@[simp] theorem runBytes_length (acc : ByteStream) : (runBytes acc).length = acc.len + 1 := by simp [runBytes]

/-- FLUSH is one append of bytes and the reset of ACC. -/
theorem flush_eq (s : State) : flush s = (s.appendOutBytes (runBytes s.acc)).andThen fun t => .go (t.setAcc t.acc.reset) := by
  rcases s.appendOut_cases (litControl s.acc.len) with ⟨_, he⟩ | ⟨_, he⟩
  · simp only [flush, runBytes, State.appendOutBytes, he, Flow.andThen_go, State.setOut_acc]
  · simp only [flush, runBytes, State.appendOutBytes, he, Flow.andThen_raised]

theorem flush_of_fits {s : State} (h : s.out.len + (s.acc.len + 1) ≤ s.params.outLimit) :
    flush s = .go ((s.setOut (s.out.appendBytes (runBytes s.acc))).setAcc s.acc.reset) := by
  rw [flush_eq, State.appendOutBytes_of_fits _ (by simpa using h)]; rfl

theorem flush_of_full {s : State} (h : s.out.len ≤ s.params.outLimit)
    (h' : s.params.outLimit < s.out.len + (s.acc.len + 1)) : flush s =
      .raised ((s.setOut (s.out.appendBytes ((runBytes s.acc).take (s.params.outLimit - s.out.len)))).raise .capacity
        s.params.outLimit) := by
  rw [flush_eq, State.appendOutBytes_of_full _ h (by simpa using h')]; rfl

theorem flushPending_of_zero {s : State} (h : s.acc.len = 0) : flushPending s = .go s := by
  simp [flushPending, State.accNonempty, h]

theorem flushPending_of_pos {s : State} (h : 0 < s.acc.len) : flushPending s = flush s := by
  simp [flushPending, State.accNonempty, h]

/-- What pending literals become at a flush: nothing when there are none (R145). -/
def pendingBytes (acc : ByteStream) : List Byte := if acc.len = 0 then [] else runBytes acc

theorem pendingBytes_length (acc : ByteStream) :
    (pendingBytes acc).length = if acc.len = 0 then 0 else acc.len + 1 := by
  unfold pendingBytes; split_ifs <;> simp

/-- The pending flush where it fits: the run's bytes appended, ACC empty, in both cases. -/
theorem flushPending_of_fits {s : State} (h : s.out.len + (pendingBytes s.acc).length ≤ s.params.outLimit) :
    flushPending s = .go ((s.setOut (s.out.appendBytes (pendingBytes s.acc))).setAcc s.acc.reset) := by
  rw [pendingBytes_length] at h
  by_cases hz : s.acc.len = 0
  · have hr : s.acc.reset = s.acc := by cases hs : s.acc; simp_all [ByteStream.reset]
    rw [flushPending_of_zero hz, hr]
    simp [pendingBytes, hz]
  · rw [flushPending_of_pos (by omega), flush_of_fits (by simpa [hz] using h)]
    simp [pendingBytes, hz]

/-- The pending flush where it does not. -/
theorem flushPending_of_full {s : State} (h : s.out.len ≤ s.params.outLimit)
    (h' : s.params.outLimit < s.out.len + (pendingBytes s.acc).length) : flushPending s =
      .raised ((s.setOut (s.out.appendBytes ((runBytes s.acc).take (s.params.outLimit - s.out.len)))).raise .capacity
        s.params.outLimit) := by
  rw [pendingBytes_length] at h'
  by_cases hz : s.acc.len = 0
  · simp [hz] at h'; omega
  · rw [flushPending_of_pos (by omega), flush_of_full h (by simpa [hz] using h')]

/-! ## EMIT_MATCH (R142) -/

theorem clampLength_eq (n : Nat) : clampLength n = if n > 195 then 195 else n := rfl

@[simp] theorem clampLength_of_le {n : Nat} (h : n ≤ 195) : clampLength n = n := by
  rw [clampLength_eq]; split_ifs <;> omega

theorem clampLength_eq_min (n : Nat) : clampLength n = min n 195 := by
  rw [clampLength_eq]; split_ifs <;> omega

/-- The registers EMIT_MATCH writes before it appends: the clamped length and the offset from the unmoved cursor. -/
def emitStart (s : State) : State :=
  (s.setBest (clampLength s.mlen) s.mpos).setWork { s.work with off := matchOffset s.mpos s.inp.pos }

/-- A failed seek (R149, R212). -/
theorem emitMatch_of_seek_fails {s : State} (h : s.inp.len < s.inp.pos + clampLength s.mlen) :
    emitMatch s = .raised ((emitStart s).raise .seek s.inp.pos) := by
  simp only [emitMatch, State.setWork_inp, State.setBest_inp, State.setWork_mlen, State.setBest_mlen,
    InputStream.seek_of_gt h]
  rfl

/-- A seek that succeeds leaves the two bytes to append. -/
theorem emitMatch_of_seeks {s : State} (h : s.inp.pos + clampLength s.mlen ≤ s.inp.len) : emitMatch s =
    ((emitStart s).setInp { s.inp with pos := s.inp.pos + clampLength s.mlen }).appendOutBytes
      [matchControl (clampLength s.mlen), offsetByte (matchOffset s.mpos s.inp.pos)] := by
  simp only [emitMatch, State.setWork_inp, State.setBest_inp, State.setWork_mlen, State.setBest_mlen,
    InputStream.seek_of_le h, State.appendOutBytes, emitStart]
  rcases State.appendOut_cases (((s.setBest (clampLength s.mlen) s.mpos).setWork
    { s.work with off := matchOffset s.mpos s.inp.pos }).setInp { s.inp with pos := s.inp.pos + clampLength s.mlen })
    (matchControl (clampLength s.mlen)) with ⟨_, he⟩ | ⟨_, he⟩
  · simp only [State.setBest_work, State.setBest_mpos] at he ⊢
    rw [he]
    simp only [Flow.andThen_go, Flow.andThen_go_right]
    rfl
  · simp only [State.setBest_work, State.setBest_mpos] at he ⊢
    rw [he]
    rfl

/-! ## ACCUMULATE (R144) -/

/-- Below the 64th byte, one byte moves from the cursor into ACC. -/
theorem accumulate_of_lt {s : State} (h : s.inp.pos < s.inp.len) (ha : s.acc.len < 63) : accumulate s =
    .go ((s.setInp { s.inp with pos := s.inp.pos + 1 }).setAcc (s.acc.append (s.inp.mem.read s.inp.pos))) := by
  have hne : ¬s.acc.len + 1 = 64 := by omega
  rw [accumulate, State.readIn_of_lt h, State.appendAcc_of_lt (by simp; omega)]
  simp [State.accFull, hne]

/-- The 64th byte flushes. -/
theorem accumulate_of_eq {s : State} (h : s.inp.pos < s.inp.len) (ha : s.acc.len = 63) : accumulate s =
    flush ((s.setInp { s.inp with pos := s.inp.pos + 1 }).setAcc (s.acc.append (s.inp.mem.read s.inp.pos))) := by
  rw [accumulate, State.readIn_of_lt h, State.appendAcc_of_lt (by simp; omega)]
  simp [State.accFull, ha]

/-! ## One step of PACK (R130) -/

/-- The state after the matcher ran at the cursor. -/
def afterMatcher (s : State) (len pos : Nat) : State :=
  ((s.setBest len pos).setWork
    { s.work with p0 := s.inp.pos, p := s.freePosition 0, k := s.freeCount 0 }).drawFree 1

/-- No match longer than 3: a literal (R134). -/
theorem runPack_of_literal {s : State} {len pos : Nat} (hr : s.inp.pos < s.work.l)
    (h : findBest s.inp.toByteStream s.work.l s.inp.pos = .ok (len, pos)) (hlen : len ≤ 3) :
    runPack s = accumulate (afterMatcher s len pos) := by
  have hi : s.inputRemains = true := by simpa [State.inputRemains] using hr
  have hu : ¬3 < len := by omega
  simp [runPack, hi, packIteration, runMatcher_of_ok h, State.usable, hu, afterMatcher]

/-- A match longer than 3: the pending flush, then the match (R134). -/
theorem runPack_of_match {s : State} {len pos : Nat} (hr : s.inp.pos < s.work.l)
    (h : findBest s.inp.toByteStream s.work.l s.inp.pos = .ok (len, pos)) (hlen : 3 < len) :
    runPack s = (flushPending (afterMatcher s len pos)).andThen emitMatch := by
  have hi : s.inputRemains = true := by simpa [State.inputRemains] using hr
  simp [runPack, hi, packIteration, runMatcher_of_ok h, State.usable, hlen, afterMatcher]

theorem runPack_of_end {s : State} (hr : s.work.l ≤ s.inp.pos) : runPack s = packEnd s := by
  have hi : s.inputRemains = false := by simpa [State.inputRemains] using hr
  simp [runPack, hi]

end Sys2Proof.Machine
end

