-- ==== Sys2Proof/Laws/PerInstr.lean ====
section
/-! SUPPORT. The laws stated for each instruction: EncodedLength, the length of an instruction's code (R85, R102). -/

namespace Sys2Proof.Laws

/-- A well-formed token is 2 to 65 bytes long, the shortest and the longest of R85; a command is no bytes of a token
stream (R102). -/
def EncodedLength.Statement (i : Instr) : Prop :=
  i.wf = true → if i.isToken = true then 2 ≤ (tokenBytes i).length ∧ (tokenBytes i).length ≤ 65 else tokenBytes i = []

theorem EncodedLength.litrun (nm1 : BitVec 6) (data : List Byte) :
    EncodedLength.Statement (.litrun nm1 data) := fun hw => by
  have hd : data.length = nm1.toNat + 1 := by simpa [Instr.wf] using hw
  have := nm1.isLt
  simp only [Instr.isToken, if_true, tokenBytes, encode, List.length_cons]
  omega

theorem EncodedLength.matchLo (lm4 : BitVec 7) (ofs : Byte) : EncodedLength.Statement (.matchLo lm4 ofs) := fun _ => by
  simp [Instr.isToken, tokenBytes, encode]

theorem EncodedLength.matchHi (lm4 : BitVec 6) (ofs : Byte) : EncodedLength.Statement (.matchHi lm4 ofs) := fun _ => by
  simp [Instr.isToken, tokenBytes, encode]

theorem EncodedLength.cmdNone : EncodedLength.Statement .cmdNone := fun _ => rfl
theorem EncodedLength.cmdFind : EncodedLength.Statement .cmdFind := fun _ => rfl
theorem EncodedLength.cmdPack : EncodedLength.Statement .cmdPack := fun _ => rfl
theorem EncodedLength.cmdUnpack : EncodedLength.Statement .cmdUnpack := fun _ => rfl

end Sys2Proof.Laws
end

