-- ==== Sys2Proof/Laws/Position.lean ====
section
/-! SUPPORT. The words of the position invariant (R147): what a token stream means is said token after token, and what
the run of pending literals puts on the wire and means. -/

namespace Sys2Proof.Machine

/-! ## Token streams -/

theorem streamBytes_append (a b : List Instr) : streamBytes (a ++ b) = streamBytes a ++ streamBytes b := by
  simp [streamBytes]

theorem streamEffect_append {z : OffsetZero} (a b : List Instr) (out : List Byte) :
    streamEffect z (a ++ b) out = (streamEffect z a out).bind (streamEffect z b) := by
  induction a generalizing out with
  | nil => rfl
  | cons i a ih =>
    simp only [List.cons_append, streamEffect]
    cases tokenEffect z i out with
    | none => rfl
    | some out' => exact ih out'

/-! ## The run of pending literals -/

@[simp] theorem State.pendingTokens_of_zero {s : State} (h : s.acc.len = 0) : s.pendingTokens = [] := by
  simp [State.pendingTokens, h]

theorem State.pendingTokens_of_pos {s : State} (h : 0 < s.acc.len) :
    s.pendingTokens = [.litrun (BitVec.ofNat 6 (s.acc.len - 1)) s.acc.bytes] := by
  simp [State.pendingTokens, show s.acc.len ≠ 0 by omega]

/-- The run is a well-formed token. -/
theorem State.pendingTokens_wf {s : State} (h : s.acc.len ≤ 64) : ∀ i ∈ s.pendingTokens, i.wf = true ∧ i.isToken = true := by
  rcases Nat.eq_zero_or_pos s.acc.len with hz | hp
  · simp [hz]
  · rw [State.pendingTokens_of_pos hp]
    simp [Instr.wf, Instr.isToken, Nat.mod_eq_of_lt (show s.acc.len - 1 < 64 by omega)]
    omega

/-- What it puts on the wire is what the flush writes (R140). -/
theorem State.streamBytes_pendingTokens {s : State} (h : s.acc.len ≤ 64) :
    streamBytes s.pendingTokens = pendingBytes s.acc := by
  rcases Nat.eq_zero_or_pos s.acc.len with hz | hp
  · simp [hz, pendingBytes, streamBytes]
  · rw [State.pendingTokens_of_pos hp]
    simp [streamBytes, tokenBytes, encode, pendingBytes, runBytes, show s.acc.len ≠ 0 by omega, litControl_of_le hp h]

/-- What it means is the accumulator's live bytes (R166). -/
@[simp] theorem State.streamEffect_pendingTokens (s : State) (z : OffsetZero) (out : List Byte) :
    streamEffect z s.pendingTokens out = some (out ++ s.acc.bytes) := by
  rcases Nat.eq_zero_or_pos s.acc.len with hz | hp
  · simp [hz, streamEffect, ByteStream.bytes_of_len_zero hz]
  · simp [State.pendingTokens_of_pos hp, streamEffect, tokenEffect]

end Sys2Proof.Machine
end

