-- ==== Sys2Proof/Laws/Step.lean ====
section
/-! SUPPORT. What a step is, said once: whose turn it is, what an idle block does, what a run of steps is, and what
the host reads of the streams. -/

namespace Sys2Proof.Machine

/-- On the sequencer's turn a step is the sequencer's, the turn used up. -/
theorem step_of_sequencerTurn {s : State} (h : s.sequencerTurn = true) : step s = sequencerStep s.afterTurn := by
  unfold State.sequencerTurn at h
  unfold step State.afterTurn
  rcases hs : s.host with _ | ⟨_ | m, rest⟩
  · have : s.setHost [] = s := by rw [← hs]; rfl
    simp [this]
  · simp
  · simp [hs] at h

/-- On the host's turn a step is its move. -/
theorem step_of_hostTurn {s : State} {m : HostMove} {rest : List (Option HostMove)} (h : s.host = some m :: rest) :
    step s = hostStep m (s.setHost rest) := by simp [step, h]

/-- An idle block does nothing (R230). -/
theorem sequencerStep_of_idle {s : State} (h : s.phase ≠ .busy) : sequencerStep s = .next s := by
  simp [sequencerStep, State.nextInstr, h]

theorem reaches_zero {s t : State} : Reaches 0 s t ↔ s = t := by
  simp only [Reaches, Host.Core.run]
  exact ⟨fun h => Host.Outcome.next.inj h, fun h => by rw [h]⟩

/-- A run of one step more. -/
theorem reaches_succ {n : Nat} {s t : State} : Reaches (n + 1) s t ↔ ∃ u, step s = .next u ∧ Reaches n u t := by
  simp only [Reaches, Host.Core.run]
  constructor
  · intro h
    split at h
    · rename_i u hu; exact ⟨u, hu, h⟩
    · cases h
    · cases h
  · rintro ⟨u, hu, h⟩
    have hs : Sys2Proof.core.step s = .next u := hu
    rw [hs]; exact h

/-! ## What the host reads of the streams (R195, R197) -/

theorem hostReads_of_busy {s : State} (h : s.phase = .busy) :
    s.hostOutLength = none ∧ s.hostInPosition = none ∧ ∀ a, s.hostPeekOut a = none := by
  simp [State.hostOutLength, State.hostInPosition, State.hostPeekOut, h]

theorem hostReads_of_idle {s : State} (h : s.phase ≠ .busy) :
    s.hostOutLength = some s.out.len ∧ s.hostInPosition = some s.inp.pos ∧ ∀ a, s.hostPeekOut a = s.out.peek a := by
  simp [State.hostOutLength, State.hostInPosition, State.hostPeekOut, h, ByteStream.length, InputStream.position]

/-! ## Values in range -/

theorem outLimit_le_maxLen (c : Params) : c.outLimit ≤ c.maxLen := by
  unfold Params.outLimit; split <;> simp

/-- What an ended operation leaves in the working registers fits them (R25, R26). -/
theorem releaseWork_fits {s : State} (h : s.work.p0 ≤ s.params.maxLen) : s.releaseWork.WorkFits := by
  have h1 := s.freePosition_le
  have h2 := s.freeCount_lt
  have h3 := State.freeOffset_range s.free
  exact ⟨h1 _, h1 _, h, h1 _, h1 _, h2 _, h2 _, h2 _, h3.1, h3.2⟩

end Sys2Proof.Machine
end

