-- ==== Sys2Proof/Tests/Slice0.lean ====
section
/-! SUPPORT. The model's own tests. Expected values are the spec's: the words of 30_encoding.md and the opcode table, the
vectors V1 to V27 and programs P1 to P5 of 95_test_vectors.md. The second half gives, for each statement of
Obligations.lean that has hypotheses, a concrete state that meets them. -/

namespace Sys2Proof.Tests

open Sys2Proof Sys2Proof.Machine

/-! ## States to test on -/

/-- A stream that holds these bytes. -/
def mkStream (bs : List Byte) : ByteStream := { mem := Memory.writeList [] 0 bs, len := bs.length }

/-- IN with these bytes and this cursor. -/
def mkInput (bs : List Byte) (pos : Nat) : InputStream := { toByteStream := mkStream bs, pos := pos }

/-- After reset, IN loaded. -/
def loaded (bs : List Byte) : State := State.reset.setInp (mkInput bs 0)

/-- An operation running, its samples taken, OUT and ACC holding these bytes. -/
def running (op : Cmd) (bs : List Byte) (pos : Nat) (out acc : List Byte) : State :=
  ((((((loaded bs).setInp (mkInput bs pos)).setOut (mkStream out)).setAcc (mkStream acc)).setPhase .busy).setOp
    op).setWork { Work.reset with l := bs.length }

/-- The same with a finite OUT_CAP. -/
def capped (cap : Nat) (s : State) : State := { s with params := { s.params with outCap := some cap } }

/-- The same with OFFSET_ZERO = fault. -/
def zeroFaults (s : State) : State := { s with params := { s.params with offsetZero := .fault } }

/-- A faulted block. -/
def faulted : State := ((State.reset.setPhase .fault).setOp .unpack).setStatus .truncated 2

/-- The outcome is a next state of which `p` holds. -/
def nextSat (x : Host.Outcome State Fault Refusal) (p : State → Bool) : Bool :=
  match x with
  | .next t => p t
  | .fault _ => false
  | .refused _ => false

/-- The next state of an outcome that has one. -/
def nextOr (s : State) (x : Host.Outcome State Fault Refusal) : State :=
  match x with
  | .next t => t
  | .fault _ => s
  | .refused _ => s

/-- `n` copies of a byte. -/
def copies (n : Nat) (b : Byte) : List Byte := List.replicate n b

/-! ## Well-formedness: the one check, a literal run's length -/

theorem test_wf_refuses_empty_run : (Instr.litrun 0 []).wf = false := by decide
theorem test_wf_refuses_long_run : (Instr.litrun 0 [0x41, 0x42]).wf = false := by decide
theorem test_wf_refuses_short_long_run : (Instr.litrun 63 (copies 63 0x41)).wf = false := by decide
theorem test_wf_takes_longest_run : (Instr.litrun 63 (copies 64 0x41)).wf = true := by decide

/-! ## Decoding: each constructor by a word written out bit by bit (R81, R93, R190) -/

theorem test_decode_litrun : decodeToken [0b11000001, 0x41, 0x42, 0x99] = .ok (.litrun 0b000001 [0x41, 0x42], [0x99]) := by
  decide
theorem test_decode_litrun_longest : decodeToken (0b11111111 :: copies 64 7) = .ok (.litrun 0b111111 (copies 64 7), []) := by
  decide
theorem test_decode_matchLo : decodeToken [0b01111111, 0x01] = .ok (.matchLo 0b1111111 0x01, []) := by decide
theorem test_decode_matchHi : decodeToken [0b10000000, 0xFE, 0xC0] = .ok (.matchHi 0b000000 0xFE, [0xC0]) := by decide
theorem test_decode_cmdNone : decodeCommand 0b00 = .cmdNone := by decide
theorem test_decode_cmdFind : decodeCommand 0b01 = .cmdFind := by decide
theorem test_decode_cmdPack : decodeCommand 0b10 = .cmdPack := by decide
theorem test_decode_cmdUnpack : decodeCommand 0b11 = .cmdUnpack := by decide
theorem test_decode_cut_run : decodeToken [0xC1, 0x41] = .error (.truncatedLiteralRun 0xC1) := by decide
theorem test_decode_cut_match : decodeToken [0x00] = .error (.truncatedMatch 0x00) := by decide

/-- The lengths of V27: C + 4, and (C & 0x3F) + 1. -/
theorem test_lengths : [0x00, 0x3F, 0x40, 0x7F, 0x80, 0xBF].map matchLength = [4, 67, 68, 131, 132, 195] ∧
    [0xC0, 0xC1, 0xFE, 0xFF].map litRunLength = [1, 2, 63, 64] := by decide
/-- The offsets of V27: the byte 0x7F is −129, not +127. -/
theorem test_offsets : [0xFF, 0xFE, 0x80, 0x7F, 0x01, 0x00].map negoff = [-1, -2, -128, -129, -255, -256] := by decide
/-- The window's low end of V27. -/
theorem test_window : [0, 1, 2, 255, 256, 257, 1000].map windowLow = [1, 1, 1, 1, 1, 2, 745] := by decide
/-- The assembler's tokens (R101). -/
theorem test_asm : asmLit [0x41, 0x41] = some (.litrun 1 [0x41, 0x41]) ∧ asmMatch 8 (-1) = some (.matchLo 4 0xFF) ∧
    asmMatch 195 (-2) = some (.matchHi 0x3F 0xFE) ∧ asmMatch 3 (-1) = none ∧ asmLit [] = none := by decide

/-! ## Words of the opcode table -/

theorem test_table_litrun : decodeTableWord 8 0b11000000 = some (.litrun 0 [0]) := by decide
theorem test_table_matchLo : decodeTableWord 16 0b0000010011111111 = some (.matchLo 4 0xFF) := by decide
theorem test_table_matchHi : decodeTableWord 16 0b1011111100000001 = some (.matchHi 0x3F 0x01) := by decide
theorem test_table_commands : [0, 1, 2, 3].map (decodeTableWord 8) =
    [some .cmdNone, some .cmdFind, some .cmdPack, some .cmdUnpack] := by decide

/-! ## A placed word is what the next step runs -/

theorem test_fetch_litrun : nextSat (step (State.reset.withFetchWord 8 0xC0)) (fun t => t.out.bytes == [0]) = true := by decide
theorem test_fetch_match : nextSat (step (State.reset.withFetchWord 16 0x00FF))
    (fun t => t.phase == .fault && t.status == .distance && t.inp.pos == 2) = true := by decide
theorem test_fetch_unpack : nextSat (step (State.reset.withFetchWord 8 3))
    (fun t => t.phase == .busy && t.op == .unpack) = true := by decide

/-! ## LITRUN -/

/-- P1, steps 1 to 3. -/
theorem test_litrun_P1 : nextSat (exec (.litrun 1 [0x41, 0x41]) (running .unpack [0xC1, 0x41, 0x41, 4, 0xFF] 0 [] []))
    (fun t => t.out.bytes == [0x41, 0x41] && t.inp.pos == 3 && t.work.n == 2) = true := by decide
/-- V21, the second row: nothing of a run cut short is appended. -/
theorem test_litrun_V21 : nextSat (step (running .unpack [0xC1, 0x41] 0 [] []))
    (fun t => t.phase == .fault && t.status == .truncated && t.info == 0 && t.inp.pos == 1 && t.out.len == 0) = true := by
  decide

/-! ## MATCH -/

/-- P1, steps 4 to 10: the copy reads what it appended. -/
theorem test_matchLo_P1 : nextSat (exec (.matchLo 4 0xFF) (running .unpack [0xC1, 0x41, 0x41, 4, 0xFF] 3 [0x41, 0x41] []))
    (fun t => t.out.bytes == copies 10 0x41 && t.inp.pos == 5 && t.work.base == 1) = true := by decide
/-- V24: the fault falls inside a token. -/
theorem test_matchLo_V24 : nextSat (exec (.matchLo 4 0xFF)
      (capped 4 (running .unpack [0xC1, 0x41, 0x41, 4, 0xFF] 3 [0x41, 0x41] [])))
    (fun t => t.phase == .fault && t.status == .capacity && t.info == 4 && t.out.len == 4 && t.inp.pos == 5) = true := by decide
/-- V27: control byte 0x80 copies 132 bytes. -/
theorem test_matchHi_length : nextSat (exec (.matchHi 0 0xFF) (running .unpack [0x80, 0xFF] 0 [0x41] []))
    (fun t => t.out.len == 133 && t.work.n == 132) = true := by decide
/-- V22, the second row: distance 2 with one byte produced. -/
theorem test_match_V22 : nextSat (step (running .unpack [0xC0, 0x41, 0, 0xFE] 2 [0x41] []))
    (fun t => t.phase == .fault && t.status == .distance && t.info == 2 && t.inp.pos == 4 && t.out.len == 1) = true := by decide

/-! ## The commands -/

/-- V25: nothing changes. -/
theorem test_none : exec .cmdNone State.reset = .next State.reset := rfl
/-- V25: FIND 5 over XABCDABCD. -/
theorem test_find_V25 : nextSat (exec .cmdFind
      (let s := running .find [0x58, 0x41, 0x42, 0x43, 0x44, 0x41, 0x42, 0x43, 0x44] 0 [] []
       s.setWork { s.work with p0 := 5 }))
    (fun t => t.phase == .done && t.mlen == 4 && t.mpos == 1 && t.result == 4 && t.inp.pos == 0) = true := by decide
/-- V1: of the candidates 4, 3, 2, 1, which all give 5, the nearest is kept. -/
theorem test_find_V1_tie : findBest (mkStream (copies 10 0x41)) 10 5 = .ok (5, 4) := by decide
/-- V6 at position 2: the pending literals, then the match. -/
theorem test_pack_V6 : nextSat (exec .cmdPack
      (running .pack [0x58, 0x41, 0x41, 0x41, 0x41, 0x41] 2 [] [0x58, 0x41]))
    (fun t => t.out.bytes == [0xC1, 0x58, 0x41, 0x00, 0xFF] && t.inp.pos == 6 && t.acc.len == 0) = true := by decide
/-- P5: the final flush of QRS into two bytes of room. -/
theorem test_pack_P5 : nextSat (exec .cmdPack (capped 2 (running .pack [0x51, 0x52, 0x53] 3 [] [0x51, 0x52, 0x53])))
    (fun t => t.phase == .fault && t.status == .capacity && t.info == 2 && t.out.bytes == [0xC2, 0x51] &&
      t.acc.len == 0 && t.result == 0) = true := by decide
/-- The host reads PHASE, STATUS, INFO and IN.pos after V23's fault, and nothing of OUT while an operation runs. -/
theorem test_host_reads : (faulted.setInp (mkInput [0xC0, 0x41, 0x00] 3)).hostInPosition = some 3 ∧
    [HostReg.phase, .op, .status, .info, .cmd].map faulted.hostRead = [some 3, some 3, some 2, some 2, none] ∧
    (running .pack [0x41] 0 [0x41] []).hostPeekOut 0 = none := by decide
/-- START of UNPACK (R191): V23's second command clears the record. -/
theorem test_unpack_starts : nextSat (exec .cmdUnpack (faulted.setInp (mkInput [0xC0, 0x41] 0)))
    (fun t => t.phase == .busy && t.status == .ok && t.info == 0 && t.work.l == 2) = true := by decide
/-- P1, step 11. -/
theorem test_unpack_ends : nextSat (exec .cmdUnpack (running .unpack [0xC1, 0x41, 0x41, 4, 0xFF] 5 (copies 10 0x41) []))
    (fun t => t.phase == .done && t.result == 10) = true := by decide

/-! # Witnesses: the hypotheses of each statement can be met -/

/-! ## Encoding -/

theorem wit_DecodeEncodeRoundTrip : (Instr.litrun 63 (copies 64 0xC0)).wf = true ∧ (Instr.matchHi 63 0).wf = true ∧
    Instr.cmdUnpack.wf = true := by decide
theorem wit_DecodedTokenBytesAreTheStream : decodeToken [0xBF, 0x00, 0x12] = .ok (.matchHi 63 0, [0x12]) := by decide
theorem wit_ControlByteDecidesKindAndLength : 64 ≤ (copies 64 0).length ∧ (0xC0 : Byte).extractLsb' 6 2 = 3#2 ∧
    (0xBF : Byte).extractLsb' 6 2 ≠ 3#2 := by decide
theorem wit_OnlyTruncatedTokensAreRejected : isLiteral 0xC0 = true ∧ isLiteral 0xBF = false ∧
    litRunLength 0xC0 ≤ [(0x41 : Byte)].length ∧ [(0x41 : Byte)] ≠ [] := by decide
theorem wit_LiteralLengthField : isLiteral 0xC0 = true ∧ isLiteral 0xFF = true ∧ 1 ≤ 64 ∧ 64 ≤ 64 := by decide
theorem wit_MatchLengthField : isLiteral 0x00 = false ∧ isLiteral 0xBF = false ∧ 4 ≤ 195 ∧ 195 ≤ 195 := by decide
theorem wit_OffsetFieldAgrees : (-255 : Int) ≤ -255 ∧ (-1 : Int) ≤ -1 ∧ (0x01 : Byte) ≠ 0 := by decide

/-! ## Reset, fetch and step -/

/-- A block in the middle of PACK, its host about to reset it. -/
theorem wit_BlockResetValues :
    ((running .pack [0x41] 0 [] []).setHost [some .resetBlock, none]).host = some .resetBlock :: [none] := by decide
theorem wit_StepRunsSelectedInstruction_command :
    ((loaded [0x41]).setHost [some (.write .cmd 3)]).phase ≠ .busy ∧ 3 < 4 ∧
    ((loaded [0x41]).setHost [some (.write .cmd 3)]).host = some (.write .cmd 3) :: [] := by decide
theorem wit_StepRunsSelectedInstruction_idle : State.reset.sequencerTurn = true ∧ State.reset.phase ≠ .busy := by decide
theorem wit_StepRunsSelectedInstruction_find : (running .find [0x41] 0 [] []).sequencerTurn = true ∧
    (running .find [0x41] 0 [] []).phase = .busy ∧ (running .find [0x41] 0 [] []).op = .find := by decide
theorem wit_StepRunsSelectedInstruction_pack : (running .pack [0x41] 0 [] []).sequencerTurn = true ∧
    (running .pack [0x41] 0 [] []).phase = .busy ∧ (running .pack [0x41] 0 [] []).op = .pack := by decide
/-- The end: the cursor at the sampled length. -/
theorem wit_StepRunsSelectedInstruction_end : (running .unpack [0x00] 1 [] []).sequencerTurn = true ∧
    (running .unpack [0x00] 1 [] []).phase = .busy ∧ (running .unpack [0x00] 1 [] []).op = .unpack ∧
    (running .unpack [0x00] 1 [] []).work.l ≤ (running .unpack [0x00] 1 [] []).inp.pos := by decide
/-- The last token: it ends where IN does. -/
theorem wit_StepRunsSelectedInstruction_token :
    ((running .unpack [0x00, 0xFF] 0 [] []).setHost [none]).sequencerTurn = true ∧
    (running .unpack [0x00, 0xFF] 0 [] []).inp.pos < (running .unpack [0x00, 0xFF] 0 [] []).work.l ∧
    decodeToken (running .unpack [0x00, 0xFF] 0 [] []).fetchBytes = .ok (.matchLo 0 0xFF, []) := by decide
theorem wit_StepRunsTokenStoredInInput :
    let s := running .unpack [0xC0, 0x41] 0 [] []
    let i := Instr.litrun 0 [0x41]
    s.sequencerTurn = true ∧ s.phase = .busy ∧ s.op = .unpack ∧ i.wf = true ∧ i.isToken = true ∧
    s.inp.pos + (tokenBytes i).length ≤ s.work.l ∧ s.work.l ≤ s.inp.len ∧
    ∀ j (h : j < (tokenBytes i).length), s.inp.mem.read (s.inp.pos + j) = (tokenBytes i)[j] := by decide
theorem wit_UnpackExecutesToken :
    let s := running .unpack [0xC0, 0x41] 0 [] []
    s.phase = .busy ∧ s.op = .unpack ∧ s.inp.pos < s.work.l ∧
    decodeToken s.fetchBytes = .ok (.litrun 0 [0x41], []) := by decide

/-! ## Commands and the host -/

theorem wit_CommandAccepted : State.reset.phase ≠ .busy ∧ faulted.phase ≠ .busy ∧
    (Instr.cmdPack, Cmd.pack) ∈ [(Instr.cmdFind, Cmd.find), (Instr.cmdPack, Cmd.pack), (Instr.cmdUnpack, Cmd.unpack)] := by
  decide
theorem wit_CommandWriteStartsOrIsDropped : Cmd.pack ≠ .none ∧ (faulted.setHost [Cmd.pack.write]).phase ≠ .busy ∧
    (faulted.setHost [Cmd.pack.write]).host = Cmd.pack.write :: [] ∧
    ((running .find [] 0 [] []).setHost [Cmd.pack.write]).phase = .busy ∧
    ((running .find [] 0 [] []).setHost [Cmd.pack.write]).host = Cmd.pack.write :: [] := by decide
/-- The three ways PHASE moves: a command, an end, a reset. -/
theorem wit_PhaseMovesOnlyAsStated :
    (∃ t, step (State.reset.setHost [Cmd.find.write]) = .next t ∧ t.phase ≠ State.reset.phase) ∧
    (∃ t, step (running .unpack [] 0 [] []) = .next t ∧ t.phase ≠ (running .unpack [] 0 [] []).phase) ∧
    (∃ t, step (faulted.setHost [some .resetBlock]) = .next t ∧ t.phase ≠ faulted.phase) :=
  ⟨⟨_, rfl, by decide⟩, ⟨_, rfl, by decide⟩, ⟨_, rfl, by decide⟩⟩
theorem wit_FaultRecordIsSticky : faulted.phase = .fault ∧ step faulted = .next faulted := ⟨rfl, rfl⟩
theorem wit_HostAccessWhileBusyRefused :
    let s := (running .pack [0x41] 0 [] []).setHost [some (.appendIn 7)]
    s.phase = .busy ∧ s.host = some (.appendIn 7) :: [] := by decide
/-- With POSW = 1 a stream holds one byte: the append of it, and the largest ARG_P0. -/
theorem wit_HostMovesWhileIdle :
    let s := { State.reset with params := { State.reset.params with posw := 1 } }
    s.phase ≠ .busy ∧ s.inp.mem.wf = true ∧ s.inp.len < s.params.maxLen ∧ 1 ≤ s.params.maxLen ∧
    (s.setHost [some (.appendIn 7)]).host = some (.appendIn 7) :: [] ∧
    (s.setHost [some (.write .argP0 1)]).host = some (.write .argP0 1) :: [] ∧
    (s.setHost [some .resetIn]).host = some .resetIn :: [] ∧ (s.setHost [some .resetOut]).host = some .resetOut :: [] := by
  decide
theorem wit_ReadOnlyRegistersIgnoreHostWrites : HostReg.mpos ≠ .cmd ∧ HostReg.mpos ≠ .argP0 ∧
    ((running .pack [] 0 [] []).setHost [some (.write .mpos 9)]).host = some (.write .mpos 9) :: [] := by decide
/-- A block that is busy and one that is not. -/
theorem wit_HostReadsCodesAndStreams : (running .pack [0x41] 0 [] []).phase = .busy ∧ faulted.phase ≠ .busy := by decide
theorem wit_AppendRaisesWhenOutIsFull :
    (capped 1 (running .unpack [] 0 [0x41] [])).params.outLimit ≤ (capped 1 (running .unpack [] 0 [0x41] [])).out.len ∧
    (capped 2 (running .unpack [] 0 [0x41] [])).out.len < (capped 2 (running .unpack [] 0 [0x41] [])).params.outLimit ∧
    (capped 2 (running .unpack [] 0 [0x41] [])).out.mem.wf = true := by decide

/-! ## Tokens -/

/-- The data end where IN ends and fill OUT exactly. -/
theorem wit_LitrunAppendsItsData :
    let s := capped 1 (running .unpack [0xC0, 0x41] 0 [] [])
    (Instr.litrun 0 [0x41]).wf = true ∧ s.inp.pos + 1 + [(0x41 : Byte)].length ≤ s.work.l ∧ s.work.l ≤ s.inp.len ∧
    s.out.len + [(0x41 : Byte)].length ≤ s.params.outLimit ∧ s.out.mem.wf = true := by decide
theorem wit_TruncatedLitrunFaults :
    let s := running .unpack [0xC1, 0x41] 0 [] []
    s.inp.pos < s.inp.len ∧ s.work.l - (s.inp.pos + 1) < (1 : BitVec 6).toNat + 1 := by decide
/-- A run one byte short, and a match without its offset byte. -/
theorem wit_StepFaultsOnTruncatedToken :
    (let s := running .unpack [0xC1, 0x41] 0 [] []
     s.sequencerTurn = true ∧ s.phase = .busy ∧ s.op = .unpack ∧ s.work.l = s.inp.len ∧ s.inp.pos < s.inp.len ∧
     s.inp.len - (s.inp.pos + 1) < tokenNeed (s.inp.mem.read s.inp.pos)) ∧
    (let s := running .unpack [0x00] 0 [] []
     s.sequencerTurn = true ∧ s.phase = .busy ∧ s.op = .unpack ∧ s.work.l = s.inp.len ∧ s.inp.pos < s.inp.len ∧
     s.inp.len - (s.inp.pos + 1) < tokenNeed (s.inp.mem.read s.inp.pos)) := by decide
/-- A source that is all of OUT, for both rows, with OUT filled exactly by the first. -/
theorem wit_MatchCopiesFromOutput :
    (let s := capped 5 (running .unpack [0x00, 0xFF] 0 [0x41] [])
     matchLoControl 0 = 0x00 ∧ s.inp.pos + 2 ≤ s.work.l ∧ s.work.l ≤ s.inp.len ∧
     ¬((0xFF : Byte) = 0 ∧ s.params.offsetZero = .fault) ∧ distance 0xFF ≤ s.out.len ∧
     s.out.len + ((0x00 : Byte).toNat + 4) ≤ s.params.outLimit ∧ s.out.mem.wf = true) ∧
    (let s := running .unpack [0xBF, 0xFE] 0 [0x41, 0x42] []
     matchHiControl 63 = 0xBF ∧ s.inp.pos + 2 ≤ s.work.l ∧ s.work.l ≤ s.inp.len ∧
     ¬((0xFE : Byte) = 0 ∧ s.params.offsetZero = .fault) ∧ distance 0xFE ≤ s.out.len ∧
     s.out.len + ((0xBF : Byte).toNat + 4) ≤ s.params.outLimit ∧ s.out.mem.wf = true) := by decide
theorem wit_TruncatedMatchFaults :
    let s := running .unpack [0x00] 0 [0x41] []
    s.inp.pos < s.inp.len ∧ s.work.l ≤ s.inp.pos + 1 := by decide
/-- One byte too far, and offset byte 0x00 where the parameter says so. -/
theorem wit_DistanceFaults :
    (let s := running .unpack [0x00, 0xFE] 0 [0x41] []
     s.inp.pos + 2 ≤ s.work.l ∧ s.work.l ≤ s.inp.len ∧ (s.out.len : Int) + (((0xFE : Byte).toNat : Int) - 256) < 0) ∧
    (let s := zeroFaults (running .unpack [0x00, 0x00] 0 [0x41] [])
     s.inp.pos + 2 ≤ s.work.l ∧ s.work.l ≤ s.inp.len ∧ (0x00 : Byte) = 0 ∧ s.params.offsetZero = .fault) := by decide
/-- A literal run and a match, each one byte too long for OUT. -/
theorem wit_TokenFaultsWhenOutFills :
    (let s := capped 1 (running .unpack [0xC1, 0x41, 0x42] 0 [] [])
     let i := Instr.litrun 1 [0x41, 0x42]
     i.wf = true ∧ i.isToken = true ∧ s.out.len ≤ s.params.outLimit ∧ s.inp.pos + (tokenBytes i).length ≤ s.work.l ∧
     s.work.l ≤ s.inp.len ∧ (tokenEffect s.params.offsetZero i s.out.bytes).isSome = true ∧
     s.params.outLimit < s.out.len + i.outputLength) ∧
    (let s := capped 4 (running .unpack [0x00, 0xFF] 0 [0x41] [])
     let i := Instr.matchLo 0 0xFF
     i.wf = true ∧ i.isToken = true ∧ s.out.len ≤ s.params.outLimit ∧ s.inp.pos + (tokenBytes i).length ≤ s.work.l ∧
     s.work.l ≤ s.inp.len ∧ (tokenEffect s.params.offsetZero i s.out.bytes).isSome = true ∧
     s.params.outLimit < s.out.len + i.outputLength) := by decide
/-- A token that completes and one that faults. -/
theorem wit_TokenFrame :
    (Instr.litrun 0 [0x41]).isToken = true ∧
    (∃ t, exec (.litrun 0 [0x41]) (running .unpack [0xC0, 0x41] 0 [] []) = .next t) ∧
    (∃ t, exec (.matchLo 0 0xFF) (running .unpack [0x00, 0xFF] 0 [] []) = .next t) := ⟨rfl, ⟨_, rfl⟩, ⟨_, rfl⟩⟩
theorem wit_UnpackEnds :
    let s := running .unpack [0x41] 1 [0x41] []
    s.phase = .busy ∧ s.op = .unpack ∧ s.work.l ≤ s.inp.pos := by decide

/-! ## The matcher -/

theorem wit_FindAnswersNearestLongest :
    let s := running .find (copies 10 0x41) 0 [] []
    s.phase = .busy ∧ s.op = .find ∧ s.work.l ≤ s.inp.len := by decide
/-- A cursor at the end of the input, and one at position 1. -/
theorem wit_FindWithoutCandidates :
    (let s := running .find [] 0 [] []
     s.phase = .busy ∧ s.op = .find ∧ s.work.l ≤ s.work.p0) ∧
    (let s := (running .find [0x41, 0x41] 0 [] []).setWork { Work.reset with l := 2, p0 := 1 }
     s.phase = .busy ∧ s.op = .find ∧ s.work.p0 ≤ 1) := by decide
/-- The cursor at the last byte, and a byte that stands nowhere in the window. -/
theorem wit_FindStaysInsideInput :
    (3 ≤ (mkStream [0x58, 0x41, 0x41]).len ∧ 2 ≤ 3 ∧ findBest (mkStream [0x58, 0x41, 0x41]) 3 2 = .ok (1, 1) ∧ 2 + 1 = 3) ∧
    (findBest (mkStream [0x58, 0x41, 0x42]) 3 2 = .ok (0, 0) ∧
      ∀ p, Candidate 2 p → (mkStream [0x58, 0x41, 0x42]).mem.read p ≠ (mkStream [0x58, 0x41, 0x42]).mem.read 2) := by
  refine ⟨by decide, by decide, fun p hp => ?_⟩
  obtain ⟨h1, h2⟩ := hp
  have hp1 : p = 1 := by omega
  subst hp1
  decide
/-- A stream of 257 zero bytes, the cursor at the last one: the repeat 255 bytes back is a candidate. -/
theorem wit_WindowBoundary :
    let inp : ByteStream := { mem := [], len := 257 }
    257 ≤ inp.len ∧ 256 ≤ 256 ∧ findBest inp 257 256 = .ok (1, 255) ∧ Repeats inp.mem 257 (256 - 255) 256 1 ∧ 1 ≤ 1 :=
  ⟨by decide, by decide, by decide +kernel, ⟨by decide, .inr (by decide), fun _ _ => rfl⟩, by decide⟩
theorem wit_EarlyStopChangesNothing : 10 ≤ (mkStream (copies 10 0x41)).len := by decide

/-! ## The encoder -/

/-- A literal below the 64th, and the 64th with just enough room. -/
theorem wit_PackTakesLiteral :
    (let s := running .pack [0x58, 0x41, 0x41, 0x41] 2 [] [0x58, 0x41]
     s.Inv ∧ s.phase = .busy ∧ s.op = .pack ∧ s.inp.pos < s.work.l ∧
     findBest s.inp.toByteStream s.work.l s.inp.pos = .ok (2, 1) ∧ 2 ≤ 3 ∧ s.acc.len < 63) ∧
    (let s := capped 65 (running .pack [0x41] 0 [] (copies 63 0x42))
     s.Inv ∧ s.phase = .busy ∧ s.op = .pack ∧ s.inp.pos < s.work.l ∧
     findBest s.inp.toByteStream s.work.l s.inp.pos = .ok (0, 0) ∧ s.acc.len = 63 ∧
     s.out.len + 65 ≤ s.params.outLimit) := ⟨by decide, by decide⟩
/-- With literals pending (V6) and without, each with just enough room. -/
theorem wit_PackEmitsMatch :
    (let s := capped 5 (running .pack [0x58, 0x41, 0x41, 0x41, 0x41, 0x41] 2 [] [0x58, 0x41])
     s.Inv ∧ s.phase = .busy ∧ s.op = .pack ∧ s.inp.pos < s.work.l ∧
     findBest s.inp.toByteStream s.work.l s.inp.pos = .ok (4, 1) ∧ 3 < 4 ∧
     s.out.len + (if s.acc.len = 0 then 0 else s.acc.len + 1) + 2 ≤ s.params.outLimit) ∧
    (let s := capped 2 (running .pack [0x58, 0x41, 0x41, 0x41, 0x41, 0x41] 2 [] [])
     s.Inv ∧ s.phase = .busy ∧ s.op = .pack ∧ s.inp.pos < s.work.l ∧
     findBest s.inp.toByteStream s.work.l s.inp.pos = .ok (4, 1) ∧ 3 < 4 ∧
     s.out.len + (if s.acc.len = 0 then 0 else s.acc.len + 1) + 2 ≤ s.params.outLimit) := ⟨by decide, by decide⟩
/-- With a literal pending and without. -/
theorem wit_PackEnds :
    (let s := capped 2 (running .pack [0x41] 1 [] [0x41])
     s.Inv ∧ s.phase = .busy ∧ s.op = .pack ∧ s.work.l ≤ s.inp.pos ∧
     s.out.len + (if s.acc.len = 0 then 0 else s.acc.len + 1) ≤ s.params.outLimit) ∧
    (let s := capped 0 (running .pack [] 0 [] [])
     s.Inv ∧ s.phase = .busy ∧ s.op = .pack ∧ s.work.l ≤ s.inp.pos ∧
     s.out.len + (if s.acc.len = 0 then 0 else s.acc.len + 1) ≤ s.params.outLimit) := ⟨by decide, by decide⟩
/-- The flush before a match one byte short; the token's offset byte without room (the flush fits exactly), and with
nothing pending; the flush of the 64th byte and the final flush (P5), each short of room. -/
theorem wit_PackFaultsWhenOutFills :
    (let s := capped 2 (running .pack [0x58, 0x41, 0x41, 0x41, 0x41, 0x41] 2 [] [0x58, 0x41])
     s.Inv ∧ s.phase = .busy ∧ s.op = .pack ∧ s.inp.pos < s.work.l ∧
     findBest s.inp.toByteStream s.work.l s.inp.pos = .ok (4, 1) ∧ s.params.outLimit < s.out.len + (s.acc.len + 1)) ∧
    (let s := capped 4 (running .pack [0x58, 0x41, 0x41, 0x41, 0x41, 0x41] 2 [] [0x58, 0x41])
     s.Inv ∧ findBest s.inp.toByteStream s.work.l s.inp.pos = .ok (4, 1) ∧
     s.out.len + (s.acc.len + 1) ≤ s.params.outLimit ∧ s.params.outLimit < s.out.len + (s.acc.len + 1) + 2) ∧
    (let s := capped 0 (running .pack [0x58, 0x41, 0x41, 0x41, 0x41, 0x41] 2 [] [])
     s.Inv ∧ findBest s.inp.toByteStream s.work.l s.inp.pos = .ok (4, 1) ∧ s.acc.len = 0 ∧
     s.params.outLimit < s.out.len + 2) ∧
    (let s := capped 64 (running .pack [0x41] 0 [] (copies 63 0x42))
     s.Inv ∧ s.inp.pos < s.work.l ∧ findBest s.inp.toByteStream s.work.l s.inp.pos = .ok (0, 0) ∧ s.acc.len = 63 ∧
     s.params.outLimit < s.out.len + 65) ∧
    (let s := capped 2 (running .pack [0x51, 0x52, 0x53] 3 [] [0x51, 0x52, 0x53])
     s.Inv ∧ s.work.l ≤ s.inp.pos ∧ s.params.outLimit < s.out.len + (s.acc.len + 1)) :=
  ⟨by decide, by decide, by decide, by decide, by decide⟩
theorem wit_PackStartMeetsPositionInvariant :
    let s := (loaded [0x41]).setHost [Cmd.pack.write, none]
    s.StreamsAtStart ∧ s.host = Cmd.pack.write :: [none] := by decide
/-- V6 at position 2, two literals pending. -/
theorem wit_PackKeepsPositionInvariant :
    let s := running .pack [0x58, 0x41, 0x41, 0x41, 0x41, 0x41] 2 [] [0x58, 0x41]
    s.Inv ∧ s.phase = .busy ∧ s.op = .pack ∧ s.PositionOk ∧ ∃ t, step s = .next t ∧ t.phase = .busy :=
  ⟨by decide, by decide, by decide, ⟨[], by decide, by decide, fun _ => rfl⟩, _, rfl, by decide⟩
theorem wit_EmitMatchSeekFaults :
    let s := (running .pack [0x41, 0x41, 0x41] 0 [] []).setBest 4 1
    s.inp.len < s.inp.pos + min s.mlen 195 := by decide
theorem wit_SeekFaultIsUnreachable :
    (running .pack [0x41] 0 [] []).Inv ∧ (running .pack [0x41] 0 [] []).status ≠ .seek ∧
    ∃ t, step (running .pack [0x41] 0 [] []) = .next t := ⟨by decide, by decide, ⟨_, rfl⟩⟩
theorem wit_CommandFrame : Instr.cmdPack.isToken = false ∧
    (∃ t, exec .cmdPack (running .pack [0x41] 0 [] []) = .next t) ∧
    (∃ t, exec .cmdFind (running .find [0x41] 0 [] []) = .next t) := ⟨rfl, ⟨_, rfl⟩, ⟨_, rfl⟩⟩

/-! ## The whole machine -/

theorem wit_StepKeepsInvariant : (running .pack [0x41] 0 [] [0x42]).Inv ∧
    ∃ t, step (running .pack [0x41] 0 [] [0x42]) = .next t := ⟨by decide, ⟨_, rfl⟩⟩
theorem wit_NoStepAccessesOutsideContract : (running .unpack [0xFF, 0x41] 0 [] []).Inv ∧
    (running .pack (copies 3 0x41) 2 [] (copies 63 0x42)).Inv := ⟨by decide, by decide⟩
theorem wit_OperationsTerminate : (running .unpack [0xFF, 0x41] 0 [] []).Inv ∧
    (running .unpack [0xFF, 0x41] 0 [] []).phase = .busy ∧ (running .unpack [0xFF, 0x41] 0 [] []).host = [] := by decide
/-- Two tokens, the second a copy that overlaps itself, OUT filled exactly. -/
theorem wit_UnpackRunsEveryWellFormedStream :
    let s := capped 5 ((loaded [0xC0, 0x41, 0x00, 0xFF]).setHost [Cmd.unpack.write])
    let ts := [Instr.litrun 0 [0x41], Instr.matchLo 0 0xFF]
    s.Inv ∧ s.phase ≠ .busy ∧ s.inp.pos = 0 ∧ s.host = [Cmd.unpack.write] ∧
    (∀ i ∈ ts, i.wf = true ∧ i.isToken = true) ∧ s.inp.bytes = streamBytes ts ∧
    streamEffect s.params.offsetZero ts s.out.bytes = some (copies 5 0x41) ∧
    (copies 5 0x41).length ≤ s.params.outLimit := by decide
/-- What PACK and UNPACK start from: IN is `41`, and its packed form `c0 41` (V15), each OUT with just enough room. -/
theorem wit_UnpackOfPackIsIdentity :
    let s := capped 2 ((loaded [0x41]).setHost [Cmd.pack.write])
    let u := capped 1 ((loaded [0xC0, 0x41]).setHost [Cmd.unpack.write])
    s.Inv ∧ s.StartOk s.packRoom ∧ s.host = [Cmd.pack.write] ∧
    u.Inv ∧ u.StartOk s.inp.len ∧ u.host = [Cmd.unpack.write] ∧
    ∃ t, Reaches 3 s t ∧ t.phase = .done ∧ u.inp.bytes = t.out.bytes :=
  ⟨by decide, by decide, by decide, by decide, by decide, by decide, _, rfl, by decide, by decide⟩
theorem wit_PackOutputBound :
    let s := capped 2 ((loaded [0x41]).setHost [Cmd.pack.write])
    s.Inv ∧ s.StartOk s.packRoom ∧ s.host = [Cmd.pack.write] := by decide
theorem wit_UnpackOutputBound :
    let s := (loaded [0xC0, 0x41]).setHost [Cmd.unpack.write]
    s.Inv ∧ s.StreamsAtStart ∧ s.host = [Cmd.unpack.write] ∧ ∃ t, Reaches 3 s t :=
  ⟨by decide, by decide, by decide, _, rfl⟩
theorem wit_PackWritesCanonicalStream :
    let s := capped 7 ((loaded [0x58, 0x41, 0x41, 0x41, 0x41, 0x41]).setHost [Cmd.pack.write])
    s.Inv ∧ s.StartOk s.packRoom ∧ s.host = [Cmd.pack.write] := by decide
/-- The bytes 0 to 63, and 0 to 64. -/
theorem wit_DistinctBytesPackAsLiteralRuns :
    (let s := (loaded ((List.range 64).map fun n => BitVec.ofNat 8 n)).setHost [Cmd.pack.write]
     s.Inv ∧ s.StartOk s.packRoom ∧ s.host = [Cmd.pack.write] ∧ s.inp.bytes.Nodup ∧ s.inp.len = 64) ∧
    (let s := (loaded ((List.range 65).map fun n => BitVec.ofNat 8 n)).setHost [Cmd.pack.write]
     s.Inv ∧ s.StartOk s.packRoom ∧ s.host = [Cmd.pack.write] ∧ s.inp.bytes.Nodup ∧ s.inp.len = 65) := ⟨by decide, by decide⟩
/-- The same accumulator over different stale bytes, and different scratch registers. -/
theorem wit_HiddenStateIsUnobservable :
    let s := running .pack [0x41] 0 [] []
    let t := (s.setAcc { mem := [(0, 0x51)], len := 0 }).setWork { s.work with k := 7, off := -3 }
    s.Inv ∧ t.Inv ∧ s.Alike t ∧ ∃ s', step s = .next s' := ⟨by decide, by decide, by decide, _, rfl⟩
theorem wit_InstancesAreIndependent : ∃ ts, instanceStep 1 [faulted, running .unpack [] 0 [] []] = .next ts := ⟨_, rfl⟩

end Sys2Proof.Tests
end

section
/-! PROOFS. What one step can do, said once: the moves of the host, and the operation that the sequencer runs. -/

namespace Sys2Proof.Machine

/-! ## Accepting any command, and the host's moves -/

/-- The moves the host has in state `s`, and the state each leads to (R197). -/
inductive HostEffect (s : State) : HostMove → State → Prop where
  | resetIn (h : s.phase ≠ .busy) : HostEffect s .resetIn (s.setInp s.inp.reset)
  | appendIn (b : Byte) (h : s.phase ≠ .busy) (room : s.inp.len < s.params.maxLen) :
      HostEffect s (.appendIn b) (s.setInp (s.inp.append b))
  | resetOut (h : s.phase ≠ .busy) : HostEffect s .resetOut (s.setOut s.out.reset)
  | readOnly (r : HostReg) (v : Nat) (hc : r ≠ .cmd) (ha : r ≠ .argP0) : HostEffect s (.write r v) s
  | argP0 (v : Nat) (h : s.phase ≠ .busy) (fits : v ≤ s.params.maxLen) :
      HostEffect s (.write .argP0 v) (s.setArgP0 v)
  | dropped (c : Cmd) (h : s.phase = .busy) : HostEffect s (.write .cmd c.code) s
  | writeNone (h : s.phase ≠ .busy) : HostEffect s (.write .cmd Cmd.none.code) s
  | start (c : Cmd) (hc : c ≠ .none) (h : s.phase ≠ .busy) : HostEffect s (.write .cmd c.code) (s.start c)
  | resetBlock : HostEffect s .resetBlock s.resetBlock

/-- The value written to CMD is the code of a command, or too wide (R35, R190). -/
theorem Cmd.exists_code {v : Nat} (h : v < 4) : ∃ c : Cmd, v = c.code :=
  match v, h with
  | 0, _ => ⟨.none, rfl⟩
  | 1, _ => ⟨.find, rfl⟩
  | 2, _ => ⟨.pack, rfl⟩
  | 3, _ => ⟨.unpack, rfl⟩

theorem Cmd.code_lt (c : Cmd) : c.code < 4 := by cases c <;> decide

section
variable (s : State) (c : Cmd)

@[simp] theorem State.start_params : (s.start c).params = s.params := by cases c <;> simp [State.start]
@[simp] theorem State.start_inp : (s.start c).inp = s.inp := by cases c <;> simp [State.start]
@[simp] theorem State.start_out : (s.start c).out = s.out := by cases c <;> simp [State.start]
@[simp] theorem State.start_acc_mem : (s.start c).acc.mem = s.acc.mem := by cases c <;> simp [State.start]
@[simp] theorem State.start_mlen : (s.start c).mlen = s.mlen := by cases c <;> simp [State.start]
@[simp] theorem State.start_mpos : (s.start c).mpos = s.mpos := by cases c <;> simp [State.start]
@[simp] theorem State.start_argP0 : (s.start c).argP0 = s.argP0 := by cases c <;> simp [State.start]
@[simp] theorem State.start_phase : (s.start c).phase = .busy := by cases c <;> simp [State.start]
@[simp] theorem State.start_op : (s.start c).op = c := by cases c <;> simp [State.start]
@[simp] theorem State.start_status : (s.start c).status = .ok := by cases c <;> simp [State.start]
@[simp] theorem State.start_info : (s.start c).info = 0 := by cases c <;> simp [State.start]
@[simp] theorem State.start_result : (s.start c).result = 0 := by cases c <;> simp [State.start]
@[simp] theorem State.start_host : (s.start c).host = s.host := by cases c <;> simp [State.start]

end

/-- A command other than NONE is accepted when no operation runs (R191). -/
theorem State.command_of_idle {s : State} (h : s.phase ≠ .busy) (c : Cmd) (run : State → Flow) :
    s.command c run = .next (s.start c) := if_neg h

/-- The instruction decoded from a command's code starts that command (R190, R191). -/
theorem exec_decodeCommand {s : State} (h : s.phase ≠ .busy) (c : Cmd) (hc : c ≠ .none) :
    exec (decodeCommand (BitVec.ofNat 2 c.code)) s = .next (s.start c) := by
  cases c with
  | none => exact absurd rfl hc
  | find => exact s.command_of_idle h .find runFind
  | pack => exact s.command_of_idle h .pack runPack
  | unpack => exact s.command_of_idle h .unpack runUnpack

/-- `exec` of the instruction CMD selects: NONE does nothing. -/
theorem exec_decodeCommand_none (s : State) : exec (decodeCommand (BitVec.ofNat 2 Cmd.none.code)) s = .next s := rfl

/-- The host port does what `HostEffect` lists, and refuses everything else. -/
theorem hostStep_eq_next_iff {s t : State} {m : HostMove} : hostStep m s = .next t ↔ HostEffect s m t := by
  constructor
  · intro h
    cases m with
    | resetIn =>
      by_cases hb : s.phase = .busy <;> simp only [hostStep, hb, if_true, if_false, reduceCtorEq] at h
      cases h; exact .resetIn hb
    | appendIn b =>
      by_cases hb : s.phase = .busy <;> simp only [hostStep, hb, if_true, if_false, reduceCtorEq] at h
      split_ifs at h with hr
      cases h; exact .appendIn b hb hr
    | resetOut =>
      by_cases hb : s.phase = .busy <;> simp only [hostStep, hb, if_true, if_false, reduceCtorEq] at h
      cases h; exact .resetOut hb
    | resetBlock => cases h; exact .resetBlock
    | write r v =>
      cases r with
      | cmd =>
        simp only [hostStep, hostWrite] at h
        split_ifs at h with hv hb
        · obtain ⟨c, rfl⟩ := Cmd.exists_code hv
          cases h; exact .dropped c hb
        · obtain ⟨c, rfl⟩ := Cmd.exists_code hv
          by_cases hc : c = .none
          · subst hc; cases h; exact .writeNone hb
          · rw [exec_decodeCommand hb c hc] at h
            cases h; exact .start c hc hb
      | argP0 =>
        simp only [hostStep, hostWrite] at h
        split_ifs at h with hb hv
        cases h; exact .argP0 v hb hv
      | _ => cases h; exact .readOnly _ v (by decide) (by decide)
  · intro h
    cases h with
    | resetIn hb => exact if_neg hb
    | appendIn b hb hr => exact (if_neg hb).trans (if_pos hr)
    | resetOut hb => exact if_neg hb
    | readOnly r v hc ha =>
      cases r with
      | cmd => exact absurd rfl hc
      | argP0 => exact absurd rfl ha
      | _ => rfl
    | argP0 v hb hv => exact (if_neg hb).trans (if_pos hv)
    | dropped c hb => exact (if_pos c.code_lt).trans (if_pos hb)
    | writeNone hb => simp only [hostStep, hostWrite, Cmd.code_lt, if_true, hb, if_false, exec_decodeCommand_none]
    | start c hc hb => exact (if_pos c.code_lt).trans ((if_neg hb).trans (exec_decodeCommand hb c hc))
    | resetBlock => rfl

/-- A move of the host leaves PHASE, STATUS and INFO as they are, unless it starts a command or resets the block. -/
theorem hostEffect_record {s t : State} {m : HostMove} (h : HostEffect s m t) :
    (t.phase = s.phase ∧ t.status = s.status ∧ t.info = s.info) ∨
    (∃ c, c ≠ Cmd.none ∧ m = .write .cmd c.code ∧ s.phase ≠ .busy ∧ t = s.start c) ∨
    (m = .resetBlock ∧ t = s.resetBlock) := by
  cases h with
  | start c hc hb => exact .inr (.inl ⟨c, hc, rfl, hb, rfl⟩)
  | resetBlock => exact .inr (.inr ⟨rfl, rfl⟩)
  | _ => exact .inl ⟨rfl, rfl, rfl⟩

/-! ## The sequencer's operation -/

theorem State.inputRemains_iff {s : State} : s.inputRemains = true ↔ s.inp.pos < s.work.l := decide_eq_true_iff

theorem State.inputRemains_eq_false_iff {s : State} : s.inputRemains = false ↔ s.work.l ≤ s.inp.pos :=
  decide_eq_false_iff_not.trans Nat.not_lt

/-- What the decoder reads is a well-formed token (R80, R85). -/
theorem decodeToken_wf_isToken {bytes rest : List Byte} {i : Instr} (h : decodeToken bytes = .ok (i, rest)) :
    i.wf = true ∧ i.isToken = true := by
  rcases decodeToken_cases bytes with ⟨_, he⟩ | ⟨_, _, _, _, _, he⟩ | ⟨_, _, _, he⟩ | ⟨nm1, data, _, _, hd, he⟩ |
    ⟨c, o, _, _, hl, he⟩ <;> rw [he] at h <;> cases h
  · exact ⟨by simpa [Instr.wf] using hd, rfl⟩
  · rcases decodeMatch_cases hl o with ⟨_, _, hm⟩ | ⟨_, _, hm⟩ <;> rw [hm] <;> exact ⟨rfl, rfl⟩

theorem fetchToken_of_decode {s : State} {i : Instr} {rest : List Byte}
    (h : decodeToken s.fetchBytes = .ok (i, rest)) : s.fetchToken = .ok i := by
  rw [State.fetchToken, h]; rfl

theorem fetchToken_wf_isToken {s : State} {i : Instr} (h : s.fetchToken = .ok i) : i.wf = true ∧ i.isToken = true := by
  unfold State.fetchToken at h
  cases hd : decodeToken s.fetchBytes with
  | error e => rw [hd] at h; cases h
  | ok p =>
    obtain ⟨j, rest⟩ := p
    rw [hd] at h
    cases h
    exact decodeToken_wf_isToken hd

/-- `exec` of a token is its statements. -/
theorem exec_of_isToken {i : Instr} (h : i.isToken = true) (s : State) : exec i s = (runToken i s).outcome := by
  cases i with
  | litrun => rfl
  | matchLo => rfl
  | matchHi => rfl
  | cmdNone => cases h
  | cmdFind => cases h
  | cmdPack => cases h
  | cmdUnpack => cases h

/-- One step of the operation that OP names; with OP = NONE there is none (log entry 14). -/
def runOperation (s : State) : Flow :=
  match s.op with
  | .none => .go s
  | .find => runFind s
  | .pack => runPack s
  | .unpack => runUnpack s

/-- While an operation runs, the sequencer runs one step of it (R20). -/
theorem sequencerStep_of_busy {s : State} (h : s.phase = .busy) : sequencerStep s = (runOperation s).outcome := by
  cases ho : s.op with
  | none => simp [sequencerStep, State.nextInstr, runOperation, h, ho]
  | find => simp [sequencerStep, State.nextInstr, runOperation, h, ho, exec, execFind, State.command]
  | pack => simp [sequencerStep, State.nextInstr, runOperation, h, ho, exec, execPack, State.command]
  | unpack =>
    simp only [sequencerStep, State.nextInstr, runOperation, h, ho, if_true, runUnpack]
    by_cases hr : s.inputRemains = true
    · simp only [hr, if_true]
      cases hf : s.fetchToken with
      | ok i => exact exec_of_isToken (fetchToken_wf_isToken hf).2 s
      | error e => rfl
    · simp [hr, exec, execUnpack, State.command, h, ho, runUnpack]

@[simp] theorem State.afterTurn_phase (s : State) : s.afterTurn.phase = s.phase := rfl
@[simp] theorem State.afterTurn_op (s : State) : s.afterTurn.op = s.op := rfl

/-- All a step can do: a move of the host, nothing while no operation runs, or one step of the operation that runs. -/
theorem step_cases {s t : State} (h : step s = .next t) :
    (∃ m rest, s.host = some m :: rest ∧ HostEffect (s.setHost rest) m t) ∨
    (s.sequencerTurn = true ∧ s.phase ≠ .busy ∧ t = s.afterTurn) ∨
    (s.sequencerTurn = true ∧ s.phase = .busy ∧ (runOperation s.afterTurn).outcome = .next t) := by
  by_cases hs : s.sequencerTurn = true
  · rw [step_of_sequencerTurn hs] at h
    by_cases hb : s.phase = .busy
    · rw [sequencerStep_of_busy (by exact hb)] at h
      exact .inr (.inr ⟨hs, hb, h⟩)
    · rw [sequencerStep_of_idle (by exact hb)] at h
      cases h
      exact .inr (.inl ⟨hs, hb, rfl⟩)
  · rcases hh : s.host with _ | ⟨_ | m, rest⟩
    · simp [State.sequencerTurn, hh] at hs
    · simp [State.sequencerTurn, hh] at hs
    · rw [step_of_hostTurn hh] at h
      exact .inl ⟨m, rest, rfl, hostStep_eq_next_iff.1 h⟩

end Sys2Proof.Machine
end

section
/-! PROOFS. Reset, what the host writes and reads, the instruction a step selects, a command accepted, and exception
entry. -/

open Sys2Proof Sys2Proof.Machine

/-- Settles O9: the move is `State.resetBlock`, whose fields are known. -/
theorem blockResetValues : Obligations.BlockResetValues := by
  intro s rest h
  refine ⟨(s.setHost rest).resetBlock, step_of_hostTurn h, ?_⟩
  simp [State.nextInstr]

/-- Settles O10: after reset no operation runs, so the sequencer does nothing. -/
theorem resetStateIsIdle : Obligations.ResetStateIsIdle := by
  have hstep : step State.reset = .next State.reset := sequencerStep_of_idle (s := State.reset) (by decide)
  exact ⟨rfl, rfl, rfl, rfl, rfl, rfl, rfl, rfl, rfl, hstep⟩

/-- Settles O11: the host's turn runs the command written, the sequencer's turn the instruction it selects. -/
theorem stepRunsSelectedInstruction : Obligations.StepRunsSelectedInstruction := by
  refine ⟨fun s v rest hb hv h => ?_, fun s hs => ?_⟩
  · rw [step_of_hostTurn h]
    exact (if_pos hv).trans (if_neg hb)
  · rw [step_of_sequencerTurn hs]
    refine ⟨fun hb => sequencerStep_of_idle hb, fun hb ho => ?_, fun hb ho => ?_, fun hb ho hl => ?_,
      fun hb ho hl i rest hd => ?_⟩
    · simp [sequencerStep, State.nextInstr, hb, ho]
    · simp [sequencerStep, State.nextInstr, hb, ho]
    · have hr : s.afterTurn.inputRemains = false := State.inputRemains_eq_false_iff.2 hl
      simp [sequencerStep, State.nextInstr, hb, ho, hr]
    · have hr : s.afterTurn.inputRemains = true := State.inputRemains_iff.2 hl
      have hf : s.afterTurn.fetchToken = .ok i := fetchToken_of_decode hd
      simp [sequencerStep, State.nextInstr, hb, ho, hr, hf]

/-- Settles O21: such a write is the host's move `readOnly`. -/
theorem readOnlyRegistersIgnoreHostWrites : Obligations.ReadOnlyRegistersIgnoreHostWrites := by
  intro s r v rest hc ha h
  rw [step_of_hostTurn h]
  exact hostStep_eq_next_iff.2 (.readOnly r v hc ha)

/-- Settles O22: the codes tell the values of PHASE, OP and STATUS apart; the streams by what the host reads of them. -/
theorem hostReadsCodesAndStreams : Obligations.HostReadsCodesAndStreams := by
  intro s
  have hphase : ∀ p q : Phase, some p.code = some q.code ↔ p = q := by
    intro p q; cases p <;> cases q <;> decide
  have hop : ∀ c d : Cmd, some c.code = some d.code ↔ c = d := by
    intro c d; cases c <;> cases d <;> decide
  have hstatus : ∀ x y : Status, some x.code = some y.code ↔ x = y := by
    intro x y; cases x <;> cases y <;> decide
  exact ⟨rfl, rfl, rfl, rfl, rfl, rfl, hphase _ .idle, hphase _ .busy, hphase _ .done, hphase _ .fault, hop _ .none,
    hop _ .find, hop _ .pack, hop _ .unpack, hstatus _ .ok, hstatus _ .seek, hstatus _ .truncated,
    hstatus _ .distance, hstatus _ .capacity, hostReads_of_busy, hostReads_of_idle⟩

/-- Settles O23: field by field, as the laws of `State.raise` say. -/
theorem exceptionEntry : Obligations.ExceptionEntry := by
  intro s x info
  simp

/-- Settles O15: acceptance is `State.start`, whose fields are known. -/
theorem commandAccepted : Obligations.CommandAccepted := by
  intro s i c hb hi
  have hcases : (i = .cmdFind ∧ c = .find) ∨ (i = .cmdPack ∧ c = .pack) ∨ (i = .cmdUnpack ∧ c = .unpack) := by
    simpa using hi
  rcases hcases with ⟨rfl, rfl⟩ | ⟨rfl, rfl⟩ | ⟨rfl, rfl⟩
  · exact ⟨s.start .find, s.command_of_idle hb .find runFind, by simp⟩
  · exact ⟨s.start .pack, s.command_of_idle hb .pack runPack, by simp⟩
  · exact ⟨s.start .unpack, s.command_of_idle hb .unpack runUnpack, by simp⟩

/-- Settles O49: no operation runs, all streams are empty and all registers are zero. -/
theorem resetMeetsInvariant : Obligations.ResetMeetsInvariant := by
  unfold Obligations.ResetMeetsInvariant
  decide
end

section
/-! PROOFS. The frame of the operations: what no statement of an operation changes, one rule per operation on the state,
then one lemma per statement. -/

namespace Sys2Proof.Machine

/-! ## The two frames -/

/-- What no statement of any operation changes: the bytes of IN and its length, ARG_P0, the parameters and the host's
moves; the cursor does not move back, OUT is append only, and no statement makes PHASE IDLE (R22, R23, R31, R37). -/
structure State.Frame (s t : State) : Prop where
  inp_mem : t.inp.mem = s.inp.mem
  inp_len : t.inp.len = s.inp.len
  inp_pos : s.inp.pos ≤ t.inp.pos
  argP0 : t.argP0 = s.argP0
  params : t.params = s.params
  host : t.host = s.host
  out_len : s.out.len ≤ t.out.len
  out_mem : ∀ a, ¬(s.out.len ≤ a ∧ a < t.out.len) → t.out.mem.read a = s.out.mem.read a
  phase : t.phase = .idle → s.phase = .idle

/-- The frame of a statement that also leaves the accumulator's storage and the match candidate as they are. -/
structure State.Quiet (s t : State) : Prop extends s.Frame t where
  acc_mem : t.acc.mem = s.acc.mem
  mlen : t.mlen = s.mlen
  mpos : t.mpos = s.mpos

theorem State.Frame.trans {s t u : State} (h : s.Frame t) (h' : t.Frame u) : s.Frame u where
  inp_mem := h'.inp_mem.trans h.inp_mem
  inp_len := h'.inp_len.trans h.inp_len
  inp_pos := h.inp_pos.trans h'.inp_pos
  argP0 := h'.argP0.trans h.argP0
  params := h'.params.trans h.params
  host := h'.host.trans h.host
  out_len := h.out_len.trans h'.out_len
  out_mem a ha := by
    have := h.out_len
    have := h'.out_len
    rw [h'.out_mem a (by omega), h.out_mem a (by omega)]
  phase hi := h.phase (h'.phase hi)

theorem State.Quiet.trans {s t u : State} (h : s.Quiet t) (h' : t.Quiet u) : s.Quiet u where
  toFrame := h.toFrame.trans h'.toFrame
  acc_mem := h'.acc_mem.trans h.acc_mem
  mlen := h'.mlen.trans h.mlen
  mpos := h'.mpos.trans h.mpos

/-! ## One rule per operation on the state -/

theorem State.Quiet.refl (s : State) : s.Quiet s :=
  ⟨⟨rfl, rfl, le_refl _, rfl, rfl, rfl, le_refl _, fun _ _ => rfl, id⟩, rfl, rfl, rfl⟩

/-- The working registers are no part of the frame. -/
theorem State.quiet_setWork (s : State) (w : Work) : s.Quiet (s.setWork w) :=
  ⟨⟨rfl, rfl, le_refl _, rfl, rfl, rfl, le_refl _, fun _ _ => rfl, id⟩, rfl, rfl, rfl⟩

theorem State.quiet_advance (s : State) {n : Nat} (h : s.inp.pos ≤ n) : s.Quiet (s.setInp { s.inp with pos := n }) :=
  ⟨⟨rfl, rfl, h, rfl, rfl, rfl, le_refl _, fun _ _ => rfl, id⟩, rfl, rfl, rfl⟩

theorem State.quiet_append (s : State) (b : Byte) : s.Quiet (s.setOut (s.out.append b)) :=
  ⟨⟨rfl, rfl, le_refl _, rfl, rfl, rfl, Nat.le_succ _,
    fun _ h => ByteStream.append_read_other (by simp at h; omega) b, id⟩, rfl, rfl, rfl⟩

theorem State.quiet_resetAcc (s : State) : s.Quiet (s.setAcc s.acc.reset) :=
  ⟨⟨rfl, rfl, le_refl _, rfl, rfl, rfl, le_refl _, fun _ _ => rfl, id⟩, rfl, rfl, rfl⟩

theorem State.quiet_finish (s : State) (r : Nat) : s.Quiet (s.finish r) :=
  ⟨⟨rfl, rfl, le_refl _, rfl, rfl, rfl, le_refl _, fun _ _ => rfl, nofun⟩, rfl, rfl, rfl⟩

theorem State.quiet_raise (s : State) (x : Status) (n : Nat) : s.Quiet (s.raise x n) :=
  ⟨⟨rfl, rfl, le_refl _, rfl, rfl, rfl, le_refl _, fun _ _ => rfl, nofun⟩, rfl, rfl, rfl⟩

theorem State.quiet_start (s : State) (c : Cmd) : s.Quiet (s.start c) := by
  constructor
  · constructor <;> simp
  all_goals simp

/-! ## Statements -/

/-- A statement, from `s`, ends in the frame of `s`. -/
abbrev Flow.Quiet (s : State) (x : Flow) : Prop := x.Post s.Quiet s.Quiet

theorem Flow.quiet_go (s : State) : Flow.Quiet s (.go s) := State.Quiet.refl s

/-- A statement that starts after `s` was moved to `u` inside its frame. -/
theorem Flow.Quiet.after {s u : State} {x : Flow} (h : s.Quiet u) (hx : Flow.Quiet u x) : Flow.Quiet s x :=
  Flow.Post.imp hx (fun _ => h.trans) (fun _ => h.trans)

theorem Flow.Quiet.andThen {s : State} {x : Flow} {f : State → Flow} (hx : Flow.Quiet s x)
    (hf : ∀ u, Flow.Quiet u (f u)) : Flow.Quiet s (x.andThen f) :=
  Flow.Post.andThen hx fun u hu => (hf u).after hu

theorem State.appendOut_quiet (s : State) (b : Byte) : Flow.Quiet s (s.appendOut b) :=
  State.appendOut_post (s.quiet_append b) (s.quiet_raise _ _)

theorem State.appendOutBytes_quiet : ∀ (bs : List Byte) (s : State), Flow.Quiet s (s.appendOutBytes bs)
  | [], s => Flow.quiet_go s
  | b :: bs, s => (s.appendOut_quiet b).andThen (State.appendOutBytes_quiet bs)

theorem State.readIn_quiet {s : State} {f : Byte → State → Flow} (hf : ∀ b u, Flow.Quiet u (f b u)) :
    Flow.Quiet s (s.readIn f) :=
  State.readIn_post fun _ => (hf _ _).after (s.quiet_advance (Nat.le_succ _))

/-! ## The decoder -/

theorem fetchControl_quiet (c : Byte) (s : State) : Flow.Quiet s (fetchControl c s) :=
  State.readIn_quiet fun _ u => u.quiet_setWork _

theorem fetchOffset_quiet (o : Byte) (s : State) : Flow.Quiet s (fetchOffset o s) :=
  State.readIn_quiet fun _ u => u.quiet_setWork _

theorem raiseTruncated_quiet (s : State) : Flow.Quiet s (raiseTruncated s) := s.quiet_raise _ _

theorem raiseDistance_quiet (s : State) : Flow.Quiet s (raiseDistance s) := s.quiet_raise _ _

theorem rejectToken_quiet (e : DecodeError) (s : State) : Flow.Quiet s (rejectToken e s) := by
  cases e with
  | endOfStream => trivial
  | _ =>
    refine (fetchControl_quiet _ s).andThen fun u => ?_
    split_ifs
    · exact raiseTruncated_quiet u
    · trivial

theorem copyLiterals_quiet : ∀ (bs : List Byte) (s : State), Flow.Quiet s (copyLiterals bs s)
  | [], s => Flow.quiet_go s
  | b :: bs, _ => State.readIn_quiet fun _ u => (u.appendOut_quiet b).andThen fun v =>
      (copyLiterals_quiet bs _).after (v.quiet_setWork _)

theorem copyMatch_quiet : ∀ (n : Nat) (s : State), Flow.Quiet s (copyMatch n s)
  | 0, s => Flow.quiet_go s
  | n + 1, s => by
    unfold copyMatch
    cases s.peekOut (s.work.base + s.work.i) with
    | error e => trivial
    | ok b => exact (s.appendOut_quiet b).andThen fun u => (copyMatch_quiet n _).after (u.quiet_setWork _)

theorem runLitrun_quiet (nm1 : BitVec 6) (data : List Byte) (s : State) : Flow.Quiet s (runLitrun nm1 data s) := by
  refine (fetchControl_quiet _ s).andThen fun u => ?_
  dsimp only
  split_ifs
  · exact (raiseTruncated_quiet _).after (u.quiet_setWork _)
  · exact (copyLiterals_quiet data _).after (u.quiet_setWork _)

theorem runMatch_quiet (c o : Byte) (s : State) : Flow.Quiet s (runMatch c o s) := by
  refine (fetchControl_quiet c s).andThen fun u => ?_
  split_ifs
  · exact raiseTruncated_quiet u
  · refine (fetchOffset_quiet o u).andThen fun v => ?_
    dsimp only
    split_ifs
    · exact raiseDistance_quiet v
    · exact (raiseDistance_quiet _).after (v.quiet_setWork _)
    · exact (copyMatch_quiet _ _).after ((v.quiet_setWork _).trans (State.quiet_setWork _ _))

theorem runToken_quiet (i : Instr) (s : State) : Flow.Quiet s (runToken i s) := by
  cases i with
  | litrun nm1 data => exact runLitrun_quiet nm1 data s
  | matchLo l o => exact runMatch_quiet _ o s
  | matchHi l o => exact runMatch_quiet _ o s
  | _ => exact Flow.quiet_go s

theorem runUnpack_quiet (s : State) : Flow.Quiet s (runUnpack s) := by
  unfold runUnpack
  split_ifs
  · cases s.fetchToken with
    | ok i => exact runToken_quiet i s
    | error e => exact rejectToken_quiet e s
  · exact s.quiet_finish _

/-! ## The matcher and FIND (R118) -/

/-- Of what a frame speaks of, the matcher writes the match candidate only. -/
theorem runMatcher_post (p0 : Nat) (s : State) : (runMatcher p0 s).Post
    (fun t => s.Frame t ∧ t.inp = s.inp ∧ t.out = s.out ∧ t.acc = s.acc) (fun _ => False) := by
  unfold runMatcher
  cases findBest s.inp.toByteStream s.work.l p0 with
  | error e => trivial
  | ok best => exact ⟨⟨rfl, rfl, le_refl _, rfl, rfl, rfl, le_refl _, fun _ _ => rfl, id⟩, rfl, rfl, rfl⟩

/-- FIND changes no stream. -/
theorem runFind_post (s : State) : (runFind s).Post
    (fun t => s.Frame t ∧ t.inp = s.inp ∧ t.out = s.out ∧ t.acc = s.acc)
    (fun t => s.Frame t ∧ t.inp = s.inp ∧ t.out = s.out ∧ t.acc = s.acc) := by
  refine Flow.Post.andThen ((runMatcher_post _ s).imp (fun _ => id) (fun _ => False.elim)) ?_
  rintro u ⟨hf, hi, ho, ha⟩
  exact ⟨hf.trans (u.quiet_finish _).toFrame, hi, ho, ha⟩

/-! ## The encoder and PACK -/

theorem flush_quiet (s : State) : Flow.Quiet s (flush s) := by
  rw [flush_eq]
  exact (s.appendOutBytes_quiet _).andThen fun u => u.quiet_resetAcc

theorem flushPending_quiet (s : State) : Flow.Quiet s (flushPending s) := by
  unfold flushPending
  split_ifs
  · exact flush_quiet s
  · exact Flow.quiet_go s

/-- The frame of PACK's statements: of the accumulator's storage only the byte at its end may change. -/
def State.PackFrame (s t : State) : Prop :=
  s.Frame t ∧ ∀ a, a ≠ s.acc.len → t.acc.mem.read a = s.acc.mem.read a

theorem State.Quiet.packFrame {s t : State} (h : s.Quiet t) : s.PackFrame t := ⟨h.toFrame, fun a _ => by rw [h.acc_mem]⟩

/-- EMIT_MATCH writes the match candidate by its clamp, and keeps the accumulator's storage. -/
theorem emitMatch_post (s : State) : (emitMatch s).Post (fun t => s.Frame t ∧ t.acc.mem = s.acc.mem)
    (fun t => s.Frame t ∧ t.acc.mem = s.acc.mem) := by
  have hstart : s.Frame (emitStart s) := ⟨rfl, rfl, le_refl _, rfl, rfl, rfl, le_refl _, fun _ _ => rfl, id⟩
  have hq : Flow.Quiet (emitStart s) (emitMatch s) := by
    by_cases h : s.inp.pos + clampLength s.mlen ≤ s.inp.len
    · rw [emitMatch_of_seeks h]
      exact (State.appendOutBytes_quiet _ _).after ((emitStart s).quiet_advance (Nat.le_add_right _ _))
    · rw [emitMatch_of_seek_fails (by omega)]
      exact (emitStart s).quiet_raise _ _
  exact hq.imp (fun t ht => ⟨hstart.trans ht.toFrame, ht.acc_mem⟩) (fun t ht => ⟨hstart.trans ht.toFrame, ht.acc_mem⟩)

/-- The frame from a state that has read one byte into the accumulator. -/
theorem State.packFrame_of_accumulated {s t : State} (b : Byte)
    (h : State.Quiet ((s.setInp { s.inp with pos := s.inp.pos + 1 }).setAcc (s.acc.append b)) t) : s.PackFrame t := by
  have hf : s.Frame ((s.setInp { s.inp with pos := s.inp.pos + 1 }).setAcc (s.acc.append b)) :=
    ⟨rfl, rfl, Nat.le_succ _, rfl, rfl, rfl, le_refl _, fun _ _ => rfl, id⟩
  refine ⟨hf.trans h.toFrame, fun a ha => ?_⟩
  rw [h.acc_mem]
  exact ByteStream.append_read_other ha b

/-- ACCUMULATE writes one byte at the accumulator's end. -/
theorem accumulate_post (s : State) : (accumulate s).Post s.PackFrame s.PackFrame := by
  refine State.readIn_post fun _ => ?_
  unfold State.appendAcc
  split_ifs
  · have hrest : ∀ u : State, Flow.Quiet u (if u.accFull then flush u else .go u) := fun u => by
      split_ifs
      · exact flush_quiet u
      · exact Flow.quiet_go u
    exact (hrest _).imp (fun _ => State.packFrame_of_accumulated (s.inp.mem.read s.inp.pos))
      (fun _ => State.packFrame_of_accumulated (s.inp.mem.read s.inp.pos))
  · trivial

theorem packIteration_post (s : State) : (packIteration s).Post s.PackFrame s.PackFrame := by
  refine Flow.Post.andThen ((runMatcher_post _ s).imp (fun _ => id) (fun _ => False.elim)) ?_
  rintro u ⟨hf, -, -, ha⟩
  have hframe : ∀ t, u.PackFrame t → s.PackFrame t := fun t ⟨ht, hm⟩ => ⟨hf.trans ht, ha ▸ hm⟩
  refine Flow.Post.imp (?_ : Flow.Post _ u.PackFrame u.PackFrame) hframe hframe
  split_ifs
  · refine Flow.Post.andThen ((flushPending_quiet u).imp (fun _ => id) (fun _ => State.Quiet.packFrame)) ?_
    intro v hv
    have hemit : ∀ t, v.Frame t ∧ t.acc.mem = v.acc.mem → u.PackFrame t := fun t ⟨ht, hm⟩ =>
      ⟨hv.toFrame.trans ht, fun a _ => by rw [hm, hv.acc_mem]⟩
    exact (emitMatch_post v).imp hemit hemit
  · exact accumulate_post u

theorem packEnd_quiet (s : State) : Flow.Quiet s (packEnd s) :=
  (flushPending_quiet s).andThen fun u => u.quiet_finish _

theorem runPack_post (s : State) : (runPack s).Post s.PackFrame s.PackFrame := by
  unfold runPack
  split_ifs
  · exact packIteration_post s
  · exact (packEnd_quiet s).imp (fun _ => State.Quiet.packFrame) (fun _ => State.Quiet.packFrame)

/-! ## Every operation -/

/-- One step of any operation stays in the frame. -/
theorem runOperation_post (s : State) : (runOperation s).Post s.Frame s.Frame := by
  unfold runOperation
  cases s.op with
  | none => exact (State.Quiet.refl s).toFrame
  | find => exact (runFind_post s).imp (fun _ h => h.1) (fun _ h => h.1)
  | pack => exact (runPack_post s).imp (fun _ h => h.1) (fun _ h => h.1)
  | unpack => exact (runUnpack_quiet s).imp (fun _ h => h.toFrame) (fun _ h => h.toFrame)

/-! ## Every command -/

/-- The frame of its statements, and what each command adds to it about the accumulator's storage, FIND's streams and the
match candidate. -/
def CommandFramed (i : Instr) (s t : State) : Prop :=
  s.Frame t ∧
  (∀ a, ¬(i = .cmdPack ∧ s.phase = .busy ∧ s.op = .pack ∧ a = s.acc.len) → t.acc.mem.read a = s.acc.mem.read a) ∧
  (i = .cmdFind → t.inp = s.inp ∧ t.out = s.out ∧ t.acc = s.acc) ∧
  (i ≠ .cmdFind ∧ i ≠ .cmdPack → t.mlen = s.mlen ∧ t.mpos = s.mpos)

theorem commandFramed_of_quiet {s t : State} {i : Instr} (hi : i ≠ .cmdFind) (h : s.Quiet t) : CommandFramed i s t :=
  ⟨h.toFrame, fun _ _ => by rw [h.acc_mem], fun he => absurd he hi, fun _ => ⟨h.mlen, h.mpos⟩⟩

theorem execFind_framed {s t : State} (h : execFind s = .next t) : CommandFramed .cmdFind s t := by
  have hstreams : s.Frame t ∧ t.inp = s.inp ∧ t.out = s.out ∧ t.acc = s.acc := by
    rcases s.command_cases .find runFind with ⟨-, he⟩ | ⟨-, -, he⟩ | ⟨-, -, he⟩
    · cases he.symm.trans h
      exact ⟨(s.quiet_start .find).toFrame, by simp⟩
    · exact (runFind_post s).outcome (he.symm.trans h)
    · cases he.symm.trans h
      exact ⟨(State.Quiet.refl s).toFrame, rfl, rfl, rfl⟩
  obtain ⟨hf, hinp, hout, hacc⟩ := hstreams
  exact ⟨hf, fun _ _ => by rw [hacc], fun _ => ⟨hinp, hout, hacc⟩, fun hne => absurd rfl hne.1⟩

theorem execPack_framed {s t : State} (h : execPack s = .next t) : CommandFramed .cmdPack s t := by
  rcases s.command_cases .pack runPack with ⟨-, he⟩ | ⟨hb, ho, he⟩ | ⟨-, -, he⟩
  · cases he.symm.trans h
    exact commandFramed_of_quiet nofun (s.quiet_start .pack)
  · obtain ⟨hf, hacc⟩ := (runPack_post s).outcome (he.symm.trans h)
    exact ⟨hf, fun a ha => hacc a fun hlen => ha ⟨rfl, hb, ho, hlen⟩, nofun, fun hne => absurd rfl hne.2⟩
  · cases he.symm.trans h
    exact commandFramed_of_quiet nofun (State.Quiet.refl s)

theorem execUnpack_framed {s t : State} (h : execUnpack s = .next t) : CommandFramed .cmdUnpack s t := by
  refine commandFramed_of_quiet nofun ?_
  rcases s.command_cases .unpack runUnpack with ⟨-, he⟩ | ⟨-, -, he⟩ | ⟨-, -, he⟩
  · cases he.symm.trans h
    exact s.quiet_start .unpack
  · exact (runUnpack_quiet s).outcome (he.symm.trans h)
  · cases he.symm.trans h
    exact State.Quiet.refl s

/-- Each command is accepted, runs one step, or is dropped, and each of these has its frame. -/
theorem exec_framed {s t : State} {i : Instr} (hi : i.isToken = false) (h : exec i s = .next t) :
    CommandFramed i s t := by
  cases i with
  | litrun => cases hi
  | matchLo => cases hi
  | matchHi => cases hi
  | cmdNone =>
    cases h
    exact commandFramed_of_quiet nofun (State.Quiet.refl s)
  | cmdFind => exact execFind_framed h
  | cmdPack => exact execPack_framed h
  | cmdUnpack => exact execUnpack_framed h

end Sys2Proof.Machine
end

section
/-! PROOFS. How PHASE and the fault record move, and the frame of the commands. -/

open Sys2Proof Sys2Proof.Machine

/-- Settles O17: of the host's moves only START and reset move PHASE, and no statement of an operation makes it IDLE. -/
theorem phaseMovesOnlyAsStated : Obligations.PhaseMovesOnlyAsStated := by
  intro s t h hne
  rcases step_cases h with ⟨m, rest, hs, heff⟩ | ⟨-, -, rfl⟩ | ⟨hturn, hb, hrun⟩
  · rcases hostEffect_record heff with ⟨hp, -, -⟩ | ⟨c, hc, rfl, hb, rfl⟩ | ⟨rfl, rfl⟩
    · exact absurd hp hne
    · exact .inl ⟨hb, by simp, c, rest, hc, hs, by simp⟩
    · exact .inr (.inr ⟨by simp, rest, hs⟩)
  · exact absurd rfl hne
  · have hidle : t.phase = .idle → s.phase = .idle := ((runOperation_post s.afterTurn).outcome hrun).phase
    refine .inr (.inl ⟨hb, hturn, ?_⟩)
    cases ht : t.phase with
    | idle => exact absurd (hb.symm.trans (hidle ht)) (by decide)
    | busy => exact absurd (ht.trans hb.symm) hne
    | done => exact .inl rfl
    | fault => exact .inr rfl

/-- Settles O18: after a fault no operation runs, so only the host's moves are left. -/
theorem faultRecordIsSticky : Obligations.FaultRecordIsSticky := by
  intro s t hf h
  rcases step_cases h with ⟨m, rest, hs, heff⟩ | ⟨-, -, rfl⟩ | ⟨-, hb, -⟩
  · rcases hostEffect_record heff with ⟨hp, hst, hi⟩ | ⟨c, hc, rfl, -, rfl⟩ | ⟨rfl, rfl⟩
    · exact .inl ⟨hp.trans hf, hst, hi⟩
    · exact .inr (.inl ⟨c, rest, hc, hs, by simp⟩)
    · exact .inr (.inr ⟨rest, hs, by simp⟩)
  · exact .inl ⟨hf, rfl, rfl⟩
  · exact absurd (hf.symm.trans hb) (by decide)

/-- Settles O47: the frame of the statements, field by field, and the command's own part. -/
theorem commandFrame : Obligations.CommandFrame := by
  intro s t i hi h
  obtain ⟨hf, hacc, hfind, hbest⟩ := exec_framed hi h
  exact ⟨fun _ => by rw [hf.inp_mem], hf.inp_len, hf.inp_pos, hf.argP0, hf.params, hf.host, hf.out_len, hf.out_mem,
    hacc, hfind, hbest⟩
end

section
/-! PROOFS. The invariant of the machine: one rule per operation on a running state, then one lemma per statement. Inside a
step of PACK the accumulator may hold its 64th byte, so the rules speak of the invariant without `State.AccOk`. -/

namespace Sys2Proof.Machine

/-! ## A running state -/

/-- The invariant of a running operation, but for what it says of the accumulator's length. -/
structure State.Running (s : State) : Prop where
  busy : s.phase = .busy
  streams : s.StreamsOk
  work : s.WorkFits
  registers : s.RegistersFit
  control : s.ControlOk

theorem State.Inv.running {s : State} (h : s.Inv) (hb : s.phase = .busy) : s.Running := by
  obtain ⟨hstreams, hwork, hregs, -, hcontrol⟩ := h
  exact ⟨hb, hstreams, hwork, hregs, hcontrol⟩

theorem State.Inv.acc_len_le {s : State} (h : s.Inv) : s.acc.len ≤ 63 := by
  obtain ⟨-, -, -, hacc, -⟩ := h
  unfold State.AccOk at hacc
  split_ifs at hacc <;> omega

/-- The accumulator is empty unless PACK runs (R149). -/
theorem State.Inv.acc_empty {s : State} (h : s.Inv) (hp : ¬(s.phase = .busy ∧ s.op = .pack)) : s.acc.len = 0 := by
  obtain ⟨-, -, -, hacc, -⟩ := h
  rwa [State.AccOk, if_neg hp] at hacc

theorem State.accOk_of_empty {s : State} (h : s.acc.len = 0) : s.AccOk := by
  unfold State.AccOk
  split_ifs <;> omega

namespace State.Running

variable {s : State} (h : s.Running)
include h

theorem inv (ha : s.AccOk) : s.Inv := ⟨h.streams, h.work, h.registers, ha, h.control⟩

theorem inv_of_empty (ha : s.acc.len = 0) : s.Inv := h.inv (State.accOk_of_empty ha)

theorem out_len_le : s.out.len ≤ s.params.maxLen := by
  obtain ⟨-, -, -, -, -, ho, -⟩ := h.streams
  exact ho.trans (outLimit_le_maxLen _)

theorem inp_pos_le : s.inp.pos ≤ s.params.maxLen := by
  obtain ⟨-, -, -, hp, hl, -, -⟩ := h.streams
  exact hp.trans hl

theorem l_eq : s.work.l = s.inp.len := by
  obtain ⟨-, -, -, -, hl, -⟩ := h.control
  exact hl h.busy

/-! One rule per operation. -/

theorem setWork {w : Work} (hw : (s.setWork w).WorkFits) (hl : w.l = s.work.l) (ho : w.out0 = s.work.out0) :
    (s.setWork w).Running where
  busy := h.busy
  streams := h.streams
  work := hw
  registers := h.registers
  control := by simpa [State.ControlOk, hl, ho] using h.control

theorem drawFree (n : Nat) : (s.drawFree n).Running := ⟨h.busy, h.streams, h.work, h.registers, h.control⟩

theorem advance {n : Nat} (hn : n ≤ s.inp.len) : (s.setInp { s.inp with pos := n }).Running where
  busy := h.busy
  streams := by
    obtain ⟨hi, ho, ha, -, hlen⟩ := h.streams
    exact ⟨hi, ho, ha, hn, hlen⟩
  work := h.work
  registers := h.registers
  control := h.control

theorem appendOut (hr : s.out.len < s.params.outLimit) (b : Byte) : (s.setOut (s.out.append b)).Running where
  busy := h.busy
  streams := by
    obtain ⟨hi, ho, ha, hpos, hlen, -, hcells⟩ := h.streams
    exact ⟨hi, ByteStream.append_wf ho b, ha, hpos, hlen, hr, hcells⟩
  work := h.work
  registers := h.registers
  control := by
    obtain ⟨h1, h2, h3, h4, h5, h6⟩ := h.control
    exact ⟨h1, h2, h3, h4, h5, fun hp => (h6 hp).trans (Nat.le_succ _)⟩

theorem appendAcc (hr : s.acc.len < 64) (b : Byte) : (s.setAcc (s.acc.append b)).Running where
  busy := h.busy
  streams := by
    obtain ⟨hi, ho, ha, hpos, hlen, hout, hcells⟩ := h.streams
    exact ⟨hi, ho, ByteStream.append_wf ha b, hpos, hlen, hout, ByteStream.append_all (decide_eq_true hr) hcells⟩
  work := h.work
  registers := h.registers
  control := h.control

theorem resetAcc : (s.setAcc s.acc.reset).Running := ⟨h.busy, h.streams, h.work, h.registers, h.control⟩

theorem setBest {len pos : Nat} (hl : len ≤ 195) (hp : pos ≤ s.params.maxLen) (hz : len = 0 ↔ pos = 0) :
    (s.setBest len pos).Running where
  busy := h.busy
  streams := h.streams
  work := h.work
  registers := by
    obtain ⟨ha, hi, hr, -⟩ := h.registers
    exact ⟨ha, hi, hr, hl, hp, hz⟩
  control := h.control

/-- The normal end of an operation, the accumulator empty. -/
theorem finish (ha : s.acc.len = 0) {r : Nat} (hr : r ≤ s.params.maxLen) : (s.finish r).Inv := by
  obtain ⟨-, -, hp0, -⟩ := h.work
  obtain ⟨hargP0, hinfo, -, hbest⟩ := h.registers
  obtain ⟨hstatus, hinfo0, -, hop, -⟩ := h.control
  have hop' : s.op ≠ .none := by simpa [h.busy] using hop
  have hstatus' : s.status = .ok := by simpa [h.busy] using hstatus
  have hfits : (s.finish r).WorkFits := releaseWork_fits (s := (s.setResult r).setPhase .done) hp0
  refine ⟨h.streams, hfits, ⟨hargP0, hinfo, hr, hbest⟩, State.accOk_of_empty ha, ?_⟩
  simp [State.ControlOk, hop', hstatus', hinfo0, h.busy]

/-- Taking an exception (R220). -/
theorem raise {x : Status} (hx : x ≠ .ok) {n : Nat} (hn : n ≤ s.params.maxLen) : (s.raise x n).Inv := by
  obtain ⟨-, -, hp0, -⟩ := h.work
  obtain ⟨hargP0, -, -, hbest⟩ := h.registers
  obtain ⟨-, -, -, hop, -⟩ := h.control
  have hop' : s.op ≠ .none := by simpa [h.busy] using hop
  have hfits : (s.raise x n).WorkFits :=
    releaseWork_fits (s := (((s.setStatus x n).setResult 0).setAcc s.acc.reset).setPhase .fault) hp0
  refine ⟨h.streams, hfits, ⟨hargP0, hn, Nat.zero_le _, hbest⟩, State.accOk_of_empty rfl, ?_⟩
  simp [State.ControlOk, hop', hx]

theorem raiseCapacity : (s.raise .capacity s.out.len).Inv := h.raise (by decide) h.out_len_le

end State.Running

/-- What follows an append to OUT runs in a running state; the append's own exception keeps the invariant. -/
theorem State.Running.appendOut_post {s : State} (h : s.Running) {b : Byte} {G : State → Prop}
    (hg : (s.setOut (s.out.append b)).Running → G (s.setOut (s.out.append b))) : (s.appendOut b).Post G State.Inv := by
  rcases s.appendOut_cases b with ⟨hr, he⟩ | ⟨-, he⟩
  · rw [he]; exact hg (h.appendOut hr b)
  · rw [he]; exact h.raiseCapacity

/-! ## The decoder's statements: the accumulator stays empty -/

/-- A running state whose accumulator is empty: UNPACK and FIND keep it between their statements. -/
structure State.Decoding (s : State) : Prop extends s.Running where
  empty : s.acc.len = 0

theorem State.Decoding.inv {s : State} (h : s.Decoding) : s.Inv := h.toRunning.inv_of_empty h.empty

theorem State.Decoding.setWork {s : State} (h : s.Decoding) {w : Work} (hw : (s.setWork w).WorkFits)
    (hl : w.l = s.work.l) (ho : w.out0 = s.work.out0) : (s.setWork w).Decoding :=
  ⟨h.toRunning.setWork hw hl ho, h.empty⟩

theorem State.Decoding.readIn_post {s : State} (h : s.Decoding) {f : Byte → State → Flow} {G : State → Prop}
    (hf : ∀ b, State.Decoding (s.setInp { s.inp with pos := s.inp.pos + 1 }) →
      (f b (s.setInp { s.inp with pos := s.inp.pos + 1 })).Post G State.Inv) : (s.readIn f).Post G State.Inv :=
  State.readIn_post fun hp => hf _ ⟨h.toRunning.advance hp, h.empty⟩

/-- The control byte read: of the work registers C alone changes. -/
theorem fetchControl_post {s : State} (h : s.Decoding) (c : Byte) :
    (fetchControl c s).Post State.Decoding State.Inv :=
  h.readIn_post fun _ hu => hu.setWork hu.work rfl rfl

theorem negoff_range (o : Byte) : -256 ≤ negoff o ∧ negoff o ≤ -1 := by
  have := o.isLt
  unfold negoff
  omega

theorem fetchOffset_post {s : State} (h : s.Decoding) (o : Byte) :
    (fetchOffset o s).Post (fun t => t.Decoding ∧ t.work.off ≤ -1) State.Inv := by
  refine h.readIn_post fun _ hu => ⟨hu.setWork ?_ rfl rfl, (negoff_range o).2⟩
  obtain ⟨hl, ho, hp0, hp, hbase, hk, hn, hi, -⟩ := hu.work
  have := negoff_range o
  exact ⟨hl, ho, hp0, hp, hbase, hk, hn, hi, this.1, by simp; omega⟩

theorem raiseTruncated_inv {s : State} {G : State → Prop} (h : s.Running) : (raiseTruncated s).Post G State.Inv :=
  h.raise (by decide) ((Nat.sub_le _ _).trans h.inp_pos_le)

theorem raiseDistance_inv {s : State} {G : State → Prop} (h : s.Running) : (raiseDistance s).Post G State.Inv :=
  h.raise (by decide) ((Nat.sub_le _ _).trans h.inp_pos_le)

theorem rejectToken_inv {s : State} (h : s.Decoding) (e : DecodeError) :
    (rejectToken e s).Post State.Inv State.Inv := by
  cases e with
  | endOfStream => trivial
  | _ =>
    refine (fetchControl_post h _).andThen fun u hu => ?_
    split_ifs
    · exact raiseTruncated_inv hu.toRunning
    · trivial

/-- Counting one byte appended keeps the registers in their widths up to the 255th. -/
theorem State.Decoding.countByte {s : State} (h : s.Decoding) (hi : s.work.i + 1 < 256) :
    (s.setWork { s.work with i := s.work.i + 1 }).Decoding := by
  obtain ⟨hl, ho, hp0, hp, hbase, hk, hn, -, hoff⟩ := h.work
  exact h.setWork ⟨hl, ho, hp0, hp, hbase, hk, hn, hi, hoff⟩ rfl rfl

theorem copyLiterals_inv : ∀ (bs : List Byte) {s : State}, s.Decoding → s.work.i + bs.length < 256 →
    (copyLiterals bs s).Post State.Decoding State.Inv
  | [], _, h, _ => h
  | b :: bs, s, h, hi => by
    rw [List.length_cons] at hi
    refine h.readIn_post fun _ hu => Flow.Post.andThen
      (hu.toRunning.appendOut_post (G := fun v => v.Decoding ∧ v.work = s.work) fun hv => ⟨⟨hv, hu.empty⟩, rfl⟩) ?_
    rintro v ⟨hv, hw⟩
    exact copyLiterals_inv bs (hv.countByte (by rw [hw]; omega)) (by simp [hw]; omega)

theorem copyMatch_inv : ∀ (n : Nat) {s : State}, s.Decoding → s.work.i + n < 256 →
    (copyMatch n s).Post State.Decoding State.Inv
  | 0, _, h, _ => h
  | n + 1, s, h, hi => by
    unfold copyMatch
    cases s.peekOut (s.work.base + s.work.i) with
    | error e => trivial
    | ok b =>
      refine Flow.Post.andThen
        (h.toRunning.appendOut_post (G := fun v => v.Decoding ∧ v.work = s.work) fun hv => ⟨⟨hv, h.empty⟩, rfl⟩) ?_
      rintro v ⟨hv, hw⟩
      exact copyMatch_inv n (hv.countByte (by rw [hw]; omega)) (by simp [hw]; omega)

theorem runLitrun_inv {s : State} (h : s.Decoding) {nm1 : BitVec 6} {data : List Byte}
    (hd : data.length = nm1.toNat + 1) : (runLitrun nm1 data s).Post State.Decoding State.Inv := by
  refine (fetchControl_post h _).andThen fun u hu => ?_
  have := nm1.isLt
  have hw : State.Decoding (u.setWork { u.work with n := litRunLength (litrunControl nm1), i := 0 }) := by
    obtain ⟨hl, ho, hp0, hp, hbase, hk, -, -, hoff⟩ := hu.work
    exact hu.setWork ⟨hl, ho, hp0, hp, hbase, hk, by simp; omega, by simp, hoff⟩ rfl rfl
  dsimp only
  split_ifs
  · exact raiseTruncated_inv hw.toRunning
  · exact copyLiterals_inv data hw (by simp; omega)

theorem matchLength_le_of_match {c : Byte} (h : isLiteral c = false) : matchLength c ≤ 195 := by
  have hall : ∀ c : Byte, isLiteral c = false → matchLength c ≤ 195 := by decide
  exact hall c h

theorem runMatch_inv {s : State} (h : s.Decoding) {c : Byte} (hc : isLiteral c = false) (o : Byte) :
    (runMatch c o s).Post State.Decoding State.Inv := by
  have hlen := matchLength_le_of_match hc
  refine (fetchControl_post h c).andThen fun u hu => ?_
  split_ifs
  · exact raiseTruncated_inv hu.toRunning
  refine (fetchOffset_post hu o).andThen fun v ⟨hv, hoff⟩ => ?_
  have hn : State.Decoding (v.setWork { v.work with n := matchLength c }) := by
    obtain ⟨hl, ho, hp0, hp, hbase, hk, -, hi⟩ := hv.work
    exact hv.setWork ⟨hl, ho, hp0, hp, hbase, hk, by simp; omega, hi⟩ rfl rfl
  dsimp only
  split_ifs
  · exact raiseDistance_inv hv.toRunning
  · exact raiseDistance_inv hn.toRunning
  · have hsource : (matchSource v.out.len v.work.off).toNat ≤ v.params.maxLen := by
      have := hv.out_len_le
      unfold matchSource
      omega
    obtain ⟨hl, ho, hp0, hp, -, hk, hn', -, hoff'⟩ := hn.work
    exact copyMatch_inv _ (hn.setWork ⟨hl, ho, hp0, hp, hsource, hk, hn', by simp, hoff'⟩ rfl rfl) (by simp; omega)

theorem runToken_inv {s : State} (h : s.Decoding) {i : Instr} (hi : i.wf = true) :
    (runToken i s).Post State.Decoding State.Inv := by
  cases i with
  | litrun nm1 data => exact runLitrun_inv h (by simpa [Instr.wf] using hi)
  | matchLo l o => exact runMatch_inv h (isLiteral_matchLoControl l) o
  | matchHi l o => exact runMatch_inv h (isLiteral_matchHiControl l) o
  | _ => exact h

theorem runUnpack_inv {s : State} (h : s.Decoding) : (runUnpack s).Post State.Inv State.Inv := by
  unfold runUnpack
  split_ifs
  · cases hf : s.fetchToken with
    | ok i => exact (runToken_inv h (fetchToken_wf_isToken hf).1).imp (fun _ => State.Decoding.inv) (fun _ => id)
    | error e => exact rejectToken_inv h e
  · exact h.finish h.empty h.out_len_le

/-! ## The matcher and FIND -/

/-- After the matcher at a cursor inside the widths: the answer is in range, and of the streams and registers only the
match candidate, P0, P and K may differ. -/
theorem runMatcher_inv {s : State} (h : s.Running) {p0 : Nat} (hp0 : p0 ≤ s.params.maxLen) : (runMatcher p0 s).Post
    (fun t => t.Running ∧ t.inp = s.inp ∧ t.acc = s.acc ∧ t.op = s.op ∧ t.mlen ≤ 195 ∧
      (1 ≤ t.mlen → p0 + t.mlen ≤ s.inp.len ∧ 1 ≤ t.mpos ∧ t.mpos < p0 ∧ p0 ≤ t.mpos + 255)) (fun _ => False) := by
  obtain ⟨len, pos, he, hbest⟩ := findBest_spec (p0 := p0) h.l_eq.le
  obtain ⟨hlen, hz, hpos⟩ := hbest.range
  have hl := h.l_eq
  have hbestRuns : (s.setBest len pos).Running := h.setBest hlen (by omega) hz
  have hfits : State.WorkFits ((s.setBest len pos).setWork
      { s.work with p0 := p0, p := s.freePosition 0, k := s.freeCount 0 }) := by
    obtain ⟨hl, ho, -, -, hbase, -, hrest⟩ := h.work
    exact ⟨hl, ho, hp0, s.freePosition_le 0, hbase, s.freeCount_lt 0, hrest⟩
  rw [runMatcher_of_ok he]
  exact ⟨(hbestRuns.setWork hfits rfl rfl).drawFree 1, rfl, rfl, rfl, hlen, hl ▸ hpos⟩

theorem runFind_inv {s : State} (h : s.Decoding) : (runFind s).Post State.Inv State.Inv := by
  obtain ⟨-, -, hp0, -⟩ := h.work
  refine Flow.Post.andThen ((runMatcher_inv h.toRunning hp0).imp (fun _ => id) (fun _ => False.elim)) ?_
  rintro u ⟨hu, hinp, hacc, -, -, hpos⟩
  have hlen : u.inp.len ≤ u.params.maxLen := by
    obtain ⟨-, -, -, -, hlen, -⟩ := hu.streams
    exact hlen
  exact hu.finish (by rw [hacc]; exact h.empty) (by rw [hinp] at hlen; omega)

/-! ## The encoder and PACK -/

theorem State.Running.appendOutBytes_post : ∀ (bs : List Byte) {s : State}, s.Running → (s.appendOutBytes bs).Post
    (fun t => t.Running ∧ t = s.setOut (s.out.appendBytes bs)) State.Inv
  | [], _, h => ⟨h, rfl⟩
  | b :: bs, s, h => by
    refine Flow.Post.andThen (h.appendOut_post (G := fun u => u.Running ∧ u = s.setOut (s.out.append b))
      fun hu => ⟨hu, rfl⟩) ?_
    rintro _ ⟨hu, rfl⟩
    exact State.Running.appendOutBytes_post bs hu

/-- After FLUSH the accumulator is empty, and cursor and match candidate are as before. -/
theorem flush_inv {s : State} (h : s.Running) : (flush s).Post
    (fun t => t.Running ∧ t.acc.len = 0 ∧ t.inp = s.inp ∧ t.mlen = s.mlen ∧ t.mpos = s.mpos) State.Inv := by
  rw [flush_eq]
  refine (h.appendOutBytes_post _).andThen ?_
  rintro _ ⟨hu, rfl⟩
  exact ⟨hu.resetAcc, rfl, rfl, rfl, rfl⟩

theorem flushPending_inv {s : State} (h : s.Running) : (flushPending s).Post
    (fun t => t.Running ∧ t.acc.len = 0 ∧ t.inp = s.inp ∧ t.mlen = s.mlen ∧ t.mpos = s.mpos) State.Inv := by
  rcases Nat.eq_zero_or_pos s.acc.len with hz | hp
  · rw [flushPending_of_zero hz]
    exact ⟨h, hz, rfl, rfl, rfl⟩
  · rw [flushPending_of_pos hp]
    exact flush_inv h

/-- EMIT_MATCH of a candidate behind the cursor and inside the window. -/
theorem emitMatch_inv {s : State} (h : s.Running) (ha : s.acc.len = 0) (hlen : s.mlen ≤ 195)
    (hpos : s.mpos < s.inp.pos ∧ s.inp.pos ≤ s.mpos + 255) : (emitMatch s).Post State.Inv State.Inv := by
  have hstart : (emitStart s).Running := by
    obtain ⟨-, -, -, -, hmpos, hz⟩ := h.registers
    obtain ⟨hl, ho, hp0, hp, hbase, hk, hn, hi, -⟩ := h.work
    rw [emitStart, clampLength_of_le hlen]
    refine (h.setBest hlen hmpos hz).setWork ⟨hl, ho, hp0, hp, hbase, hk, hn, hi, ?_⟩ rfl rfl
    simp only [State.setWork_work, matchOffset]
    omega
  by_cases hs : s.inp.pos + clampLength s.mlen ≤ s.inp.len
  · rw [emitMatch_of_seeks hs]
    refine ((hstart.advance hs).appendOutBytes_post _).imp ?_ fun _ => id
    rintro _ ⟨hu, rfl⟩
    exact hu.inv_of_empty ha
  · rw [emitMatch_of_seek_fails (by omega)]
    exact hstart.raise (by decide) h.inp_pos_le

/-- ACCUMULATE leaves at most 63 bytes: the 64th is flushed. -/
theorem accumulate_inv {s : State} (h : s.Running) (ho : s.op = .pack) (ha : s.acc.len ≤ 63) :
    (accumulate s).Post State.Inv State.Inv := by
  refine State.readIn_post fun hp => ?_
  rw [State.appendAcc_of_lt (by simp; omega), Flow.andThen_go]
  have hv := (h.advance hp).appendAcc (by simp; omega) (s.inp.mem.read s.inp.pos)
  split_ifs with hfull
  · exact (flush_inv hv).imp (fun _ ⟨ht, he, _⟩ => ht.inv_of_empty he) (fun _ => id)
  · refine hv.inv ?_
    have hne : ¬s.acc.len + 1 = 64 := by simpa [State.accFull] using hfull
    simp [State.AccOk, h.busy, ho]
    omega

theorem packIteration_inv {s : State} (h : s.Running) (ho : s.op = .pack) (ha : s.acc.len ≤ 63) :
    (packIteration s).Post State.Inv State.Inv := by
  refine Flow.Post.andThen ((runMatcher_inv h h.inp_pos_le).imp (fun _ => id) (fun _ => False.elim)) ?_
  rintro u ⟨hu, hinp, hacc, hop, hlen, hpos⟩
  split_ifs with husable
  · have h3 : 3 < u.mlen := by simpa [State.usable] using husable
    refine (flushPending_inv hu).andThen ?_
    rintro v ⟨hv, hempty, hvinp, hvlen, hvpos⟩
    exact emitMatch_inv hv hempty (by omega) (by rw [hvinp, hinp, hvpos]; omega)
  · exact accumulate_inv hu (hop.trans ho) (by rw [hacc]; exact ha)

theorem packEnd_inv {s : State} (h : s.Running) : (packEnd s).Post State.Inv State.Inv := by
  refine (flushPending_inv h).andThen ?_
  rintro u ⟨hu, hempty, -⟩
  exact hu.finish hempty ((Nat.sub_le _ _).trans hu.out_len_le)

theorem runPack_inv {s : State} (h : s.Running) (ho : s.op = .pack) (ha : s.acc.len ≤ 63) :
    (runPack s).Post State.Inv State.Inv := by
  unfold runPack
  split_ifs
  · exact packIteration_inv h ho ha
  · exact packEnd_inv h

/-- One step of the operation that runs keeps the invariant. -/
theorem runOperation_inv {s : State} (h : s.Inv) (hb : s.phase = .busy) :
    (runOperation s).Post State.Inv State.Inv := by
  have hrun := h.running hb
  unfold runOperation
  cases ho : s.op with
  | none => exact h
  | find => exact runFind_inv ⟨hrun, h.acc_empty (by simp [ho])⟩
  | pack => exact runPack_inv hrun ho h.acc_len_le
  | unpack => exact runUnpack_inv ⟨hrun, h.acc_empty (by simp [ho])⟩

/-! ## The host's moves -/

theorem Memory.all_writeList {p : Host.Cell → Bool} : ∀ (bs : List Byte) {m : Memory} (a : Nat),
    (∀ j < bs.length, ∀ b, p (a + j, b) = true) → m.all p = true → (m.writeList a bs).all p = true
  | [], _, _, _, hm => hm
  | b :: bs, _, a, hp, hm => by
    refine Memory.all_writeList bs (a + 1) (fun j hj b' => ?_) (Memory.all_write (hp 0 (by simp) b) hm)
    rw [Nat.add_assoc, Nat.add_comm 1]
    exact hp (j + 1) (by simpa using hj) b'

theorem State.freeStorage_wf (s : State) : s.freeStorage.wf = true := Memory.writeList_wf _ 0 rfl

/-- The free values fill the accumulator's 64 bytes and no more. -/
theorem State.freeStorage_all (s : State) : (s.freeStorage.all fun cell => decide (cell.1 < Config.accCap)) = true :=
  Memory.all_writeList _ 0 (fun j hj b => by simpa using hj) rfl

@[simp] theorem State.resetBlock_acc (s : State) : s.resetBlock.acc = { mem := s.freeStorage, len := 0 } := by
  simp [State.resetBlock]

theorem State.resetBlock_work (s : State) :
    s.resetBlock.work = { s.releaseWork.work with p0 := s.freePosition 4 } := by simp [State.resetBlock]

theorem resetBlock_inv {s : State} (h : s.Inv) : s.resetBlock.Inv := by
  obtain ⟨⟨hi, ho, -, hpos, hlen, hout, -⟩, ⟨-, -, hp0, -⟩, -, -, -⟩ := h
  have hstreams : s.resetBlock.StreamsOk := by
    simpa [State.StreamsOk, hi, ho, hpos, hlen, hout, s.freeStorage_wf] using s.freeStorage_all
  have hfits : s.resetBlock.WorkFits := by
    obtain ⟨hl, ho, -, hrest⟩ := releaseWork_fits hp0
    rw [State.WorkFits, s.resetBlock_work, s.resetBlock_params]
    exact ⟨hl, ho, s.freePosition_le 4, hrest⟩
  exact ⟨hstreams, hfits, by simp [State.RegistersFit], State.accOk_of_empty (by simp), by simp [State.ControlOk]⟩

/-- A command accepted while no operation runs (R191): its samples are of the streams. -/
theorem start_inv {s : State} (h : s.Inv) (hb : s.phase ≠ .busy) {c : Cmd} (hc : c ≠ .none) : (s.start c).Inv := by
  have ha := h.acc_empty fun hp => hb hp.1
  obtain ⟨hstreams, ⟨-, ho, hp0, hrest⟩, ⟨hargP0, -, -, hbest⟩, -, -⟩ := h
  have ⟨_, _, _, _, hlen, hlimit, _⟩ := hstreams
  have houtLen : s.out.len ≤ s.params.maxLen := hlimit.trans (outLimit_le_maxLen _)
  have hfits : (s.start c).WorkFits := by
    cases c with
    | none => exact absurd rfl hc
    | find => simpa [State.WorkFits] using ⟨hlen, ho, hargP0, hrest⟩
    | pack => simpa [State.WorkFits] using ⟨hlen, houtLen, hp0, hrest⟩
    | unpack => simpa [State.WorkFits] using ⟨hlen, ho, hp0, hrest⟩
  have hempty : (s.start c).acc.len = 0 := by
    cases c <;> simp [State.start, ha]
  have hcontrol : (s.start c).ControlOk := by
    cases c with
    | none => exact absurd rfl hc
    | _ => simp [State.ControlOk]
  refine ⟨?_, hfits, ?_, State.accOk_of_empty hempty, hcontrol⟩
  · simpa only [State.StreamsOk, State.start_inp, State.start_out, State.start_acc_mem, State.start_params] using hstreams
  · simpa [State.RegistersFit] using ⟨hargP0, hbest⟩

/-- While no operation runs, the host may replace a stream by one that meets its bounds. -/
theorem State.Inv.setInp_of_idle {s : State} (h : s.Inv) (hb : s.phase ≠ .busy) {v : InputStream}
    (hv : (s.setInp v).StreamsOk) : (s.setInp v).Inv := by
  obtain ⟨-, hwork, hregs, hacc, hstatus, hinfo, hresult, hop, -, -⟩ := h
  exact ⟨hv, hwork, hregs, hacc, hstatus, hinfo, hresult, hop, fun hp => absurd hp hb, fun hp => absurd hp.1 hb⟩

theorem State.Inv.setOut_of_idle {s : State} (h : s.Inv) (hb : s.phase ≠ .busy) {v : ByteStream}
    (hv : (s.setOut v).StreamsOk) : (s.setOut v).Inv := by
  obtain ⟨-, hwork, hregs, hacc, hstatus, hinfo, hresult, hop, -, -⟩ := h
  exact ⟨hv, hwork, hregs, hacc, hstatus, hinfo, hresult, hop, fun hp => absurd hp hb, fun hp => absurd hp.1 hb⟩

/-- Every move of the host keeps the invariant. -/
theorem hostEffect_inv {s t : State} {m : HostMove} (h : s.Inv) (he : HostEffect s m t) : t.Inv := by
  have ⟨⟨hi, ho, ha, hpos, hlen, hout, hcells⟩, hwork, ⟨_, hregs⟩, hacc, hcontrol⟩ := h
  cases he with
  | resetIn hb => exact h.setInp_of_idle hb ⟨hi, ho, ha, le_refl 0, Nat.zero_le _, hout, hcells⟩
  | appendIn b hb hr =>
    exact h.setInp_of_idle hb ⟨Memory.write_wf hi _ b, ho, ha, hpos.trans (Nat.le_succ _), hr, hout, hcells⟩
  | resetOut hb => exact h.setOut_of_idle hb ⟨hi, ho, ha, hpos, hlen, Nat.zero_le _, hcells⟩
  | argP0 v hb hv => exact ⟨⟨hi, ho, ha, hpos, hlen, hout, hcells⟩, hwork, ⟨hv, hregs⟩, hacc, hcontrol⟩
  | start c hc hb => exact start_inv h hb hc
  | resetBlock => exact resetBlock_inv h
  | _ => exact h

end Sys2Proof.Machine
end

section
/-! PROOFS. The invariant over a step of the machine. -/

open Sys2Proof Sys2Proof.Machine

/-- Settles O48: by what a step can do, a move of the host or one step of the operation that runs. -/
theorem stepKeepsInvariant : Obligations.StepKeepsInvariant := by
  intro s t h hstep
  rcases step_cases hstep with ⟨m, rest, -, heff⟩ | ⟨-, -, rfl⟩ | ⟨-, hb, hrun⟩
  · have hturn : (s.setHost rest).Inv := h
    exact hostEffect_inv hturn heff
  · exact h
  · have hturn : s.afterTurn.Inv := h
    exact (runOperation_inv hturn hb).outcome hrun
end

section
/-! PROOFS. Two runs side by side: states that the host and every rule see alike stay so, statement by statement. -/

namespace Sys2Proof.Machine

/-! ## States seen alike -/

/-- `State.Alike` with its parts named. -/
structure State.Twin (s t : State) : Prop where
  params : s.params = t.params
  inp : s.inp = t.inp
  out : s.out = t.out
  acc_len : s.acc.len = t.acc.len
  acc_live : ∀ a < s.acc.len, s.acc.mem.read a = t.acc.mem.read a
  mlen : s.mlen = t.mlen
  mpos : s.mpos = t.mpos
  argP0 : s.argP0 = t.argP0
  phase : s.phase = t.phase
  op : s.op = t.op
  status : s.status = t.status
  info : s.info = t.info
  result : s.result = t.result
  host : s.host = t.host
  live : s.phase = .busy → s.work.l = t.work.l ∧ (s.op = .pack → s.work.out0 = t.work.out0) ∧
    (s.op = .find → s.work.p0 = t.work.p0)

theorem State.alike_iff_twin {s t : State} : s.Alike t ↔ s.Twin t :=
  ⟨fun ⟨h1, h2, h3, h4, h5, h6, h7, h8, h9, h10, h11, h12, h13, h14, h15⟩ =>
    ⟨h1, h2, h3, h4, h5, h6, h7, h8, h9, h10, h11, h12, h13, h14, h15⟩,
  fun h => ⟨h.params, h.inp, h.out, h.acc_len, h.acc_live, h.mlen, h.mpos, h.argP0, h.phase, h.op, h.status, h.info,
    h.result, h.host, h.live⟩⟩

namespace State.Twin

variable {s t : State} (h : s.Twin t)
include h

/-- The live bytes of the accumulator are the same. -/
theorem acc_bytes : s.acc.bytes = t.acc.bytes := ByteStream.bytes_congr h.acc_len h.acc_live

/-! One rule per operation on the state. -/

theorem setInp (v : InputStream) : (s.setInp v).Twin (t.setInp v) := { h with inp := rfl }

theorem setOut (v : ByteStream) : (s.setOut v).Twin (t.setOut v) := { h with out := rfl }

theorem setBest (len pos : Nat) : (s.setBest len pos).Twin (t.setBest len pos) := { h with mlen := rfl, mpos := rfl }

theorem setArgP0 (v : Nat) : (s.setArgP0 v).Twin (t.setArgP0 v) := { h with argP0 := rfl }

theorem setHost (v : List (Option HostMove)) : (s.setHost v).Twin (t.setHost v) := { h with host := rfl }

/-- The turn used up on both sides. -/
theorem afterTurn : s.afterTurn.Twin t.afterTurn := by
  unfold State.afterTurn
  rw [← h.host]
  exact h.setHost _

/-- Writing working registers that agree where they are live. -/
theorem setWork {w w' : Work} (hw : s.phase = .busy → w.l = w'.l ∧ (s.op = .pack → w.out0 = w'.out0) ∧
    (s.op = .find → w.p0 = w'.p0)) : (s.setWork w).Twin (t.setWork w') := { h with live := hw }

theorem resetAcc : (s.setAcc s.acc.reset).Twin (t.setAcc t.acc.reset) := { h with acc_len := rfl, acc_live := nofun }

theorem appendAcc (hs : s.acc.mem.wf = true) (ht : t.acc.mem.wf = true) (b : Byte) :
    (s.setAcc (s.acc.append b)).Twin (t.setAcc (t.acc.append b)) where
  __ := h
  acc_len := congrArg (· + 1) h.acc_len
  acc_live a ha := by
    rcases Nat.lt_succ_iff_lt_or_eq.1 ha with hlt | rfl
    · have hne : a ≠ s.acc.len := by omega
      have hne' : a ≠ t.acc.len := by have := h.acc_len; omega
      show (s.acc.append b).mem.read a = (t.acc.append b).mem.read a
      rw [ByteStream.append_read_other hne, ByteStream.append_read_other hne', h.acc_live a hlt]
    · show (s.acc.append b).mem.read s.acc.len = (t.acc.append b).mem.read s.acc.len
      rw [ByteStream.append_read_same hs, h.acc_len, ByteStream.append_read_same ht]

theorem drawFree (n m : Nat) : (s.drawFree n).Twin (t.drawFree m) := { h with }

theorem setResult (v : Nat) : (s.setResult v).Twin (t.setResult v) := { h with result := rfl }

theorem setStatus (x : Status) (n : Nat) : (s.setStatus x n).Twin (t.setStatus x n) := { h with status := rfl, info := rfl }

/-- When no operation runs any more, no working register is live. -/
theorem setPhase {p : Phase} (hp : p ≠ .busy) : (s.setPhase p).Twin (t.setPhase p) :=
  { h with phase := rfl, live := fun hb => absurd hb hp }

theorem releaseWork (hp : s.phase ≠ .busy) : s.releaseWork.Twin t.releaseWork :=
  { h with live := fun hb => absurd hb hp }

theorem finish (r : Nat) : (s.finish r).Twin (t.finish r) :=
  ((h.setResult r).setPhase (by decide)).releaseWork (by simp)

theorem raise (x : Status) (n : Nat) : (s.raise x n).Twin (t.raise x n) :=
  ((((h.setStatus x n).setResult 0).resetAcc).setPhase (by decide)).releaseWork (by simp)

theorem resetBlock : s.resetBlock.Twin t.resetBlock where
  params := by simp [h.params]
  inp := by simp [h.inp]
  out := by simp [h.out]
  acc_len := by simp
  acc_live := by simp
  mlen := by simp
  mpos := by simp
  argP0 := by simp
  phase := by simp
  op := by simp
  status := by simp
  info := by simp
  result := by simp
  host := by simp [h.host]
  live := by simp

/-- Accepting a command samples registers and streams that are the same (R46). -/
theorem start (c : Cmd) : (s.start c).Twin (t.start c) where
  params := by simp [h.params]
  inp := by simp [h.inp]
  out := by simp [h.out]
  acc_len := by cases c <;> simp [State.start, h.acc_len]
  acc_live := by
    cases c with
    | pack => simp
    | _ => simpa [State.start] using h.acc_live
  mlen := by simp [h.mlen]
  mpos := by simp [h.mpos]
  argP0 := by simp [h.argP0]
  phase := by simp
  op := by simp
  status := by simp
  info := by simp
  result := by simp
  host := by simp [h.host]
  live := by cases c <;> simp [State.start, h.inp, h.out, h.argP0]

end State.Twin

/-- Every move of the host leads from states seen alike to states seen alike. -/
theorem hostEffect_twin {s t s' : State} {m : HostMove} (h : s.Twin t) (he : HostEffect s m s') :
    ∃ t', HostEffect t m t' ∧ s'.Twin t' := by
  cases he with
  | resetIn hb => exact ⟨_, .resetIn (h.phase ▸ hb), h.inp ▸ h.setInp _⟩
  | appendIn b hb hr => exact ⟨_, .appendIn b (h.phase ▸ hb) (by rw [← h.inp, ← h.params]; exact hr), h.inp ▸ h.setInp _⟩
  | resetOut hb => exact ⟨_, .resetOut (h.phase ▸ hb), h.out ▸ h.setOut _⟩
  | readOnly r v hc ha => exact ⟨_, .readOnly r v hc ha, h⟩
  | argP0 v hb hv => exact ⟨_, .argP0 v (h.phase ▸ hb) (h.params ▸ hv), h.setArgP0 v⟩
  | dropped c hb => exact ⟨_, .dropped c (h.phase ▸ hb), h⟩
  | writeNone hb => exact ⟨_, .writeNone (h.phase ▸ hb), h⟩
  | start c hc hb => exact ⟨_, .start c hc (h.phase ▸ hb), h.start c⟩
  | resetBlock => exact ⟨_, .resetBlock, h.resetBlock⟩

/-! ## Two statements side by side -/

/-- Two statements go on in states related by `G`, both raise and are seen alike, or both leave the contract by the same
access. -/
inductive Flow.Both (G : State → State → Prop) : Flow → Flow → Prop where
  | go {s t : State} (h : G s t) : Flow.Both G (.go s) (.go t)
  | raised {s t : State} (h : s.Twin t) : Flow.Both G (.raised s) (.raised t)
  | fault (e : Fault) : Flow.Both G (.fault e) (.fault e)

theorem Flow.Both.andThen {G G' : State → State → Prop} {x y : Flow} {f g : State → Flow} (h : Flow.Both G x y)
    (hf : ∀ u v, G u v → Flow.Both G' (f u) (g v)) : Flow.Both G' (x.andThen f) (y.andThen g) := by
  cases h with
  | go h => exact hf _ _ h
  | raised h => exact .raised h
  | fault e => exact .fault e

theorem Flow.Both.imp {G G' : State → State → Prop} {x y : Flow} (h : Flow.Both G x y) (hg : ∀ u v, G u v → G' u v) :
    Flow.Both G' x y := by
  cases h with
  | go h => exact .go (hg _ _ h)
  | raised h => exact .raised h
  | fault e => exact .fault e

theorem Flow.Both.outcome {x y : Flow} {s : State} (h : Flow.Both State.Twin x y) (hs : x.outcome = .next s) :
    ∃ t, y.outcome = .next t ∧ s.Twin t := by
  cases h with
  | go h => cases hs; exact ⟨_, rfl, h⟩
  | raised h => cases hs; exact ⟨_, rfl, h⟩
  | fault e => cases hs

/-- Both take the same branch. -/
theorem Flow.Both.ite {G : State → State → Prop} {p q : Prop} [Decidable p] [Decidable q] {x x' y y' : Flow}
    (hpq : p ↔ q) (h : Flow.Both G x y) (h' : Flow.Both G x' y') :
    Flow.Both G (if p then x else x') (if q then y else y') := by
  by_cases hp : p
  · rwa [if_pos hp, if_pos (hpq.1 hp)]
  · rwa [if_neg hp, if_neg (fun hq => hp (hpq.2 hq))]

/-- States seen alike in which the operation `c` runs. -/
structure State.Pair (c : Cmd) (s t : State) : Prop extends s.Twin t where
  busy : s.phase = .busy
  op_eq : s.op = c

namespace State.Pair

variable {c : Cmd} {s t : State} (h : State.Pair c s t)
include h

theorem l_eq : s.work.l = t.work.l := (h.live h.busy).1

/-- Writing working registers that carry nothing on (R26). -/
theorem setWork {w w' : Work} (hl : w.l = w'.l) (ho : c = .pack → w.out0 = w'.out0) (hp : c = .find → w.p0 = w'.p0) :
    State.Pair c (s.setWork w) (t.setWork w') :=
  ⟨h.toTwin.setWork fun _ => ⟨hl, fun hop => ho (h.op_eq ▸ hop), fun hop => hp (h.op_eq ▸ hop)⟩, h.busy, h.op_eq⟩

/-- In UNPACK only L is live. -/
theorem scratch (hc : c = .unpack) {w w' : Work} (hl : w.l = s.work.l) (hl' : w'.l = t.work.l) :
    State.Pair c (s.setWork w) (t.setWork w') :=
  h.setWork (hl.trans (h.l_eq.trans hl'.symm)) (by simp [hc]) (by simp [hc])

theorem setOut (v : ByteStream) : State.Pair c (s.setOut v) (t.setOut v) := ⟨h.toTwin.setOut v, h.busy, h.op_eq⟩

theorem setInp (v : InputStream) : State.Pair c (s.setInp v) (t.setInp v) := ⟨h.toTwin.setInp v, h.busy, h.op_eq⟩

theorem resetAcc : State.Pair c (s.setAcc s.acc.reset) (t.setAcc t.acc.reset) :=
  ⟨h.toTwin.resetAcc, h.busy, h.op_eq⟩

theorem readIn {G : State → State → Prop} {f g : Byte → State → Flow}
    (hf : ∀ b v, Flow.Both G (f b (s.setInp v)) (g b (t.setInp v))) : Flow.Both G (s.readIn f) (t.readIn g) := by
  unfold State.readIn
  rw [← h.inp]
  cases s.inp.read with
  | none => exact .fault _
  | some r => exact hf r.1 r.2

/-- The same byte goes to both outputs, and the working registers stay as they are. -/
theorem appendOut (b : Byte) : Flow.Both (fun u v => State.Pair c u v ∧ u.work = s.work ∧ v.work = t.work)
    (s.appendOut b) (t.appendOut b) := by
  unfold State.appendOut
  rw [← h.out, ← h.params]
  exact Flow.Both.ite Iff.rfl (.go ⟨h.setOut _, rfl, rfl⟩) (.raised (h.toTwin.raise _ _))

end State.Pair

theorem State.Pair.appendOutBytes {c : Cmd} : ∀ (bs : List Byte) {s t : State}, State.Pair c s t →
    Flow.Both (State.Pair c) (s.appendOutBytes bs) (t.appendOutBytes bs)
  | [], _, _, h => .go h
  | b :: bs, _, _, h => (h.appendOut b).andThen fun _ _ ⟨hu, _⟩ => State.Pair.appendOutBytes bs hu

/-! ## The decoder -/

theorem fetchControl_both {s t : State} (h : State.Pair .unpack s t) (c : Byte) :
    Flow.Both (State.Pair .unpack) (fetchControl c s) (fetchControl c t) :=
  h.readIn fun _ v => .go ((h.setInp v).scratch rfl rfl rfl)

theorem fetchOffset_both {s t : State} (h : State.Pair .unpack s t) (o : Byte) :
    Flow.Both (fun u v => State.Pair .unpack u v ∧ u.work.off = v.work.off) (fetchOffset o s) (fetchOffset o t) :=
  h.readIn fun _ v => .go ⟨(h.setInp v).scratch rfl rfl rfl, rfl⟩

theorem raiseTruncated_both {G : State → State → Prop} {s t : State} (h : s.Twin t) :
    Flow.Both G (raiseTruncated s) (raiseTruncated t) := by
  unfold raiseTruncated
  rw [← h.inp]
  exact .raised (h.raise _ _)

theorem raiseDistance_both {G : State → State → Prop} {s t : State} (h : s.Twin t) :
    Flow.Both G (raiseDistance s) (raiseDistance t) := by
  unfold raiseDistance
  rw [← h.inp]
  exact .raised (h.raise _ _)

theorem rejectToken_both {s t : State} (h : State.Pair .unpack s t) (e : DecodeError) :
    Flow.Both State.Twin (rejectToken e s) (rejectToken e t) := by
  cases e with
  | endOfStream =>
    simp only [rejectToken, h.inp]
    exact .fault _
  | _ =>
    refine (fetchControl_both h _).andThen fun u v hu => Flow.Both.ite (by rw [hu.l_eq, hu.inp])
      (raiseTruncated_both hu.toTwin) (hu.inp ▸ .fault _)

theorem copyLiterals_both : ∀ (bs : List Byte) {s t : State}, State.Pair .unpack s t →
    Flow.Both (State.Pair .unpack) (copyLiterals bs s) (copyLiterals bs t)
  | [], _, _, h => .go h
  | b :: bs, _, _, h => h.readIn fun _ v => ((h.setInp v).appendOut b).andThen fun _ _ ⟨hu, _⟩ =>
      copyLiterals_both bs (hu.scratch rfl rfl rfl)

/-- The match copy reads OUT at BASE + I, the same on both sides. -/
theorem copyMatch_both : ∀ (n : Nat) {s t : State}, State.Pair .unpack s t → s.work.base = t.work.base →
    s.work.i = t.work.i → Flow.Both (State.Pair .unpack) (copyMatch n s) (copyMatch n t)
  | 0, _, _, h, _, _ => .go h
  | n + 1, s, t, h, hbase, hi => by
    have hpeek : t.peekOut (t.work.base + t.work.i) = s.peekOut (s.work.base + s.work.i) := by
      simp [State.peekOut, h.out, hbase, hi]
    unfold copyMatch
    rw [hpeek]
    cases s.peekOut (s.work.base + s.work.i) with
    | error e => exact .fault e
    | ok b =>
      refine (h.appendOut b).andThen fun u v ⟨hu, hs, ht⟩ => ?_
      exact copyMatch_both n (hu.scratch rfl rfl rfl) (by simp [hs, ht, hbase]) (by simp [hs, ht, hi])

theorem runLitrun_both {s t : State} (h : State.Pair .unpack s t) (nm1 : BitVec 6) (data : List Byte) :
    Flow.Both (State.Pair .unpack) (runLitrun nm1 data s) (runLitrun nm1 data t) := by
  refine (fetchControl_both h _).andThen fun u v hu => ?_
  have hn := hu.scratch rfl (w := { u.work with n := litRunLength (litrunControl nm1), i := 0 })
    (w' := { v.work with n := litRunLength (litrunControl nm1), i := 0 }) rfl rfl
  exact Flow.Both.ite (by rw [hn.l_eq, hn.inp]) (raiseTruncated_both hn.toTwin) (copyLiterals_both data hn)

theorem runMatch_both {s t : State} (h : State.Pair .unpack s t) (c o : Byte) :
    Flow.Both (State.Pair .unpack) (runMatch c o s) (runMatch c o t) := by
  refine (fetchControl_both h c).andThen fun u v hu => ?_
  refine Flow.Both.ite (by rw [hu.l_eq, hu.inp]) (raiseTruncated_both hu.toTwin) ?_
  refine (fetchOffset_both hu o).andThen fun u v ⟨hu, hoff⟩ => ?_
  refine Flow.Both.ite (by rw [hu.params]) (raiseDistance_both hu.toTwin) ?_
  have hn := hu.scratch rfl (w := { u.work with n := matchLength c }) (w' := { v.work with n := matchLength c }) rfl rfl
  have hsource : matchSource u.out.len u.work.off = matchSource v.out.len v.work.off := by rw [hu.out, hoff]
  refine Flow.Both.ite (hsource ▸ Iff.rfl) (raiseDistance_both hn.toTwin) ?_
  exact copyMatch_both _ (hn.scratch rfl rfl rfl) (congrArg Int.toNat hsource) rfl

theorem runToken_both {s t : State} (h : State.Pair .unpack s t) (i : Instr) :
    Flow.Both (State.Pair .unpack) (runToken i s) (runToken i t) := by
  cases i with
  | litrun nm1 data => exact runLitrun_both h nm1 data
  | matchLo l o => exact runMatch_both h _ o
  | matchHi l o => exact runMatch_both h _ o
  | _ => exact .go h

theorem runUnpack_both {s t : State} (h : State.Pair .unpack s t) : Flow.Both State.Twin (runUnpack s) (runUnpack t) := by
  have hfetch : s.fetchToken = t.fetchToken := by simp [State.fetchToken, State.fetchBytes, h.inp, h.l_eq]
  unfold runUnpack
  refine Flow.Both.ite (by rw [State.inputRemains_iff, State.inputRemains_iff, h.inp, h.l_eq]) ?_ ?_
  · rw [← hfetch]
    cases s.fetchToken with
    | ok i => exact (runToken_both h i).imp fun _ _ => State.Pair.toTwin
    | error e => exact rejectToken_both h e
  · rw [← h.out]
    exact .go (h.toTwin.finish _)

/-! ## The matcher and FIND -/

/-- The matcher at one cursor finds the same candidate, and leaves the accumulators as they are. -/
theorem runMatcher_both {c : Cmd} {s t : State} (h : State.Pair c s t) (p0 : Nat) :
    Flow.Both (fun u v => State.Pair c u v ∧ u.acc = s.acc ∧ v.acc = t.acc) (runMatcher p0 s) (runMatcher p0 t) := by
  unfold runMatcher
  rw [← h.inp, ← h.l_eq]
  cases findBest s.inp.toByteStream s.work.l p0 with
  | error e => exact .fault e
  | ok best =>
    obtain ⟨hl, ho, -⟩ := h.live h.busy
    have hwork := ((h.toTwin.setBest best.1 best.2).setWork
      (w := { s.work with p0 := p0, p := s.freePosition 0, k := s.freeCount 0 })
      (w' := { t.work with p0 := p0, p := t.freePosition 0, k := t.freeCount 0 }) fun _ => ⟨hl, ho, fun _ => rfl⟩)
    exact .go ⟨⟨hwork.drawFree 1 1, h.busy, h.op_eq⟩, rfl, rfl⟩

theorem runFind_both {s t : State} (h : State.Pair .find s t) : Flow.Both State.Twin (runFind s) (runFind t) := by
  obtain ⟨-, -, hp0⟩ := h.live h.busy
  unfold runFind
  rw [← hp0 h.op_eq]
  refine (runMatcher_both h _).andThen fun u v ⟨hu, _, _⟩ => ?_
  rw [← hu.mlen]
  exact .go (hu.toTwin.finish _)

/-! ## The encoder and PACK -/

theorem flush_both {s t : State} (h : State.Pair .pack s t) :
    Flow.Both (State.Pair .pack) (flush s) (flush t) := by
  have hbytes : runBytes s.acc = runBytes t.acc := by rw [runBytes, runBytes, h.acc_len, h.acc_bytes]
  rw [flush_eq, flush_eq, ← hbytes]
  exact (h.appendOutBytes _).andThen fun u v hu => .go hu.resetAcc

theorem flushPending_both {s t : State} (h : State.Pair .pack s t) :
    Flow.Both (State.Pair .pack) (flushPending s) (flushPending t) :=
  Flow.Both.ite (by simp [State.accNonempty, h.acc_len]) (flush_both h) (.go h)

theorem emitStart_pair {s t : State} (h : State.Pair .pack s t) : State.Pair .pack (emitStart s) (emitStart t) := by
  obtain ⟨-, ho, -⟩ := h.live h.busy
  have hbest : State.Pair .pack (s.setBest (clampLength s.mlen) s.mpos) (t.setBest (clampLength s.mlen) s.mpos) :=
    ⟨h.toTwin.setBest _ _, h.busy, h.op_eq⟩
  unfold emitStart
  rw [← h.mlen, ← h.mpos]
  exact hbest.setWork h.l_eq (fun _ => ho h.op_eq) nofun

theorem emitMatch_both {s t : State} (h : State.Pair .pack s t) :
    Flow.Both (State.Pair .pack) (emitMatch s) (emitMatch t) := by
  have hstart := emitStart_pair h
  by_cases hs : s.inp.pos + clampLength s.mlen ≤ s.inp.len
  · rw [emitMatch_of_seeks hs, emitMatch_of_seeks (by rwa [← h.inp, ← h.mlen]), ← h.inp, ← h.mlen, ← h.mpos]
    exact (hstart.setInp _).appendOutBytes _
  · rw [emitMatch_of_seek_fails (by omega), emitMatch_of_seek_fails (by rw [← h.inp, ← h.mlen]; omega), ← h.inp]
    exact .raised (hstart.toTwin.raise _ _)

/-- ACCUMULATE puts the same byte at the same end of accumulators in canonical form. -/
theorem accumulate_both {s t : State} (h : State.Pair .pack s t) (hs : s.acc.mem.wf = true) (ht : t.acc.mem.wf = true) :
    Flow.Both (State.Pair .pack) (accumulate s) (accumulate t) := by
  refine h.readIn fun b v => Flow.Both.andThen (G := State.Pair .pack) ?_ fun u v hu => ?_
  · exact Flow.Both.ite (by simp [h.acc_len]) (.go ⟨(h.setInp v).toTwin.appendAcc hs ht b, h.busy, h.op_eq⟩) (.fault _)
  · exact Flow.Both.ite (by rw [State.accFull, State.accFull, hu.acc_len]) (flush_both hu) (.go hu)

theorem packIteration_both {s t : State} (h : State.Pair .pack s t) (hs : s.acc.mem.wf = true)
    (ht : t.acc.mem.wf = true) : Flow.Both (State.Pair .pack) (packIteration s) (packIteration t) := by
  unfold packIteration
  rw [← h.inp]
  refine (runMatcher_both h _).andThen fun u v ⟨hu, hus, hvt⟩ => ?_
  refine Flow.Both.ite (by rw [State.usable, State.usable, hu.mlen]) ?_ ?_
  · exact (flushPending_both hu).andThen fun _ _ hw => emitMatch_both hw
  · exact accumulate_both hu (hus ▸ hs) (hvt ▸ ht)

theorem packEnd_both {s t : State} (h : State.Pair .pack s t) : Flow.Both State.Twin (packEnd s) (packEnd t) := by
  refine (flushPending_both h).andThen fun u v hu => ?_
  obtain ⟨-, ho, -⟩ := hu.live hu.busy
  rw [← hu.out, ← ho hu.op_eq]
  exact .go (hu.toTwin.finish _)

theorem runPack_both {s t : State} (h : State.Pair .pack s t) (hs : s.acc.mem.wf = true) (ht : t.acc.mem.wf = true) :
    Flow.Both State.Twin (runPack s) (runPack t) :=
  Flow.Both.ite (by rw [State.inputRemains_iff, State.inputRemains_iff, h.inp, h.l_eq])
    ((packIteration_both h hs ht).imp fun _ _ => State.Pair.toTwin) (packEnd_both h)

/-! ## Every operation -/

theorem runOperation_both {s t : State} (h : s.Twin t) (hb : s.phase = .busy) (hs : s.acc.mem.wf = true)
    (ht : t.acc.mem.wf = true) : Flow.Both State.Twin (runOperation s) (runOperation t) := by
  unfold runOperation
  rw [← h.op]
  cases ho : s.op with
  | none => exact .go h
  | find => exact runFind_both ⟨h, hb, ho⟩
  | pack => exact runPack_both ⟨h, hb, ho⟩ hs ht
  | unpack => exact runUnpack_both ⟨h, hb, ho⟩

end Sys2Proof.Machine
end

section
/-! PROOFS. Hidden state. -/

open Sys2Proof Sys2Proof.Machine

/-- Settles O58: the same move of the host, or the same operation side by side, from states seen alike. -/
theorem hiddenStateIsUnobservable : Obligations.HiddenStateIsUnobservable := by
  intro s t s' hs ht halike hstep
  have h : s.Twin t := State.alike_iff_twin.1 halike
  simp only [State.alike_iff_twin]
  rcases step_cases hstep with ⟨m, rest, hhost, heff⟩ | ⟨hturn, hb, rfl⟩ | ⟨hturn, hb, hrun⟩
  · obtain ⟨t', heff', htwin⟩ := hostEffect_twin (h.setHost rest) heff
    exact ⟨t', (step_of_hostTurn (h.host ▸ hhost)).trans (hostStep_eq_next_iff.2 heff'), htwin⟩
  · have hturn' : t.sequencerTurn = true := by rwa [State.sequencerTurn, ← h.host]
    refine ⟨t.afterTurn, (step_of_sequencerTurn hturn').trans (sequencerStep_of_idle (h.phase ▸ hb)), ?_⟩
    exact h.afterTurn
  · have hturn' : t.sequencerTurn = true := by rwa [State.sequencerTurn, ← h.host]
    rw [step_of_sequencerTurn hturn', sequencerStep_of_busy (h.phase ▸ hb)]
    obtain ⟨⟨-, -, hsacc, -⟩, -⟩ := hs
    obtain ⟨⟨-, -, htacc, -⟩, -⟩ := ht
    exact (runOperation_both h.afterTurn hb hsacc htacc).outcome hrun
end

section
/-! PROOFS. The host's moves on the streams and ARG_P0, and the append to OUT. -/

open Sys2Proof Sys2Proof.Machine

/-- Settles O19: each of these moves tests PHASE before anything else. -/
theorem hostAccessWhileBusyRefused : Obligations.HostAccessWhileBusyRefused := by
  intro s m rest hb hs hm
  have hbusy : (s.setHost rest).phase = .busy := hb
  rw [step_of_hostTurn hs]
  rcases hm with rfl | rfl | ⟨b, rfl⟩ | ⟨v, rfl⟩ <;> exact if_pos hbusy

/-- Settles O20: the moves are among those `HostEffect` lists; the append to IN is the append to its byte stream. -/
theorem hostMovesWhileIdle : Obligations.HostMovesWhileIdle := by
  intro s rest hb hwf
  have hmove : ∀ {m t}, s.host = some m :: rest → HostEffect (s.setHost rest) m t → step s = .next t :=
    fun hs heff => (step_of_hostTurn hs).trans (hostStep_eq_next_iff.2 heff)
  refine ⟨fun hs => ⟨_, hmove hs (.resetIn hb), rfl, rfl, rfl⟩, fun b hs hroom => ?_,
    fun hs => ⟨_, hmove hs (.resetOut hb), rfl, rfl⟩, fun v hs hv => hmove hs (.argP0 v hb hv)⟩
  exact ⟨_, hmove hs (.appendIn b hb hroom), ByteStream.append_bytes hwf b, rfl, rfl⟩

/-- Settles O24: the two cases of the append to OUT, apart at the limit. -/
theorem appendRaisesWhenOutIsFull : Obligations.AppendRaisesWhenOutIsFull := by
  refine fun s b => ⟨fun hfull => ?_, fun hroom hwf => ?_⟩
  · exact ⟨_, State.appendOut_of_ge hfull b, rfl, rfl, rfl, rfl, rfl, rfl, rfl⟩
  · exact ⟨_, State.appendOut_of_lt hroom b, ByteStream.append_bytes hwf b, rfl⟩
end

section
/-! PROOFS. The fetch: a token stored in IN at the cursor is what the decoder reads. -/

namespace Sys2Proof

/-- The decoder reads a well-formed token off the front of its own bytes (R82, R84). -/
theorem decodeToken_tokenBytes_append {i : Instr} (hw : i.wf = true) (ht : i.isToken = true) (rest : List Byte) :
    decodeToken (tokenBytes i ++ rest) = .ok (i, rest) := by
  cases i with
  | litrun nm1 data => exact decodeToken_litrun (by simpa [Instr.wf] using hw) rest
  | matchLo l o => exact (decodeToken_match (isLiteral_matchLoControl l) o rest).trans (by rw [decodeMatch_lo])
  | matchHi l o => exact (decodeToken_match (isLiteral_matchHiControl l) o rest).trans (by rw [decodeMatch_hi])
  | _ => cases ht

/-- A well-formed token is 2 to 65 bytes long (R85). -/
theorem tokenBytes_length_range {i : Instr} (hw : i.wf = true) (ht : i.isToken = true) :
    2 ≤ (tokenBytes i).length ∧ (tokenBytes i).length ≤ 65 := by
  have hlength : Laws.EncodedLength.Statement i := by
    cases i with
    | litrun nm1 data => exact Laws.EncodedLength.litrun nm1 data
    | matchLo l o => exact Laws.EncodedLength.matchLo l o
    | matchHi l o => exact Laws.EncodedLength.matchHi l o
    | _ => cases ht
  simpa [ht] using hlength hw

end Sys2Proof

namespace Sys2Proof.Machine

/-- What the fetch gives the decoder begins with the bytes that stand in IN at the cursor, inside the sampled length and
no more than the longest token (R64, R85). -/
theorem take_fetchBytes {s : State} {bytes : List Byte} (h65 : bytes.length ≤ 65)
    (hl : s.inp.pos + bytes.length ≤ s.work.l) (hlen : s.work.l ≤ s.inp.len)
    (hb : ∀ j (h : j < bytes.length), s.inp.mem.read (s.inp.pos + j) = bytes[j]) :
    s.fetchBytes.take bytes.length = bytes := by
  refine List.ext_getElem ?_ fun j _ hj => ?_
  · simp [State.fetchBytes]; omega
  · simpa [State.fetchBytes] using hb j hj

/-- A token stored in IN at the cursor is fetched (R164). -/
theorem fetchToken_of_stored {s : State} {i : Instr} (hw : i.wf = true) (ht : i.isToken = true)
    (hl : s.inp.pos + (tokenBytes i).length ≤ s.work.l) (hlen : s.work.l ≤ s.inp.len)
    (hb : ∀ j (h : j < (tokenBytes i).length), s.inp.mem.read (s.inp.pos + j) = (tokenBytes i)[j]) :
    s.fetchToken = .ok i := by
  have hsplit := List.take_append_drop (tokenBytes i).length s.fetchBytes
  rw [take_fetchBytes (tokenBytes_length_range hw ht).2 hl hlen hb] at hsplit
  exact fetchToken_of_decode (hsplit ▸ decodeToken_tokenBytes_append hw ht _)

/-- In UNPACK with input remaining, the sequencer executes the token it fetches (R160, R164). -/
theorem sequencerStep_of_fetched {s : State} {i : Instr} (hb : s.phase = .busy) (ho : s.op = .unpack)
    (hr : s.inputRemains = true) (hf : s.fetchToken = .ok i) : sequencerStep s = exec i s := by
  simp [sequencerStep, State.nextInstr, hb, ho, hr, hf]

end Sys2Proof.Machine
end

section
/-! PROOFS. UNPACK's fetch. -/

open Sys2Proof Sys2Proof.Machine

/-- Settles O12: on the sequencer's turn the fetch reads the stored token. -/
theorem stepRunsTokenStoredInInput : Obligations.StepRunsTokenStoredInInput := by
  intro s i hturn hb ho hw ht hl hlen hbytes
  have hlong := (tokenBytes_length_range hw ht).1
  have hremains : s.afterTurn.inputRemains = true := State.inputRemains_iff.2 (show s.inp.pos < s.work.l by omega)
  have hfetch : s.afterTurn.fetchToken = .ok i := fetchToken_of_stored hw ht hl hlen hbytes
  exact (step_of_sequencerTurn hturn).trans (sequencerStep_of_fetched hb ho hremains hfetch)
end

section
/-! PROOFS. Where PACK fills OUT: each run of bytes that may be the first not to fit raises CapacityFault at the
limit. -/

namespace Sys2Proof.Machine

/-! ## One rule per statement that appends to OUT -/

/-- `t` is `s` after a CapacityFault in PACK, the match candidate and the cursor where they were. -/
def State.FilledOut (s t : State) : Prop := s.CapacityFaulted t ∧ t.mlen = s.mlen ∧ t.mpos = s.mpos ∧ t.inp = s.inp

/-- Bytes that do not fit fill OUT up to the limit (R57, R216). -/
theorem appendOutBytes_fills {s : State} {bs : List Byte} (hout : s.out.len ≤ s.params.outLimit)
    (hfull : s.params.outLimit < s.out.len + bs.length) : ∃ t, s.appendOutBytes bs = .raised t ∧ s.FilledOut t := by
  have hlen : (s.out.appendBytes (bs.take (s.params.outLimit - s.out.len))).len = s.params.outLimit := by
    rw [ByteStream.appendBytes_len, List.length_take]
    omega
  exact ⟨_, State.appendOutBytes_of_full bs hout hfull, ⟨rfl, rfl, rfl, hlen, rfl, rfl, rfl, rfl, rfl, rfl⟩, rfl, rfl,
    rfl⟩

theorem flush_fills {s : State} (hout : s.out.len ≤ s.params.outLimit)
    (hfull : s.params.outLimit < s.out.len + (s.acc.len + 1)) : ∃ t, flush s = .raised t ∧ s.FilledOut t := by
  obtain ⟨t, ht, hfilled⟩ := appendOutBytes_fills (bs := runBytes s.acc) hout (by rwa [runBytes_length])
  exact ⟨t, by rw [flush_eq, ht, Flow.andThen_raised], hfilled⟩

theorem flushPending_fills {s : State} (hout : s.out.len ≤ s.params.outLimit)
    (hfull : s.params.outLimit < s.out.len + (pendingBytes s.acc).length) :
    ∃ t, flushPending s = .raised t ∧ s.FilledOut t := by
  rw [pendingBytes_length] at hfull
  split_ifs at hfull with hz
  · omega
  · rw [flushPending_of_pos (by omega)]
    exact flush_fills hout hfull

/-- EMIT_MATCH whose two bytes do not fit: the cursor is past the match (R142, R219). -/
theorem emitMatch_fills {s : State} (hlen : s.mlen ≤ 195) (hseek : s.inp.pos + s.mlen ≤ s.inp.len)
    (hout : s.out.len ≤ s.params.outLimit) (hfull : s.params.outLimit < s.out.len + 2) : ∃ t,
    emitMatch s = .raised t ∧ State.FilledOut (s.setInp { s.inp with pos := s.inp.pos + s.mlen }) t := by
  have hclamp := clampLength_of_le hlen
  obtain ⟨t, ht, hfault, hmlen, hmpos, hinp⟩ := appendOutBytes_fills
    (s := (emitStart s).setInp { s.inp with pos := s.inp.pos + s.mlen })
    (bs := [matchControl s.mlen, offsetByte (matchOffset s.mpos s.inp.pos)]) hout hfull
  refine ⟨t, ?_, hfault, hmlen.trans hclamp, hmpos, hinp⟩
  rw [emitMatch_of_seeks (by rwa [hclamp]), hclamp, ht]

/-! ## One step of PACK -/

section
variable {s : State} {len pos : Nat} (hr : s.inp.pos < s.work.l)
  (hfind : findBest s.inp.toByteStream s.work.l s.inp.pos = .ok (len, pos))
include hr hfind

/-- The pending flush does not fit before a match: the fault comes before the seek. -/
theorem runPack_fills_at_flush (hout : s.out.len ≤ s.params.outLimit) (hlen : 3 < len)
    (hfull : s.params.outLimit < s.out.len + (pendingBytes s.acc).length) :
    ∃ t, runPack s = .raised t ∧ (afterMatcher s len pos).FilledOut t := by
  obtain ⟨t, ht, hfilled⟩ := flushPending_fills (s := afterMatcher s len pos) hout hfull
  exact ⟨t, by rw [runPack_of_match hr hfind hlen, ht, Flow.andThen_raised], hfilled⟩

/-- The pending flush fits and the match token after it does not: the cursor is past the match. -/
theorem runPack_fills_at_match (hl : s.work.l ≤ s.inp.len) (hlen : 3 < len)
    (hfits : s.out.len + (pendingBytes s.acc).length ≤ s.params.outLimit)
    (hfull : s.params.outLimit < s.out.len + (pendingBytes s.acc).length + 2) :
    ∃ t, runPack s = .raised t ∧
      State.FilledOut ((afterMatcher s len pos).setInp { s.inp with pos := s.inp.pos + len }) t := by
  obtain ⟨h195, -, hrange⟩ := (findBest_bestOf hl hfind).range
  obtain ⟨hbound, -⟩ := hrange (by omega)
  have hflush := flushPending_of_fits (s := afterMatcher s len pos) hfits
  obtain ⟨t, ht, hfilled⟩ := emitMatch_fills (s := ((afterMatcher s len pos).setOut
    (s.out.appendBytes (pendingBytes s.acc))).setAcc s.acc.reset) h195 (hbound.trans hl)
    (by simpa [afterMatcher] using hfits) (by simpa [afterMatcher] using hfull)
  exact ⟨t, by rw [runPack_of_match hr hfind hlen, hflush]; exact ht, hfilled⟩

/-- The flush of the 64th byte does not fit: the cursor is past the byte read (R144). -/
theorem runPack_fills_at_literal (hout : s.out.len ≤ s.params.outLimit) (hl : s.work.l ≤ s.inp.len) (hlen : len ≤ 3)
    (hacc : s.acc.len = 63) (hfull : s.params.outLimit < s.out.len + 65) : ∃ t, runPack s = .raised t ∧
      State.FilledOut ((afterMatcher s len pos).setInp { s.inp with pos := s.inp.pos + 1 }) t := by
  rw [runPack_of_literal hr hfind hlen, accumulate_of_eq (s := afterMatcher s len pos) (hr.trans_le hl) hacc]
  exact flush_fills hout (show s.params.outLimit < s.out.len + (s.acc.len + 1 + 1) by omega)

end

/-- The final flush does not fit (R145). -/
theorem runPack_fills_at_end {s : State} (hr : s.work.l ≤ s.inp.pos) (hout : s.out.len ≤ s.params.outLimit)
    (hfull : s.params.outLimit < s.out.len + (pendingBytes s.acc).length) :
    ∃ t, runPack s = .raised t ∧ s.FilledOut t := by
  obtain ⟨t, ht, hfilled⟩ := flushPending_fills hout hfull
  exact ⟨t, by rw [runPack_of_end hr, packEnd, ht, Flow.andThen_raised], hfilled⟩

/-- The command PACK while PACK runs is one step of it (log entry 1). -/
theorem exec_cmdPack_of_raised {s t : State} (hb : s.phase = .busy) (ho : s.op = .pack) (h : runPack s = .raised t) :
    exec .cmdPack s = .next t := by
  simp [exec, execPack, State.command, hb, ho, h]

end Sys2Proof.Machine
end

section
/-! PROOFS. PACK when OUT fills. -/

open Sys2Proof Sys2Proof.Machine

/-- Settles O42: by which bytes are the first not to fit, the pending flush, the match token, the flush of the 64th byte
or the final flush. -/
theorem packFaultsWhenOutFills : Obligations.PackFaultsWhenOutFills := by
  intro s h hb ho
  have hl := (h.running hb).l_eq.le
  obtain ⟨⟨-, -, -, -, -, hout, -⟩, -⟩ := h
  simp only [← pendingBytes_length]
  refine ⟨fun len pos hr hfind => ⟨fun hlen hfull => ?_, fun hlen hacc hfull => ?_⟩, fun hr hfull => ?_⟩
  · split_ifs with hflush
    · obtain ⟨t, ht, hfilled⟩ := runPack_fills_at_flush hr hfind hout hlen hflush
      exact ⟨t, exec_cmdPack_of_raised hb ho ht, hfilled⟩
    · obtain ⟨t, ht, hfilled⟩ := runPack_fills_at_match hr hfind hl hlen (by omega) hfull
      exact ⟨t, exec_cmdPack_of_raised hb ho ht, hfilled⟩
  · obtain ⟨t, ht, hfilled⟩ := runPack_fills_at_literal hr hfind hout hl hlen hacc hfull
    exact ⟨t, exec_cmdPack_of_raised hb ho ht, hfilled⟩
  · obtain ⟨t, ht, hfilled⟩ := runPack_fills_at_end hr hout hfull
    exact ⟨t, exec_cmdPack_of_raised hb ho ht, hfilled⟩
end

section
/-! PROOFS. No access outside the contract: what each statement needs so that its peeks and reads lie inside the streams
and no 65th byte reaches the accumulator. -/

namespace Sys2Proof.Machine

/-- A statement that ends, well or by an exception, without an access outside the contract (R56). -/
def Flow.Contained (x : Flow) : Prop := ∀ f, x ≠ .fault f

theorem Flow.contained_go (s : State) : (Flow.go s).Contained := nofun

theorem Flow.contained_raised (s : State) : (Flow.raised s).Contained := nofun

/-- A statement followed by one that is contained from every state. -/
theorem Flow.Contained.andThen {x : Flow} {f : State → Flow} (h : x.Contained)
    (hf : ∀ s, (f s).Contained) : (x.andThen f).Contained := by
  cases x with
  | go s => exact hf s
  | raised s => exact Flow.contained_raised s
  | fault e => exact absurd rfl (h e)

theorem Flow.Contained.outcome {x : Flow} (h : x.Contained) (f : Fault) : x.outcome ≠ .fault f := by
  cases x with
  | go s => nofun
  | raised s => nofun
  | fault e => exact absurd rfl (h e)

/-! ## OUT: an append raises where it does not fit -/

theorem State.appendOut_contained (s : State) (b : Byte) : (s.appendOut b).Contained := by
  rcases s.appendOut_cases b with ⟨-, he⟩ | ⟨-, he⟩
  · exact he ▸ Flow.contained_go _
  · exact he ▸ Flow.contained_raised _

theorem State.appendOutBytes_contained : ∀ (bs : List Byte) (s : State), (s.appendOutBytes bs).Contained
  | [], s => Flow.contained_go s
  | b :: bs, s => (s.appendOut_contained b).andThen (State.appendOutBytes_contained bs)

/-! ## The tokens (R165 to R171) -/

theorem copyLiterals_contained {s : State} {bs : List Byte} (hinp : s.inp.pos + bs.length ≤ s.inp.len)
    (hout : s.out.len ≤ s.params.outLimit) : (copyLiterals bs s).Contained := by
  by_cases hfits : s.out.len + bs.length ≤ s.params.outLimit
  · exact copyLiterals_of_fits bs hinp hfits ▸ Flow.contained_go _
  · exact copyLiterals_of_full bs hinp hout (by omega) ▸ Flow.contained_raised _

theorem copyMatch_contained {s : State} {n : Nat} (hsource : s.work.base + s.work.i < s.out.len)
    (hout : s.out.len ≤ s.params.outLimit) : (copyMatch n s).Contained := by
  by_cases hfits : s.out.len + n ≤ s.params.outLimit
  · exact copyMatch_of_fits n hsource hfits ▸ Flow.contained_go _
  · exact copyMatch_of_full n hsource hout (by omega) ▸ Flow.contained_raised _

section
variable {s : State} (hl : s.work.l = s.inp.len) (hr : s.inp.pos < s.inp.len) (hout : s.out.len ≤ s.params.outLimit)
include hl hr hout

/-- The run is there before its first byte is read. -/
theorem runLitrun_contained {nm1 : BitVec 6} {data : List Byte} (hd : data.length = nm1.toNat + 1) :
    (runLitrun nm1 data s).Contained := by
  by_cases ht : s.work.l - (s.inp.pos + 1) < nm1.toNat + 1
  · exact runLitrun_of_truncated hr ht ▸ Flow.contained_raised _
  · rw [runLitrun_of_present hr (by omega)]
    exact copyLiterals_contained (show s.inp.pos + 1 + data.length ≤ s.inp.len by omega) hout

/-- The source of the copy lies inside OUT. -/
theorem runMatch_contained (c o : Byte) : (runMatch c o s).Contained := by
  by_cases ht : s.work.l ≤ s.inp.pos + 1
  · exact runMatch_of_truncated hr ht ▸ Flow.contained_raised _
  by_cases hfar : (o = 0 ∧ s.params.offsetZero = .fault) ∨ s.out.len < distance o
  · obtain ⟨n, he⟩ := runMatch_of_far (c := c) (by omega) hl.le hfar
    exact he ▸ Flow.contained_raised _
  · obtain ⟨hzero, hnear⟩ := not_or.1 hfar
    have hd := distance_range o
    rw [runMatch_of_near (by omega) hl.le hzero (by omega)]
    exact copyMatch_contained (show s.out.len - distance o + 0 < s.out.len by omega) hout

theorem runToken_contained {i : Instr} (hi : i.wf = true) : (runToken i s).Contained := by
  cases i with
  | litrun nm1 data => exact runLitrun_contained hl hr hout (by simpa [Instr.wf] using hi)
  | matchLo l o => exact runMatch_contained hl hr hout _ o
  | matchHi l o => exact runMatch_contained hl hr hout _ o
  | _ => exact Flow.contained_go s

end

/-- Bytes the decoder rejects are a token that the sampled length cuts off, so the fetch raises TruncatedFault. -/
theorem rejectToken_contained {s : State} (hl : s.work.l = s.inp.len) (hr : s.inp.pos < s.inp.len) {e : DecodeError}
    (he : s.fetchToken = .error e) : (rejectToken e s).Contained := by
  obtain ⟨tail, hbytes, hlen, -⟩ := fetchBytes_cons hl hr
  unfold State.fetchToken at he
  rcases decodeToken_cases s.fetchBytes with ⟨hnil, -⟩ | ⟨c, rest, hb, -, hshort, hd⟩ | ⟨c, hb, -, hd⟩ |
    ⟨_, _, _, -, -, hd⟩ | ⟨_, _, _, -, -, hd⟩
  · exact absurd (hbytes.symm.trans hnil) nofun
  · obtain ⟨rfl, rfl⟩ := List.cons.inj (hbytes.symm.trans hb)
    rw [hd] at he
    cases he
    have := litRunLength_le (s.inp.mem.read s.inp.pos)
    rw [rejectToken, fetchControl_of_lt hr, Flow.andThen_go, if_pos (by simp; omega)]
    exact Flow.contained_raised _
  · obtain ⟨rfl, rfl⟩ := List.cons.inj (hbytes.symm.trans hb)
    rw [hd] at he
    cases he
    rw [List.length_nil] at hlen
    rw [rejectToken, fetchControl_of_lt hr, Flow.andThen_go, if_pos (by simp; omega)]
    exact Flow.contained_raised _
  · rw [hd] at he; cases he
  · rw [hd] at he; cases he

theorem runUnpack_contained {s : State} (hl : s.work.l = s.inp.len) (hout : s.out.len ≤ s.params.outLimit) :
    (runUnpack s).Contained := by
  unfold runUnpack
  split_ifs with hremains
  · have hr : s.inp.pos < s.inp.len := hl ▸ State.inputRemains_iff.1 hremains
    cases hf : s.fetchToken with
    | ok i => exact runToken_contained hl hr hout (fetchToken_wf_isToken hf).1
    | error e => exact rejectToken_contained hl hr hf
  · exact Flow.contained_go _

/-! ## The matcher and FIND -/

/-- Every peek of the search is inside the sampled length (R124). -/
theorem runMatcher_contained {s : State} (hl : s.work.l ≤ s.inp.len) (p0 : Nat) : (runMatcher p0 s).Contained := by
  obtain ⟨len, pos, hfind, -⟩ := findBest_spec (p0 := p0) hl
  exact runMatcher_of_ok hfind ▸ Flow.contained_go _

theorem runFind_contained {s : State} (hl : s.work.l ≤ s.inp.len) : (runFind s).Contained :=
  (runMatcher_contained hl _).andThen fun _ => Flow.contained_go _

/-! ## The encoder and PACK -/

theorem flush_contained (s : State) : (flush s).Contained := by
  rw [flush_eq]
  exact (s.appendOutBytes_contained _).andThen fun _ => Flow.contained_go _

theorem flushPending_contained (s : State) : (flushPending s).Contained := by
  unfold flushPending
  split_ifs
  · exact flush_contained s
  · exact Flow.contained_go s

theorem emitMatch_contained (s : State) : (emitMatch s).Contained := by
  by_cases hseek : s.inp.pos + clampLength s.mlen ≤ s.inp.len
  · rw [emitMatch_of_seeks hseek]
    exact State.appendOutBytes_contained _ _
  · rw [emitMatch_of_seek_fails (by omega)]
    exact Flow.contained_raised _

/-- With at most 63 bytes pending, ACCUMULATE appends no 65th byte (R252). -/
theorem accumulate_contained {s : State} (hr : s.inp.pos < s.inp.len) (ha : s.acc.len ≤ 63) :
    (accumulate s).Contained := by
  rcases Nat.lt_or_eq_of_le ha with hlt | heq
  · exact accumulate_of_lt hr hlt ▸ Flow.contained_go _
  · exact accumulate_of_eq hr heq ▸ flush_contained _

/-- A match is emitted by appends and a seek, a literal is taken with the cursor inside IN and at most 63 bytes
pending. -/
theorem runPack_contained {s : State} (hl : s.work.l ≤ s.inp.len) (ha : s.acc.len ≤ 63) : (runPack s).Contained := by
  by_cases hr : s.inp.pos < s.work.l
  · obtain ⟨len, pos, hfind, -⟩ := findBest_spec (p0 := s.inp.pos) hl
    by_cases hlen : 3 < len
    · rw [runPack_of_match hr hfind hlen]
      exact (flushPending_contained _).andThen emitMatch_contained
    · rw [runPack_of_literal hr hfind (by omega)]
      exact accumulate_contained (hr.trans_le hl) ha
  · rw [runPack_of_end (by omega)]
    exact (flushPending_contained s).andThen fun _ => Flow.contained_go _

/-! ## Every operation, and the host -/

/-- One step of the operation that runs stays within the contract. -/
theorem runOperation_contained {s : State} (h : s.Inv) (hb : s.phase = .busy) : (runOperation s).Contained := by
  have hl := (h.running hb).l_eq
  have ⟨⟨_, _, _, _, _, hout, _⟩, _⟩ := h
  unfold runOperation
  cases s.op with
  | none => exact Flow.contained_go s
  | find => exact runFind_contained hl.le
  | pack => exact runPack_contained hl.le h.acc_len_le
  | unpack => exact runUnpack_contained hl hout

theorem sequencerStep_ne_fault {s : State} (h : s.Inv) (f : Fault) : sequencerStep s ≠ .fault f := by
  by_cases hb : s.phase = .busy
  · rw [sequencerStep_of_busy hb]
    exact (runOperation_contained h hb).outcome f
  · rw [sequencerStep_of_idle hb]
    nofun

/-- A move of the host makes no access outside the contract: it leads to a next state or is refused. -/
theorem hostStep_ne_fault (m : HostMove) (s : State) (f : Fault) : hostStep m s ≠ .fault f := by
  cases m with
  | write r v =>
    cases r with
    | cmd =>
      simp only [hostStep, hostWrite]
      split_ifs with hv hb
      · nofun
      · obtain ⟨c, rfl⟩ := Cmd.exists_code hv
        by_cases hc : c = .none
        · subst hc; nofun
        · rw [exec_decodeCommand hb c hc]; nofun
      · nofun
    | argP0 => simp only [hostStep, hostWrite]; split_ifs <;> nofun
    | _ => nofun
  | resetBlock => nofun
  | _ => simp only [hostStep]; split_ifs <;> nofun

/-- When it is not the sequencer's turn, the host has a move. -/
theorem exists_hostTurn {s : State} (h : ¬s.sequencerTurn = true) : ∃ m rest, s.host = some m :: rest := by
  rcases hs : s.host with _ | ⟨_ | m, rest⟩
  · simp [State.sequencerTurn, hs] at h
  · simp [State.sequencerTurn, hs] at h
  · exact ⟨m, rest, rfl⟩

end Sys2Proof.Machine
end

section
/-! PROOFS. The contract over a step of the machine. -/

open Sys2Proof Sys2Proof.Machine

/-- Settles O50: a step is one of the sequencer or a move of the host, and neither leaves the contract. -/
theorem noStepAccessesOutsideContract : Obligations.NoStepAccessesOutsideContract := by
  intro s f h
  by_cases hturn : s.sequencerTurn = true
  · have hinv : s.afterTurn.Inv := h
    exact step_of_sequencerTurn hturn ▸ sequencerStep_ne_fault hinv f
  · obtain ⟨m, rest, hs⟩ := exists_hostTurn hturn
    exact step_of_hostTurn hs ▸ hostStep_ne_fault m _ f
end

section
/-! PROOFS. The token format: a match control byte and its row, and the fields of control and offset bytes, both
ways. -/

namespace Sys2Proof

/-! ## A match row by its control byte -/

/-- A match puts its control byte and its offset byte on the wire, whichever its row (R83, R84). -/
theorem tokenBytes_decodeMatch {c : Byte} (h : isLiteral c = false) (o : Byte) :
    tokenBytes (decodeMatch c o) = [c, o] := by
  rcases decodeMatch_cases h o with ⟨l, rfl, hm⟩ | ⟨l, rfl, hm⟩ <;> rw [hm] <;> rfl

/-- What the decoder reads of the bytes is the bytes (R85, R86). -/
theorem tokenBytes_append_of_decodeToken {bytes rest : List Byte} {i : Instr}
    (h : decodeToken bytes = .ok (i, rest)) : tokenBytes i ++ rest = bytes := by
  rcases decodeToken_cases bytes with ⟨_, he⟩ | ⟨_, _, _, _, _, he⟩ | ⟨_, _, _, he⟩ | ⟨nm1, data, _, rfl, _, he⟩ |
    ⟨c, o, _, rfl, hl, he⟩ <;> rw [he] at h <;> cases h
  · rfl
  · rw [tokenBytes_decodeMatch hl]; rfl

/-! ## The two kinds of control byte -/

/-- A literal-run control byte with its data bytes after it (R81, R85). -/
theorem decodeToken_of_isLiteral {c : Byte} (h : isLiteral c = true) {rest : List Byte}
    (hlen : litRunLength c ≤ rest.length) : decodeToken (c :: rest) =
      .ok (.litrun (c.extractLsb' 0 6) (rest.take (litRunLength c)), rest.drop (litRunLength c)) := by
  simp [decodeToken, h, Nat.not_lt.2 hlen]

/-- A literal-run control byte with fewer data bytes than it declares (R165). -/
theorem decodeToken_of_short_run {c : Byte} (h : isLiteral c = true) {rest : List Byte}
    (hlen : rest.length < litRunLength c) : decodeToken (c :: rest) = .error (.truncatedLiteralRun c) := by
  simp [decodeToken, h, hlen]

/-- A match control byte with nothing after it (R167). -/
theorem decodeToken_of_lone_match {c : Byte} (h : isLiteral c = false) :
    decodeToken [c] = .error (.truncatedMatch c) := by simp [decodeToken, h]

/-! ## The fields of a control byte and of an offset byte -/

/-- The encoder's length formula gives back the control byte whose length the decoder reads (R87). -/
theorem litControl_litRunLength {c : Byte} (h : isLiteral c = true) : litControl (litRunLength c) = c := by
  rw [litRunLength_eq, litControl_eq, litrunControl_extract c h]

/-- The encoder's match length formula gives back every control byte (R88). -/
theorem matchControl_matchLength (c : Byte) : matchControl (matchLength c) = c := by
  simp [matchControl, matchLength]

theorem toNat_litrunControl : ∀ nm1 : BitVec 6, (litrunControl nm1).toNat = 0xC0 + nm1.toNat := by decide

theorem toNat_matchControl {len : Nat} (h1 : 4 ≤ len) (h2 : len ≤ 195) : (matchControl len).toNat = len - 4 := by
  have h := (matchControl_spec h1 h2).2
  rw [matchLength, Config.matchBias] at h
  omega

theorem toNat_sixBits {n : Nat} (h : n < 64) : (BitVec.ofNat 6 n).toNat = n := by
  rw [BitVec.toNat_ofNat, Nat.mod_eq_of_lt h]

/-- The encoder's offset byte for the offset the decoder reads of `o` is `o` again (R89, R90). -/
theorem offsetByte_negoff (o : Byte) : offsetByte (negoff o) = o := by
  have := o.isLt
  apply BitVec.eq_of_toNat_eq
  simp only [offsetByte, negoff, BitVec.toNat_ofInt]
  omega

end Sys2Proof
end

section
/-! PROOFS. The token format, statement by statement. -/

open Sys2Proof Sys2Proof.Machine

/-- Settles O1: a token is read off the front of its own bytes, and each command code is its own. -/
theorem decodeEncodeRoundTrip : Obligations.DecodeEncodeRoundTrip := by
  intro i hw
  cases i with
  | litrun nm1 data => simpa [tokenBytes, encode, decode] using decodeToken_tokenBytes_append hw rfl []
  | matchLo l o => simpa [tokenBytes, encode, decode] using decodeToken_tokenBytes_append hw rfl []
  | matchHi l o => simpa [tokenBytes, encode, decode] using decodeToken_tokenBytes_append hw rfl []
  | cmdNone => rfl
  | cmdFind => rfl
  | cmdPack => rfl
  | cmdUnpack => rfl

/-- Settles O2: by what the decoder can answer. -/
theorem decodedTokenBytesAreTheStream : Obligations.DecodedTokenBytesAreTheStream := by
  intro bytes i rest h
  obtain ⟨hw, ht⟩ := decodeToken_wf_isToken h
  exact ⟨hw, ht, tokenBytes_append_of_decodeToken h⟩

/-- Settles O3: bits 7:6 tell the kind (R80), and 64 bytes after the control byte complete every token. -/
theorem controlByteDecidesKindAndLength : Obligations.ControlByteDecidesKindAndLength := by
  intro c rest h64
  by_cases hl : isLiteral c = true
  · have hbits := (isLiteral_iff c).1 hl
    have hrun := (litRunLength_le c).2
    refine ⟨_, _, decodeToken_of_isLiteral hl (by omega), fun _ => ⟨⟨_, rfl⟩, ?_⟩, fun hn => absurd hbits hn⟩
    rw [List.length_drop, ← Nat.add_comm _ 1, ← litRunLength_eq]
    omega
  · have hbits : c.extractLsb' 6 2 ≠ 3#2 := fun hb => hl ((isLiteral_iff c).2 hb)
    rw [Bool.not_eq_true] at hl
    cases rest with
    | nil => simp at h64
    | cons o tail =>
      refine ⟨_, _, decodeToken_match hl o tail, fun hb => absurd hb hbits, fun _ => ⟨?_, Nat.add_comm _ _⟩⟩
      rcases decodeMatch_cases hl o with ⟨l, -, hm⟩ | ⟨l, -, hm⟩
      · exact .inl ⟨l, o, hm⟩
      · exact .inr ⟨l, o, hm⟩

/-- Settles O4: a control byte of either kind, with and without the bytes it needs after it. -/
theorem onlyTruncatedTokensAreRejected : Obligations.OnlyTruncatedTokensAreRejected := by
  refine ⟨rfl, fun c rest => ⟨fun hl => ⟨fun h => ?_, decodeToken_of_short_run hl⟩, fun hm => ⟨fun h => ?_, ?_⟩, ?_⟩⟩
  · by_contra hlen
    rw [decodeToken_of_isLiteral hl (by omega)] at h
    cases h
  · cases rest with
    | nil => rfl
    | cons o tail => rw [decodeToken_match hm] at h; cases h
  · rintro rfl
    exact decodeToken_of_lone_match hm
  · rintro (⟨hl, hlen⟩ | ⟨hm, hne⟩)
    · exact ⟨_, _, decodeToken_of_isLiteral hl hlen⟩
    · obtain ⟨o, tail, rfl⟩ := List.exists_cons_of_ne_nil hne
      exact ⟨_, _, decodeToken_match hm o tail⟩

/-- Settles O5: the decoder evaluated on each word. -/
theorem sampleWordsDecode : Obligations.SampleWordsDecode :=
  ⟨rfl, rfl, rfl, rfl, rfl, rfl, rfl, rfl⟩

/-- Settles O6: a literal-run control byte is `0xC0` plus its six length bits (R81, R87). -/
theorem literalLengthField : Obligations.LiteralLengthField := by
  refine ⟨fun c hl => ⟨rfl, (litRunLength_le c).1, (litRunLength_le c).2, litControl_litRunLength hl⟩,
    fun len h1 h64 => ?_⟩
  have hbits : (BitVec.ofNat 6 (len - 1)).toNat = len - 1 := toNat_sixBits (by omega)
  rw [litControl_of_le h1 h64, toNat_litrunControl, litRunLength_litrunControl, hbits]
  exact ⟨by omega, isLiteral_litrunControl _, by omega⟩

/-- Settles O7: the control byte is the length less 4, and a length up to 195 keeps it below the literal tag (R88). -/
theorem matchLengthField : Obligations.MatchLengthField := by
  refine ⟨fun c hm => ⟨rfl, Nat.le_add_left 4 _, matchLength_le_of_match hm, matchControl_matchLength c⟩,
    fun len h4 h195 => ?_⟩
  exact ⟨toNat_matchControl h4 h195, matchControl_spec h4 h195⟩

/-- Settles O8: the offset byte is `256 + off`, so it is 0x00 for -256 alone (R89 to R91). -/
theorem offsetFieldAgrees : Obligations.OffsetFieldAgrees := by
  refine ⟨fun off h1 h2 => ⟨offsetByte_spec h1 h2, negoff_offsetByte h1 h2, fun hz => ?_⟩,
    fun o => ⟨(negoff_range o).1, (negoff_range o).2, fun _ => offsetByte_negoff o⟩, rfl⟩
  have hbyte := offsetByte_spec h1 h2
  rw [hz] at hbyte
  simp at hbyte
  omega
end

section
/-! PROOFS. Runs of the machine: an invariant along a run, and what a step is when the host has no move but the write
that starts the operation. -/

namespace Sys2Proof.Machine

theorem Reaches.cons {n : Nat} {s u t : State} (h : step s = .next u) (hr : Reaches n u t) : Reaches (n + 1) s t :=
  reaches_succ.2 ⟨u, h, hr⟩

/-- What every step keeps holds of every state reached. -/
theorem Reaches.invariant {P : State → Prop} (hP : ∀ s t, P s → step s = .next t → P t) : ∀ {n : Nat} {s t : State},
    Reaches n s t → P s → P t
  | 0, _, _, hr, hs => reaches_zero.1 hr ▸ hs
  | _ + 1, s, _, hr, hs => by
    obtain ⟨u, hu, hr'⟩ := reaches_succ.1 hr
    exact Reaches.invariant hP hr' (hP s u hs hu)

/-- The write of CMD that starts an operation, the host's last move (R191). -/
theorem step_of_commandWrite {s : State} {c : Cmd} (hc : c ≠ .none) (hb : s.phase ≠ .busy)
    (hs : s.host = [c.write]) : step s = .next ((s.setHost []).start c) :=
  (step_of_hostTurn hs).trans (hostStep_eq_next_iff.2 (.start c hc hb))

/-- With no move of the host left, a step of a running operation is the operation's. -/
theorem step_of_running {s : State} (hs : s.host = []) (hb : s.phase = .busy) :
    step s = (runOperation s).outcome := by
  simpa only [step, hs] using sequencerStep_of_busy hb

theorem runOperation_of_unpack {s : State} (ho : s.op = .unpack) : runOperation s = runUnpack s := by
  simp [runOperation, ho]

theorem runOperation_of_pack {s : State} (ho : s.op = .pack) : runOperation s = runPack s := by
  simp [runOperation, ho]

/-- Once the host has no move left and no operation runs, a step changes nothing (R230). -/
theorem step_of_ended {s : State} (hs : s.host = []) (hb : s.phase ≠ .busy) : step s = .next s := by
  simpa only [step, hs] using sequencerStep_of_idle hb

end Sys2Proof.Machine
end

section
/-! PROOFS. UNPACK: a token that has an effect on the output completes with it, so a stream of tokens that have one runs
to its end. -/

namespace Sys2Proof.Machine

/-! ## The effect of tokens on a list -/

/-- A match has an effect when its source lies inside the output; it appends what R171 says. -/
theorem matchEffect_eq_some {z : OffsetZero} {c o : Byte} {out out' : List Byte}
    (h : matchEffect z c o out = some out') :
    ¬(o = 0 ∧ z = .fault) ∧ distance o ≤ out.length ∧
    out' = out ++ (List.range (matchLength c)).map fun j => out.getD (out.length - distance o + j % distance o) 0 := by
  unfold matchEffect at h
  split_ifs at h with hzero hfar
  exact ⟨hzero, Nat.not_lt.1 hfar, (Option.some.inj h).symm⟩

/-- A token's effect is longer by the bytes the token stands for (R87, R88). -/
theorem tokenEffect_length {z : OffsetZero} {i : Instr} {out out' : List Byte} (h : tokenEffect z i out = some out') :
    out'.length = out.length + i.outputLength := by
  cases i with
  | litrun nm1 data => cases h; simp [Instr.outputLength]
  | matchLo l o => obtain ⟨-, -, rfl⟩ := matchEffect_eq_some h; simp [Instr.outputLength]
  | matchHi l o => obtain ⟨-, -, rfl⟩ := matchEffect_eq_some h; simp [Instr.outputLength]
  | _ => cases h; rfl

theorem streamEffect_cons {z : OffsetZero} {i : Instr} {ts : List Instr} {out out' : List Byte} :
    streamEffect z (i :: ts) out = some out' ↔
      ∃ mid, tokenEffect z i out = some mid ∧ streamEffect z ts mid = some out' := by
  rw [streamEffect]
  cases tokenEffect z i out with
  | none => simp
  | some mid => simp

theorem streamEffect_length_le {z : OffsetZero} : ∀ {ts : List Instr} {out out' : List Byte},
    streamEffect z ts out = some out' → out.length ≤ out'.length
  | [], _, _, h => by cases h; exact le_refl _
  | _ :: _, _, _, h => by
    obtain ⟨mid, hi, hts⟩ := streamEffect_cons.1 h
    have := tokenEffect_length hi
    have := streamEffect_length_le hts
    omega

theorem streamBytes_cons (i : Instr) (ts : List Instr) : streamBytes (i :: ts) = tokenBytes i ++ streamBytes ts := by
  simp [streamBytes]

/-! ## The effect of tokens on a stream -/

theorem ByteStream.getD_bytes {t : ByteStream} {a : Nat} (h : a < t.len) : t.bytes.getD a 0 = t.mem.read a := by
  rw [List.getD, ByteStream.bytes_getElem?, if_pos h, Option.getD_some]

/-- On the live bytes of a stream a match appends the bytes of R171. -/
theorem matchEffect_bytes {z : OffsetZero} {c o : Byte} {t : ByteStream} {out : List Byte}
    (h : matchEffect z c o t.bytes = some out) : ¬(o = 0 ∧ z = .fault) ∧ distance o ≤ t.len ∧
      out = t.bytes ++ matchBytes t.mem t.len (distance o) (matchLength c) := by
  obtain ⟨hzero, hnear, hout⟩ := matchEffect_eq_some h
  rw [ByteStream.bytes_length] at hnear hout
  refine ⟨hzero, hnear, hout.trans (congrArg (t.bytes ++ ·) (List.map_congr_left fun j _ => ?_))⟩
  have hd := (distance_range o).1
  have := Nat.mod_lt j hd
  exact ByteStream.getD_bytes (by omega)

/-- `t` is `s` after a token of `n` bytes, with the operation still running: OUT holds `out` and the cursor is past the
token. -/
structure State.TokenDone (s t : State) (n : Nat) (out : List Byte) : Prop where
  input : t.inp = { s.inp with pos := s.inp.pos + n }
  output : t.out.bytes = out
  phase : t.phase = s.phase
  op : t.op = s.op
  params : t.params = s.params
  host : t.host = s.host

theorem runLitrun_of_effect {s : State} (h : s.Running) {nm1 : BitVec 6} {data : List Byte}
    (hd : data.length = nm1.toNat + 1) (hpos : s.inp.pos + (data.length + 1) ≤ s.inp.len)
    (hfits : s.out.len + data.length ≤ s.params.outLimit) :
    ∃ t, runLitrun nm1 data s = .go t ∧ s.TokenDone t (data.length + 1) (s.out.bytes ++ data) := by
  obtain ⟨-, hwf, -⟩ := h.streams
  have hl := h.l_eq
  rw [runLitrun_of_present (by omega) (by omega), copyLiterals_of_fits data (by simp; omega) (by exact hfits)]
  refine ⟨_, rfl, ?_, ByteStream.appendBytes_bytes data hwf, rfl, rfl, rfl, rfl⟩
  simp [Nat.add_assoc, Nat.add_comm 1]

theorem runMatch_of_effect {s : State} (h : s.Running) {c o : Byte} {out : List Byte}
    (hpos : s.inp.pos + 2 ≤ s.inp.len) (heff : matchEffect s.params.offsetZero c o s.out.bytes = some out)
    (hfits : out.length ≤ s.params.outLimit) : ∃ t, runMatch c o s = .go t ∧ s.TokenDone t 2 out := by
  obtain ⟨-, hwf, -⟩ := h.streams
  have hl := h.l_eq
  have hd := distance_range o
  obtain ⟨hzero, hnear, rfl⟩ := matchEffect_bytes heff
  simp only [List.length_append, ByteStream.bytes_length, matchBytes_length] at hfits
  rw [runMatch_of_near (by omega) hl.le hzero hnear, copyMatch_of_fits _ (by simp; omega) (by exact hfits)]
  refine ⟨_, rfl, rfl, ?_, rfl, rfl, rfl, rfl⟩
  rw [← copiedBytes_eq hwf hd.1 hnear, ← ByteStream.appendBytes_bytes _ hwf]
  simp

/-- A whole token with an effect that fits completes with it (R166, R168). -/
theorem runToken_of_effect {s : State} (h : s.Running) {i : Instr} {out : List Byte} (hw : i.wf = true)
    (ht : i.isToken = true) (hpos : s.inp.pos + (tokenBytes i).length ≤ s.inp.len)
    (heff : tokenEffect s.params.offsetZero i s.out.bytes = some out) (hfits : out.length ≤ s.params.outLimit) :
    ∃ t, runToken i s = .go t ∧ s.TokenDone t (tokenBytes i).length out := by
  cases i with
  | litrun nm1 data =>
    cases heff
    exact runLitrun_of_effect h (by simpa [Instr.wf] using hw) hpos (by simpa using hfits)
  | matchLo l o => exact runMatch_of_effect h hpos heff hfits
  | matchHi l o => exact runMatch_of_effect h hpos heff hfits
  | _ => cases ht

/-! ## The token at the cursor -/

/-- The bytes that IN holds from the cursor on begin with a token: it is fetched. -/
theorem fetchToken_of_drop {s : State} {i : Instr} {tail : List Byte} (hl : s.work.l = s.inp.len) (hw : i.wf = true)
    (ht : i.isToken = true) (hb : s.inp.bytes.drop s.inp.pos = tokenBytes i ++ tail) :
    s.inp.pos + (tokenBytes i).length ≤ s.inp.len ∧ s.fetchToken = .ok i := by
  have htwo := (tokenBytes_length_range hw ht).1
  have hlen := congrArg List.length hb
  simp only [List.length_drop, ByteStream.bytes_length, List.length_append] at hlen
  refine ⟨by omega, fetchToken_of_stored hw ht (by omega) hl.le fun j hj => ?_⟩
  have hget := congrArg (·[j]?) hb
  simp only [List.getElem?_drop, ByteStream.bytes_getElem?, List.getElem?_append_left hj,
    List.getElem?_eq_getElem hj] at hget
  rw [if_pos (by omega)] at hget
  exact Option.some.inj hget

/-! ## The run -/

/-- UNPACK runs with the tokens `ts` ahead of the cursor, and their effect on OUT is `out`, which fits. -/
structure State.Unpacking (s : State) (ts : List Instr) (out : List Byte) : Prop where
  inv : s.Inv
  busy : s.phase = .busy
  op : s.op = .unpack
  host : s.host = []
  tokens : ∀ i ∈ ts, i.wf = true ∧ i.isToken = true
  input : s.inp.bytes.drop s.inp.pos = streamBytes ts
  effect : streamEffect s.params.offsetZero ts s.out.bytes = some out
  fits : out.length ≤ s.params.outLimit

/-- `t` is a state in which UNPACK has come to its end with `out` in OUT (R172). -/
structure State.Unpacked (t : State) (out : List Byte) : Prop where
  host : t.host = []
  done : t.phase = .done
  output : t.out.bytes = out
  result : t.result = out.length
  consumed : t.inp.pos = t.inp.len

/-- One step runs the first token (R160). -/
theorem State.Unpacking.step {s : State} {i : Instr} {ts : List Instr} {out : List Byte}
    (h : s.Unpacking (i :: ts) out) :
    ∃ t, Machine.step s = .next t ∧ t.Unpacking ts out := by
  obtain ⟨⟨hw, ht⟩, htokens⟩ := List.forall_mem_cons.1 h.tokens
  obtain ⟨mid, hmid, hrest⟩ := streamEffect_cons.1 h.effect
  have hrun := h.inv.running h.busy
  have hinput := h.input
  rw [streamBytes_cons] at hinput
  obtain ⟨hpos, hfetch⟩ := fetchToken_of_drop hrun.l_eq hw ht hinput
  have htwo := (tokenBytes_length_range hw ht).1
  have hremains : s.inputRemains = true := State.inputRemains_iff.2 (by rw [hrun.l_eq]; omega)
  have hop : runOperation s = runToken i s := by
    rw [runOperation_of_unpack h.op, runUnpack, if_pos hremains, hfetch]
  obtain ⟨t, ht, hdone⟩ :=
    runToken_of_effect hrun hw ht hpos hmid ((streamEffect_length_le hrest).trans h.fits)
  have hstep := (step_of_running h.host h.busy).trans (congrArg Flow.outcome (hop.trans ht))
  exact ⟨t, hstep,
    { inv := stepKeepsInvariant _ _ h.inv hstep
      busy := hdone.phase.trans h.busy
      op := hdone.op.trans h.op
      host := hdone.host.trans h.host
      tokens := htokens
      input := by
        rw [hdone.input]
        show s.inp.bytes.drop (s.inp.pos + _) = _
        rw [← List.drop_drop, hinput, List.drop_left]
      effect := by rwa [hdone.output, hdone.params]
      fits := by rw [hdone.params]; exact h.fits }⟩

/-- With no token left the next step is UNPACK's end (R172). -/
theorem State.Unpacking.finish {s : State} {out : List Byte} (h : s.Unpacking [] out) :
    ∃ t, Machine.step s = .next t ∧ t.Unpacked out := by
  obtain ⟨⟨-, -, -, hpos, -⟩, -⟩ := h.inv
  have hl := (h.inv.running h.busy).l_eq
  have hend : s.inp.pos = s.inp.len := by
    have := congrArg List.length h.input
    simp [streamBytes] at this
    omega
  have hout : s.out.bytes = out := Option.some.inj h.effect
  have hremains : ¬s.inputRemains = true := by rw [State.inputRemains_iff]; omega
  refine ⟨s.finish s.out.len, ?_, h.host, rfl, hout, ?_, hend⟩
  · rw [step_of_running h.host h.busy, runOperation_of_unpack h.op, runUnpack, if_neg hremains]
    rfl
  · rw [← hout, ByteStream.bytes_length]
    rfl

/-- UNPACK takes one step a token and one at the end. -/
theorem State.Unpacking.run {out : List Byte} : ∀ {ts : List Instr} {s : State}, s.Unpacking ts out →
    ∃ t, Reaches (ts.length + 1) s t ∧ t.Unpacked out
  | [], _, h => by
    obtain ⟨t, hstep, ht⟩ := h.finish
    exact ⟨t, .cons hstep (reaches_zero.2 rfl), ht⟩
  | _ :: _, _, h => by
    obtain ⟨u, hstep, hu⟩ := h.step
    obtain ⟨t, hreach, ht⟩ := hu.run
    exact ⟨t, .cons hstep hreach, ht⟩

/-- The write of CMD that starts UNPACK, the cursor at the start of a stream that has an effect (R191). -/
theorem State.unpacking_start {s : State} {ts : List Instr} {out : List Byte} (h : s.Inv) (hb : s.phase ≠ .busy)
    (hpos : s.inp.pos = 0) (htokens : ∀ i ∈ ts, i.wf = true ∧ i.isToken = true) (hinput : s.inp.bytes = streamBytes ts)
    (heffect : streamEffect s.params.offsetZero ts s.out.bytes = some out) (hfits : out.length ≤ s.params.outLimit) :
    ((s.setHost []).start .unpack).Unpacking ts out where
  inv := start_inv (s := s.setHost []) h hb (by decide)
  busy := State.start_unpack_phase _
  op := State.start_unpack_op _
  host := State.start_unpack_host _
  tokens := htokens
  input := by simpa [hpos] using hinput
  effect := by simpa using heffect
  fits := by simpa using hfits

end Sys2Proof.Machine
end

section
/-! PROOFS. UNPACK on a well-formed stream. -/

open Sys2Proof Sys2Proof.Machine

/-- Settles O52: the step that accepts the command, then one a token and the end. -/
theorem unpackRunsEveryWellFormedStream : Obligations.UnpackRunsEveryWellFormedStream := by
  intro s ts out h hb hpos hhost htokens hinput heffect hfits
  obtain ⟨t, hreach, ht⟩ := (State.unpacking_start h hb hpos htokens hinput heffect hfits).run
  exact ⟨ts.length + 2, t, le_refl _, .cons (step_of_commandWrite (by decide) hb hhost) hreach, ht.host, ht.done,
    ht.output, ht.result, ht.consumed⟩
end

section
/-! PROOFS. How fast OUT grows in UNPACK: what a token may append is bounded by the bytes it takes off IN, also when it
faults. -/

namespace Sys2Proof.Machine

/-- A token of `n` bytes that stands for `k` bytes, run from `s`: when it completes, the cursor is past it and OUT has
its bytes; when it faults, OUT is as it was, or the token was whole and OUT has some of its bytes. -/
def Flow.Grows (s : State) (n k : Nat) (x : Flow) : Prop :=
  x.Post (fun t => t.phase = s.phase ∧ t.op = s.op ∧ t.inp.pos = s.inp.pos + n ∧ t.out.len = s.out.len + k)
    (fun t => t.phase ≠ .busy ∧
      (t.out.len = s.out.len ∨ s.inp.pos + n ≤ s.inp.len ∧ t.out.len ≤ s.out.len + k))

section
variable {s : State} (h : s.Running) (hr : s.inp.pos < s.inp.len)
include h hr

theorem runLitrun_grows {nm1 : BitVec 6} {data : List Byte} (hd : data.length = nm1.toNat + 1) :
    Flow.Grows s (data.length + 1) data.length (runLitrun nm1 data s) := by
  obtain ⟨-, -, -, -, -, hout, -⟩ := h.streams
  have hl := h.l_eq
  by_cases ht : s.work.l - (s.inp.pos + 1) < nm1.toNat + 1
  · rw [runLitrun_of_truncated hr ht]
    exact ⟨nofun, .inl rfl⟩
  rw [runLitrun_of_present hr (by omega)]
  by_cases hfits : s.out.len + data.length ≤ s.params.outLimit
  · rw [copyLiterals_of_fits data (by simp; omega) (by exact hfits)]
    exact ⟨rfl, rfl, by simp; omega, ByteStream.appendBytes_len _ _⟩
  · rw [copyLiterals_of_full data (by simp; omega) (by exact hout) (by simp; omega)]
    exact ⟨nofun, .inr ⟨by omega, by simp⟩⟩

theorem runMatch_grows (c o : Byte) : Flow.Grows s 2 (matchLength c) (runMatch c o s) := by
  obtain ⟨-, -, -, -, -, hout, -⟩ := h.streams
  have hl := h.l_eq
  have hd := distance_range o
  by_cases ht : s.work.l ≤ s.inp.pos + 1
  · rw [runMatch_of_truncated hr ht]
    exact ⟨nofun, .inl rfl⟩
  by_cases hfar : (o = 0 ∧ s.params.offsetZero = .fault) ∨ s.out.len < distance o
  · obtain ⟨n, he⟩ := runMatch_of_far (c := c) (by omega) hl.le hfar
    rw [he]
    exact ⟨nofun, .inl rfl⟩
  obtain ⟨hzero, hnear⟩ := not_or.1 hfar
  rw [runMatch_of_near (by omega) hl.le hzero (by omega)]
  by_cases hfits : s.out.len + matchLength c ≤ s.params.outLimit
  · rw [copyMatch_of_fits _ (by simp; omega) (by exact hfits)]
    exact ⟨rfl, rfl, rfl, by simp⟩
  · rw [copyMatch_of_full _ (by simp; omega) (by exact hout) (by simp; omega)]
    exact ⟨nofun, .inr ⟨by omega, by simp; omega⟩⟩

theorem runToken_grows {i : Instr} (hw : i.wf = true) (ht : i.isToken = true) :
    Flow.Grows s (tokenBytes i).length i.outputLength (runToken i s) := by
  cases i with
  | litrun nm1 data => exact runLitrun_grows h hr (by simpa [Instr.wf] using hw)
  | matchLo l o => exact runMatch_grows h hr _ o
  | matchHi l o => exact runMatch_grows h hr _ o
  | _ => cases ht

end

/-- Bytes that hold no whole token append nothing. -/
theorem rejectToken_post (e : DecodeError) (s : State) :
    (rejectToken e s).Post (fun _ => False) (fun t => t.phase ≠ .busy ∧ t.out.len = s.out.len) := by
  cases e with
  | endOfStream => trivial
  | _ =>
    refine Flow.Post.andThen (G := fun u => u.out.len = s.out.len) (State.readIn_post fun _ => rfl) fun u hu => ?_
    split_ifs
    · exact ⟨nofun, hu⟩
    · trivial

/-- A match of two bytes stands for at most 195, a literal run for one byte less than its own length (R98). -/
theorem outputLength_le {i : Instr} (hw : i.wf = true) (ht : i.isToken = true) :
    i.outputLength ≤ 195 * ((tokenBytes i).length / 2) := by
  cases i with
  | litrun nm1 data =>
    have hd : data.length = nm1.toNat + 1 := by simpa [Instr.wf] using hw
    simp only [Instr.outputLength, tokenBytes, encode, List.length_cons]
    omega
  | matchLo l o => simpa [Instr.outputLength, tokenBytes, encode] using (matchLength_lo l).2
  | matchHi l o => simpa [Instr.outputLength, tokenBytes, encode] using (matchLength_hi l).2
  | _ => cases ht

/-- `t` comes after a step of UNPACK from `s`: still running with at most 195 bytes in OUT for every two bytes taken off
IN, or at an end within the same bound for the whole of IN. -/
def State.UnpackStepped (s t : State) : Prop :=
  (t.phase = .busy ∧ t.op = .unpack ∧ t.out.len ≤ 195 * (t.inp.pos / 2)) ∨
  (t.phase ≠ .busy ∧ t.out.len ≤ 195 * (s.inp.len / 2))

/-- One step of UNPACK keeps the bound of R98 on the bytes taken off IN so far. -/
theorem runUnpack_grows {s : State} (h : s.Running) (hop : s.op = .unpack)
    (hbound : s.out.len ≤ 195 * (s.inp.pos / 2)) :
    (runUnpack s).Post s.UnpackStepped s.UnpackStepped := by
  obtain ⟨-, -, -, hpos, -⟩ := h.streams
  unfold runUnpack
  split_ifs with hremains
  · have hr : s.inp.pos < s.inp.len := h.l_eq ▸ State.inputRemains_iff.1 hremains
    cases hf : s.fetchToken with
    | ok i =>
      obtain ⟨hw, ht⟩ := fetchToken_wf_isToken hf
      have hlen := outputLength_le hw ht
      refine (runToken_grows h hr hw ht).imp ?_ ?_
      · rintro t ⟨hphase, hop', hpos', hout⟩
        exact .inl ⟨hphase.trans h.busy, hop'.trans hop, by omega⟩
      · rintro t ⟨hphase, hout⟩
        exact .inr ⟨hphase, by omega⟩
    | error e =>
      refine (rejectToken_post e s).imp (fun _ => False.elim) ?_
      rintro t ⟨hphase, hout⟩
      exact .inr ⟨hphase, by omega⟩
  · exact .inr ⟨nofun, by simp only [State.finish_out]; omega⟩

/-- Where a run of UNPACK of `m` bytes stands, from the write of CMD on: OUT is within the bound of R98. -/
inductive State.UnpackBounded (m : Nat) (s : State) : Prop where
  | waiting (host : s.host = [Cmd.unpack.write]) (idle : s.phase ≠ .busy) (pos : s.inp.pos = 0) (out : s.out.len = 0)
  | running (host : s.host = []) (busy : s.phase = .busy) (op : s.op = .unpack)
      (out : s.out.len ≤ 195 * (s.inp.pos / 2))
  | ended (host : s.host = []) (idle : s.phase ≠ .busy) (out : s.out.len ≤ 195 * (m / 2))

/-- Every step of such a run keeps the invariant, IN's length and the bound. -/
theorem State.UnpackBounded.step {m : Nat} {s t : State} (h : s.Inv ∧ s.inp.len = m ∧ s.UnpackBounded m)
    (hstep : Machine.step s = .next t) : t.Inv ∧ t.inp.len = m ∧ t.UnpackBounded m := by
  obtain ⟨hinv, hm, hs⟩ := h
  refine ⟨stepKeepsInvariant s t hinv hstep, ?_⟩
  cases hs with
  | waiting host idle pos out =>
    rw [step_of_commandWrite (by decide) idle host] at hstep
    cases hstep
    exact ⟨by simpa using hm, .running (by simp) (by simp) (by simp) (by simp [out])⟩
  | running host busy op out =>
    rw [step_of_running host busy, runOperation_of_unpack op] at hstep
    have hframe := (runUnpack_quiet s).outcome hstep
    have hhost := hframe.host.trans host
    refine ⟨hframe.inp_len.trans hm, ?_⟩
    rcases (runUnpack_grows (hinv.running busy) op out).outcome hstep with ⟨hbusy, hop, hout⟩ | ⟨hidle, hout⟩
    · exact .running hhost hbusy hop hout
    · exact .ended hhost hidle (hm ▸ hout)
  | ended host idle out =>
    rw [step_of_ended host idle] at hstep
    cases hstep
    exact ⟨hm, .ended host idle out⟩

theorem State.UnpackBounded.out_len_le {m : Nat} {s : State} (hpos : s.inp.pos ≤ m) (h : s.UnpackBounded m) :
    s.out.len ≤ 195 * (m / 2) := by
  cases h with
  | waiting _ _ _ out => omega
  | running _ _ _ out => omega
  | ended _ _ out => exact out

end Sys2Proof.Machine
end

section
/-! PROOFS. The bound on what UNPACK writes. -/

open Sys2Proof Sys2Proof.Machine

/-- Settles O55: the bound holds at the start and every step keeps it. -/
theorem unpackOutputBound : Obligations.UnpackOutputBound := by
  rintro s t n h ⟨hb, -, hpos, hout⟩ hhost hreach
  obtain ⟨⟨⟨-, -, -, htpos, -⟩, -⟩, hm, ht⟩ :=
    hreach.invariant (P := fun u => u.Inv ∧ u.inp.len = s.inp.len ∧ u.UnpackBounded s.inp.len)
      (fun _ _ => State.UnpackBounded.step) ⟨h, rfl, .waiting hhost hb hpos hout⟩
  exact ht.out_len_le (hm ▸ htpos)
end

section
/-! PROOFS. Canonical streams (R95), token by token, and the effect of the match that the matcher finds. -/

namespace Sys2Proof.Machine

/-! ## Canonical streams -/

/-- A match token, of either row, with offset byte `o`. -/
def IsMatchWith (i : Instr) (o : Byte) : Prop := (∃ l, i = .matchLo l o) ∨ ∃ l, i = .matchHi l o

/-- What R95 asks of a token `i` that comes after the tokens `pre` in the stream of an input of `n` bytes. -/
structure CanonicalAfter (n : Nat) (pre : List Instr) (i : Instr) : Prop where
  wf : i.wf = true
  token : i.isToken = true
  offset : ¬IsMatchWith i 0
  run : ∀ a da b db, pre.getLast? = some (.litrun a da) → i = .litrun b db → a = 63
  first : pre = [] → ∃ a data, i = .litrun a data ∧ min 2 n ≤ data.length
  source : ∀ z o, IsMatchWith i o → ∃ out, streamEffect z pre [] = some out ∧ distance o < out.length

/-- A canonical stream of an input of `n` bytes: R95 holds of each token after those before it. -/
def Canonical (n : Nat) (ts : List Instr) : Prop := ∀ pre i post, ts = pre ++ i :: post → CanonicalAfter n pre i

theorem canonical_nil (n : Nat) : Canonical n [] := by
  intro pre i post h
  simp at h

/-- One token more at the end. -/
theorem Canonical.snoc {n : Nat} {ts : List Instr} {i : Instr} (h : Canonical n ts) (hi : CanonicalAfter n ts i) :
    Canonical n (ts ++ [i]) := by
  intro pre j post he
  rcases List.eq_nil_or_concat post with rfl | ⟨post', k, rfl⟩
  · obtain ⟨rfl, hij⟩ := List.append_inj' he rfl
    cases hij
    exact hi
  · rw [List.concat_eq_append, ← List.cons_append, ← List.append_assoc] at he
    exact h pre j post' (List.append_inj' he rfl).1

theorem not_isMatchWith_litrun {nm1 : BitVec 6} {data : List Byte} {o : Byte} :
    ¬IsMatchWith (.litrun nm1 data) o := by
  rintro (⟨_, h⟩ | ⟨_, h⟩) <;> cases h

/-! ## A match as a token on a list -/

theorem isMatchWith_decodeMatch {c : Byte} (hc : isLiteral c = false) {o o' : Byte} :
    IsMatchWith (decodeMatch c o) o' ↔ o' = o := by
  rcases decodeMatch_cases hc o with ⟨l, -, hm⟩ | ⟨l, -, hm⟩ <;> rw [hm] <;> simp [IsMatchWith, eq_comm]

theorem decodeMatch_wf_isToken {c : Byte} (hc : isLiteral c = false) (o : Byte) :
    (decodeMatch c o).wf = true ∧ (decodeMatch c o).isToken = true := by
  rcases decodeMatch_cases hc o with ⟨l, -, hm⟩ | ⟨l, -, hm⟩ <;> rw [hm] <;> exact ⟨rfl, rfl⟩

theorem decodeMatch_ne_litrun {c : Byte} (hc : isLiteral c = false) (o : Byte) (nm1 : BitVec 6) (data : List Byte) :
    decodeMatch c o ≠ .litrun nm1 data := by
  rcases decodeMatch_cases hc o with ⟨l, -, hm⟩ | ⟨l, -, hm⟩ <;> rw [hm] <;> nofun

theorem tokenEffect_decodeMatch {c : Byte} (hc : isLiteral c = false) (z : OffsetZero) (o : Byte) (out : List Byte) :
    tokenEffect z (decodeMatch c o) out = matchEffect z c o out := by
  rcases decodeMatch_cases hc o with ⟨l, rfl, hm⟩ | ⟨l, rfl, hm⟩ <;> rw [hm] <;> rfl

/-- The offset the encoder computes, read back as a distance (R89, R90, R99 (d)). -/
theorem distance_offsetByte {p pos : Nat} (h1 : p < pos) (h2 : pos ≤ p + 255) :
    distance (offsetByte (matchOffset p pos)) = pos - p := by
  have h := offsetByte_spec (off := matchOffset p pos) (by unfold matchOffset; omega) (by unfold matchOffset; omega)
  unfold distance
  unfold matchOffset at h ⊢
  omega

theorem offsetByte_ne_zero {p pos : Nat} (h1 : p < pos) (h2 : pos ≤ p + 255) :
    offsetByte (matchOffset p pos) ≠ 0 := by
  intro hz
  have h := distance_offsetByte h1 h2
  rw [hz] at h
  simp [distance] at h
  omega

/-- Bytes from `p` on that repeat at a later `q` are the `q - p` bytes before `q`, over and over (R171). -/
theorem repeated_eq_cyclic {α : Type} {f : Nat → α} {p q n : Nat} (hpq : p < q) (h : ∀ j < n, f (p + j) = f (q + j)) :
    ∀ j < n, f (p + j % (q - p)) = f (q + j) := by
  intro j
  induction j using Nat.strong_induction_on with
  | _ j ih =>
    intro hj
    by_cases hd : j < q - p
    · rw [Nat.mod_eq_of_lt hd, h j hj]
    · have hprev := ih (j - (q - p)) (by omega) (by omega)
      rw [Nat.mod_eq_sub_mod (by omega), hprev, ← h j hj]
      congr 1
      omega

/-- The match of a repetition, run on the input before it, gives the input up to its end, whatever OFFSET_ZERO is. -/
theorem matchEffect_of_repeated {input : List Byte} {z : OffsetZero} {p pos n : Nat} (hn : 4 ≤ n ∧ n ≤ 195)
    (hp : p < pos ∧ pos ≤ p + 255) (hend : pos + n ≤ input.length)
    (h : ∀ j < n, input.getD (p + j) 0 = input.getD (pos + j) 0) :
    matchEffect z (matchControl n) (offsetByte (matchOffset p pos)) (input.take pos) = some (input.take (pos + n)) := by
  have hlen : (input.take pos).length = pos := List.length_take_of_le (by omega)
  have hcyc := repeated_eq_cyclic (f := fun a => input.getD a 0) hp.1 h
  rw [matchEffect, distance_offsetByte hp.1 hp.2, (matchControl_spec hn.1 hn.2).2, hlen,
    if_neg fun hz => offsetByte_ne_zero hp.1 hp.2 hz.1, if_neg (by omega), List.take_add]
  refine congrArg (fun tail => some (input.take pos ++ tail)) (List.ext_getElem (by simp; omega) fun j hj _ => ?_)
  have hjn : j < n := by simpa using hj
  have hmod := Nat.mod_lt j (show 0 < pos - p by omega)
  have hsource : pos - (pos - p) + j % (pos - p) = p + j % (pos - p) := by omega
  have hread := hcyc j hjn
  simp only [List.getElem_map, List.getElem_range, List.getElem_take, List.getElem_drop, hsource] at hread ⊢
  rw [List.getD_eq_getElem?_getD, List.getElem?_take_of_lt (by omega), ← List.getD_eq_getElem?_getD, hread,
    List.getD_eq_getElem _ _ (by omega)]

end Sys2Proof.Machine
end

section
/-! PROOFS. PACK: what OUT and ACC hold between its steps, kept by each way a step writes them. -/

namespace Sys2Proof.Machine

/-- OUT holds the canonical tokens `ts`, which with the bytes now in ACC after them mean the first `IN.pos` bytes of the
input, whatever OFFSET_ZERO is (R95, R147). -/
structure State.Packed (s : State) (input : List Byte) (ts : List Instr) : Prop where
  input_eq : s.inp.bytes = input
  inside : s.inp.pos ≤ input.length
  output : s.out.bytes = streamBytes ts
  canonical : Canonical input.length ts
  meaning : ∃ done, (∀ z, streamEffect z ts [] = some done) ∧ done ++ s.acc.bytes = input.take s.inp.pos

section
variable {s t : State} {input : List Byte} {ts : List Instr} (h : s.Packed input ts)
include h

theorem State.Packed.input_length : s.inp.len = input.length := by rw [← h.input_eq, ByteStream.bytes_length]

/-- The accumulator holds some of the bytes before the cursor, and all of them before the first token. -/
theorem State.Packed.acc_len : s.acc.len ≤ s.inp.pos ∧ (ts = [] → s.acc.len = s.inp.pos) := by
  obtain ⟨done, heff, hdone⟩ := h.meaning
  have hlen := congrArg List.length hdone
  rw [List.length_append, ByteStream.bytes_length, List.length_take_of_le h.inside] at hlen
  refine ⟨by omega, ?_⟩
  rintro rfl
  cases heff .fault
  simpa using hlen

theorem State.Packed.of_streams (hinp : t.inp = s.inp) (hout : t.out = s.out) (hacc : t.acc = s.acc) :
    t.Packed input ts where
  input_eq := by rw [hinp]; exact h.input_eq
  inside := by rw [hinp]; exact h.inside
  output := by rw [hout]; exact h.output
  canonical := h.canonical
  meaning := by rw [hinp, hacc]; exact h.meaning

/-- One byte from the cursor into ACC (R144). -/
theorem State.Packed.literal (hr : s.inp.pos < s.inp.len) (hwf : s.acc.mem.wf = true)
    (hinp : t.inp = { s.inp with pos := s.inp.pos + 1 }) (hout : t.out = s.out)
    (hacc : t.acc = s.acc.append (s.inp.mem.read s.inp.pos)) : t.Packed input ts where
  input_eq := by rw [hinp]; exact h.input_eq
  inside := by
    rw [hinp]
    exact h.input_length ▸ hr
  output := by rw [hout]; exact h.output
  canonical := h.canonical
  meaning := by
    obtain ⟨done, heff, hdone⟩ := h.meaning
    have hbyte : input[s.inp.pos]? = some (s.inp.mem.read s.inp.pos) := by
      rw [← h.input_eq, ByteStream.bytes_getElem?, if_pos hr]
    refine ⟨done, heff, ?_⟩
    rw [hinp, hacc, ByteStream.append_bytes hwf, ← List.append_assoc, hdone, List.take_add_one, hbyte]
    rfl

/-- The run of pending literals is a token R95 allows: after a full run, or after no run; the first token only with two
bytes in it, or the whole input. -/
theorem State.Packed.canonicalAfter_run (h64 : s.acc.len ≤ 64) (hpos : min 2 input.length ≤ s.inp.pos)
    (hlast : ∀ a da, ts.getLast? = some (.litrun a da) → a = 63) (hacc : 0 < s.acc.len) :
    CanonicalAfter input.length ts (.litrun (BitVec.ofNat 6 (s.acc.len - 1)) s.acc.bytes) where
  wf := by
    have hbits : (BitVec.ofNat 6 (s.acc.len - 1)).toNat = s.acc.len - 1 := toNat_sixBits (by omega)
    simp only [Instr.wf, ByteStream.bytes_length, hbits, beq_iff_eq]
    omega
  token := rfl
  offset := not_isMatchWith_litrun
  run a da _ _ hpre _ := hlast a da hpre
  first hts := ⟨_, _, rfl, by rw [ByteStream.bytes_length, h.acc_len.2 hts]; exact hpos⟩
  source _ _ hm := absurd hm not_isMatchWith_litrun

/-- The flush of pending literals (R140, R145). -/
theorem State.Packed.flush (h64 : s.acc.len ≤ 64) (hwf : s.out.mem.wf = true) (hpos : min 2 input.length ≤ s.inp.pos)
    (hlast : ∀ a da, ts.getLast? = some (.litrun a da) → a = 63) (hinp : t.inp = s.inp)
    (hout : t.out = s.out.appendBytes (pendingBytes s.acc)) (hacc : t.acc = s.acc.reset) :
    t.Packed input (ts ++ s.pendingTokens) where
  input_eq := by rw [hinp]; exact h.input_eq
  inside := by rw [hinp]; exact h.inside
  output := by
    rw [hout, ByteStream.appendBytes_bytes _ hwf, h.output, streamBytes_append, State.streamBytes_pendingTokens h64]
  canonical := by
    rcases Nat.eq_zero_or_pos s.acc.len with hz | hacc
    · rw [State.pendingTokens_of_zero hz, List.append_nil]
      exact h.canonical
    · rw [State.pendingTokens_of_pos hacc]
      exact h.canonical.snoc (h.canonicalAfter_run h64 hpos hlast hacc)
  meaning := by
    obtain ⟨done, heff, hdone⟩ := h.meaning
    refine ⟨done ++ s.acc.bytes, fun z => ?_, ?_⟩
    · rw [streamEffect_append, heff z]
      exact s.streamEffect_pendingTokens z done
    · rw [hacc, hinp, ByteStream.reset_bytes, List.append_nil, hdone]

end

/-! ## The match that the matcher finds -/

section
variable {s t : State} {input : List Byte} {ts : List Instr} {n p : Nat} (h : s.Packed input ts)
  (hn : 4 ≤ n) (hbest : BestOf s.inp.mem s.inp.len s.inp.pos (Candidate s.inp.pos) n p) (hempty : s.acc.len = 0)
include h hn hbest

/-- The effect of the match found at the cursor brings the output to the input up to the match's end (R114, R171). -/
theorem State.Packed.tokenEffect_match (z : OffsetZero) :
    tokenEffect z (decodeMatch (matchControl n) (offsetByte (matchOffset p s.inp.pos))) (input.take s.inp.pos) =
      some (input.take (s.inp.pos + n)) := by
  obtain ⟨h195, -, hrange⟩ := hbest.range
  obtain ⟨hend, -, hp, hwindow⟩ := hrange (by omega)
  obtain ⟨-, -, hfound⟩ := hbest
  obtain ⟨-, ⟨-, -, hrepeat⟩, -⟩ := hfound (by omega)
  rw [tokenEffect_decodeMatch (matchControl_spec hn h195).1]
  refine matchEffect_of_repeated ⟨hn, h195⟩ ⟨hp, hwindow⟩ (by rwa [← h.input_length]) fun j hj => ?_
  rw [← h.input_eq, ByteStream.getD_bytes (by omega), ByteStream.getD_bytes (by omega), hrepeat j hj]

include hempty

/-- With nothing pending, the match found at the cursor is a token R95 allows: its source is in the window and does not
start at position 0 (R112). -/
theorem State.Packed.canonicalAfter_match :
    CanonicalAfter input.length ts (decodeMatch (matchControl n) (offsetByte (matchOffset p s.inp.pos))) := by
  obtain ⟨h195, -, hrange⟩ := hbest.range
  obtain ⟨-, hp1, hp, hwindow⟩ := hrange (by omega)
  obtain ⟨hc, -⟩ := matchControl_spec hn h195
  obtain ⟨hw, ht⟩ := decodeMatch_wf_isToken hc (offsetByte (matchOffset p s.inp.pos))
  refine ⟨hw, ht, fun hz => ?_, fun _ _ _ _ _ hrun => absurd hrun (decodeMatch_ne_litrun hc _ _ _), fun hts => ?_, ?_⟩
  · exact offsetByte_ne_zero hp hwindow ((isMatchWith_decodeMatch hc).1 hz).symm
  · have := h.acc_len.2 hts
    omega
  · intro z o hm
    obtain ⟨done, heff, hdone⟩ := h.meaning
    rw [ByteStream.bytes_of_len_zero hempty, List.append_nil] at hdone
    refine ⟨done, heff z, ?_⟩
    rw [(isMatchWith_decodeMatch hc).1 hm, distance_offsetByte hp hwindow, hdone, List.length_take_of_le h.inside]
    omega

/-- The match's two bytes appended, the cursor past it (R142). -/
theorem State.Packed.emit (hwf : s.out.mem.wf = true) (hinp : t.inp = { s.inp with pos := s.inp.pos + n })
    (hout : t.out = s.out.appendBytes [matchControl n, offsetByte (matchOffset p s.inp.pos)]) (hacc : t.acc = s.acc) :
    t.Packed input (ts ++ [decodeMatch (matchControl n) (offsetByte (matchOffset p s.inp.pos))]) := by
  obtain ⟨h195, -, hrange⟩ := hbest.range
  obtain ⟨hend, -⟩ := hrange (by omega)
  obtain ⟨done, heff, hdone⟩ := h.meaning
  have hnone := ByteStream.bytes_of_len_zero hempty
  rw [hnone, List.append_nil] at hdone
  exact
    { input_eq := by rw [hinp]; exact h.input_eq
      inside := by
        rw [hinp]
        exact h.input_length ▸ hend
      output := by
        rw [hout, ByteStream.appendBytes_bytes _ hwf, h.output, streamBytes_append, streamBytes_cons,
          tokenBytes_decodeMatch (matchControl_spec hn h195).1]
        rfl
      canonical := h.canonical.snoc (h.canonicalAfter_match hn hbest hempty)
      meaning := by
        refine ⟨input.take (s.inp.pos + n), fun z => ?_, by rw [hacc, hnone, List.append_nil, hinp]⟩
        rw [streamEffect_append, heff z, hdone]
        exact streamEffect_cons.2 ⟨_, h.tokenEffect_match hn hbest z, rfl⟩ }

end

end Sys2Proof.Machine
end

section
/-! PROOFS. PACK: every step while input remains moves the cursor and keeps what OUT and ACC hold, within the room of
R98; so the run comes to its end. -/

namespace Sys2Proof.Machine

/-! ## The states between the statements of a step -/

section
variable (s : State) (n p : Nat)

@[simp] theorem afterMatcher_params : (afterMatcher s n p).params = s.params := rfl
@[simp] theorem afterMatcher_inp : (afterMatcher s n p).inp = s.inp := rfl
@[simp] theorem afterMatcher_out : (afterMatcher s n p).out = s.out := rfl
@[simp] theorem afterMatcher_acc : (afterMatcher s n p).acc = s.acc := rfl
@[simp] theorem afterMatcher_mlen : (afterMatcher s n p).mlen = n := rfl

/-- The matcher answered `(n, p)` and a literal was read into ACC (R144). -/
def afterLiteral : State :=
  ((afterMatcher s n p).setInp { s.inp with pos := s.inp.pos + 1 }).setAcc (s.acc.append (s.inp.mem.read s.inp.pos))

@[simp] theorem afterLiteral_params : (afterLiteral s n p).params = s.params := rfl
@[simp] theorem afterLiteral_pos : (afterLiteral s n p).inp.pos = s.inp.pos + 1 := rfl
@[simp] theorem afterLiteral_out : (afterLiteral s n p).out = s.out := rfl
@[simp] theorem afterLiteral_acc_len : (afterLiteral s n p).acc.len = s.acc.len + 1 := rfl

/-- The pending literals were flushed (R140, R145). -/
def afterFlush : State := (s.setOut (s.out.appendBytes (pendingBytes s.acc))).setAcc s.acc.reset

@[simp] theorem afterFlush_params : (afterFlush s).params = s.params := rfl
@[simp] theorem afterFlush_inp : (afterFlush s).inp = s.inp := rfl
@[simp] theorem afterFlush_mlen : (afterFlush s).mlen = s.mlen := rfl
@[simp] theorem afterFlush_out_len : (afterFlush s).out.len = s.out.len + (pendingBytes s.acc).length :=
  ByteStream.appendBytes_len _ _
@[simp] theorem afterFlush_acc_len : (afterFlush s).acc.len = 0 := rfl

/-- The two bytes of the match in the match candidate were written, the cursor moved past it (R142). -/
def afterEmit : State :=
  ((emitStart s).setInp { s.inp with pos := s.inp.pos + s.mlen }).setOut
    (s.out.appendBytes [matchControl s.mlen, offsetByte (matchOffset s.mpos s.inp.pos)])

@[simp] theorem afterEmit_pos : (afterEmit s).inp.pos = s.inp.pos + s.mlen := rfl
@[simp] theorem afterEmit_out_len : (afterEmit s).out.len = s.out.len + 2 := ByteStream.appendBytes_len _ _
@[simp] theorem afterEmit_acc : (afterEmit s).acc = s.acc := rfl

end

theorem emitMatch_of_fits {s : State} (h195 : s.mlen ≤ 195) (hend : s.inp.pos + s.mlen ≤ s.inp.len)
    (hfits : s.out.len + 2 ≤ s.params.outLimit) : emitMatch s = .go (afterEmit s) := by
  have hclamp := clampLength_of_le h195
  rw [emitMatch_of_seeks (by omega), hclamp, State.appendOutBytes_of_fits _ (by exact hfits)]
  rfl

/-! ## PACK between two steps -/

/-- What suffices for `n` bytes of input (R98). -/
abbrev packBound (n : Nat) : Nat := n + (n + 63) / 64

/-- PACK runs with the tokens `ts` in OUT. When the last of them is a literal run it is full, so another may follow it;
and OUT with the pending bytes exceeds the bytes consumed by at most one for every 64 of them. -/
structure State.Packing (s : State) (input : List Byte) (ts : List Instr) : Prop extends s.Packed input ts where
  inv : s.Inv
  busy : s.phase = .busy
  op : s.op = .pack
  host : s.host = []
  out0 : s.work.out0 = 0
  last : ∀ a da, ts.getLast? = some (.litrun a da) → a = 63
  room : s.out.len + s.acc.len ≤ s.inp.pos + (s.inp.pos - s.acc.len) / 64
  limit : packBound input.length ≤ s.params.outLimit

/-- `t` is a state in which PACK has come to its end with the tokens `ts` in OUT (R146). -/
structure State.PackEnded (t : State) (input : List Byte) (ts : List Instr) : Prop extends t.Packed input ts where
  host : t.host = []
  done : t.phase = .done
  consumed : t.inp.pos = t.inp.len
  empty : t.acc.len = 0
  result : t.result = t.out.len
  bound : t.out.len ≤ packBound input.length

section
variable {s : State} {input : List Byte} {ts : List Instr} (h : s.Packing input ts)
include h

theorem State.Packing.l_eq : s.work.l = s.inp.len := (h.inv.running h.busy).l_eq

theorem State.Packing.out_wf : s.out.mem.wf = true := by
  obtain ⟨⟨-, hwf, -⟩, -⟩ := h.inv
  exact hwf

theorem State.Packing.acc_wf : s.acc.mem.wf = true := by
  obtain ⟨⟨-, -, hwf, -⟩, -⟩ := h.inv
  exact hwf

/-- A step of PACK that goes on. -/
theorem State.Packing.next {t : State} {ts' : List Instr} (hgo : runPack s = .go t) (ht : t.Packed input ts')
    (hbusy : t.phase = s.phase) (hop : t.op = s.op) (hout0 : t.work.out0 = s.work.out0)
    (hlast : ∀ a da, ts'.getLast? = some (.litrun a da) → a = 63)
    (hroom : t.out.len + t.acc.len ≤ t.inp.pos + (t.inp.pos - t.acc.len) / 64) :
    Machine.step s = .next t ∧ t.Packing input ts' := by
  have hrun : (runPack s).outcome = .next t := by rw [hgo]; rfl
  have hstep : Machine.step s = .next t := by
    rw [step_of_running h.host h.busy, runOperation_of_pack h.op, hrun]
  obtain ⟨hframe, -⟩ := (runPack_post s).outcome hrun
  exact ⟨hstep,
    { ht with
      inv := stepKeepsInvariant s t h.inv hstep
      busy := hbusy.trans h.busy
      op := hop.trans h.op
      host := hframe.host.trans h.host
      out0 := hout0.trans h.out0
      last := hlast
      room := hroom
      limit := by rw [hframe.params]; exact h.limit }⟩

/-- Once flushed, OUT is within the bound for the bytes consumed. -/
theorem State.Packing.room_after_flush : s.out.len + (pendingBytes s.acc).length ≤ packBound s.inp.pos := by
  have hroom := h.room
  have hacc := h.toPacked.acc_len.1
  rw [pendingBytes_length, packBound]
  split_ifs <;> omega

/-- The flush and the match after it are paid for by the bytes of the match, at least four (R96). -/
theorem State.Packing.room_after_match {n : Nat} (hn : 3 < n) :
    s.out.len + (pendingBytes s.acc).length + 2 ≤ s.inp.pos + n + (s.inp.pos + n) / 64 := by
  have hroom := h.room
  have hpos := h.toPacked.acc_len.1
  rw [pendingBytes_length]
  split_ifs <;> omega

theorem State.Packing.packed_afterLiteral (hr : s.inp.pos < s.inp.len) (n p : Nat) :
    (afterLiteral s n p).Packed input ts :=
  h.toPacked.literal hr h.acc_wf rfl rfl rfl

section
variable (hr : s.inp.pos < s.inp.len) {n p : Nat}
  (hfind : findBest s.inp.toByteStream s.work.l s.inp.pos = .ok (n, p))
include hr hfind

/-- No match: a literal joins the pending ones. -/
theorem State.Packing.step_literal (hn : n ≤ 3) (hacc : s.acc.len < 63) :
    ∃ t, Machine.step s = .next t ∧ t.Packing input ts ∧ s.inp.pos < t.inp.pos := by
  have hgo : runPack s = .go (afterLiteral s n p) :=
    (runPack_of_literal (h.l_eq ▸ hr) hfind hn).trans (accumulate_of_lt (by exact hr) (by exact hacc))
  have hroom := h.room
  obtain ⟨hstep, ht⟩ := h.next hgo (h.packed_afterLiteral hr n p) rfl rfl rfl h.last (by simp; omega)
  exact ⟨_, hstep, ht, Nat.lt_succ_self _⟩

/-- The run that the 64th literal completes fits, and is written at once (R144). -/
theorem State.Packing.runPack_of_fullRun (hn : n ≤ 3) (hacc : s.acc.len = 63) :
    runPack s = .go (afterFlush (afterLiteral s n p)) := by
  have hroom := h.room
  have hlimit := h.limit
  have hlen := h.toPacked.input_length
  unfold packBound at hlimit
  rw [runPack_of_literal (h.l_eq ▸ hr) hfind hn, accumulate_of_eq (by exact hr) (by exact hacc)]
  show flush (afterLiteral s n p) = _
  rw [← flushPending_of_pos (by simp)]
  exact flushPending_of_fits (by simp [pendingBytes_length]; omega)

/-- No match, and the literal is the 64th pending: a full run is written. -/
theorem State.Packing.step_fullRun (hn : n ≤ 3) (hacc : s.acc.len = 63) :
    ∃ t ts', Machine.step s = .next t ∧ t.Packing input ts' ∧ s.inp.pos < t.inp.pos := by
  have hfull : (afterLiteral s n p).acc.len = 64 := congrArg (· + 1) hacc
  have hroom := h.room
  have hpos := h.toPacked.acc_len.1
  have ht : (afterFlush (afterLiteral s n p)).Packed input _ := (h.packed_afterLiteral hr n p).flush hfull.le h.out_wf
    (by simp; omega) h.last rfl rfl rfl
  have hlast : ∀ a da, (ts ++ (afterLiteral s n p).pendingTokens).getLast? = some (.litrun a da) → a = 63 := by
    intro a da hl
    rw [State.pendingTokens_of_pos (by omega), hfull, List.getLast?_concat] at hl
    cases hl
    rfl
  obtain ⟨hstep, ht'⟩ := h.next (h.runPack_of_fullRun hr hfind hn hacc) ht rfl rfl rfl hlast
    (by simp [pendingBytes_length]; omega)
  exact ⟨_, _, hstep, ht', Nat.lt_succ_self _⟩

/-- A match and the pending literals before it fit, and are written (R134, R142). -/
theorem State.Packing.runPack_of_fits (hn : 3 < n) :
    runPack s = .go (afterEmit (afterFlush (afterMatcher s n p))) := by
  obtain ⟨h195, -, hrange⟩ := (findBest_bestOf h.l_eq.le hfind).range
  obtain ⟨hend, -⟩ := hrange (by omega)
  rw [h.l_eq] at hend
  have hroom := h.room_after_match hn
  have hlimit := h.limit
  have hlen := h.toPacked.input_length
  unfold packBound at hlimit
  rw [runPack_of_match (h.l_eq ▸ hr) hfind hn, flushPending_of_fits (by simp; omega), Flow.andThen_go]
  exact emitMatch_of_fits (s := afterFlush (afterMatcher s n p)) h195 hend (by simp; omega)

/-- A match: the pending literals are flushed, then it is written. -/
theorem State.Packing.step_match (hn : 3 < n) :
    ∃ t ts', Machine.step s = .next t ∧ t.Packing input ts' ∧ s.inp.pos < t.inp.pos := by
  have hbest := h.l_eq ▸ findBest_bestOf h.l_eq.le hfind
  obtain ⟨h195, -, hrange⟩ := hbest.range
  obtain ⟨-, hp1, hp, -⟩ := hrange (by omega)
  have hacc : s.acc.len ≤ 63 := h.inv.acc_len_le
  have hmatcher : (afterMatcher s n p).Packed input ts := h.toPacked.of_streams rfl rfl rfl
  have hflushed : (afterFlush (afterMatcher s n p)).Packed input _ :=
    hmatcher.flush (by simp; omega) h.out_wf (by simp; omega) h.last rfl rfl rfl
  have ht := hflushed.emit (t := afterEmit (afterFlush (afterMatcher s n p))) hn hbest rfl
    (ByteStream.appendBytes_wf _ h.out_wf) rfl rfl rfl
  have hlast := decodeMatch_ne_litrun (matchControl_spec hn h195).1 (offsetByte (matchOffset p s.inp.pos))
  obtain ⟨hstep, ht'⟩ := h.next (h.runPack_of_fits hr hfind hn) ht rfl rfl rfl
    (fun a da hl => absurd (Option.some.inj (List.getLast?_concat.symm.trans hl)) (hlast a da))
    (by simpa using h.room_after_match hn)
  exact ⟨_, _, hstep, ht', Nat.lt_add_of_pos_right (by rw [afterFlush_mlen, afterMatcher_mlen]; omega)⟩

end

/-- While input remains, a step moves the cursor (R130). -/
theorem State.Packing.step (hr : s.inp.pos < s.inp.len) :
    ∃ t ts', Machine.step s = .next t ∧ t.Packing input ts' ∧ s.inp.pos < t.inp.pos := by
  obtain ⟨n, p, hfind, -⟩ := findBest_spec (p0 := s.inp.pos) h.l_eq.le
  have hacc : s.acc.len ≤ 63 := h.inv.acc_len_le
  by_cases hn : 3 < n
  · exact h.step_match hr hfind hn
  · by_cases hlt : s.acc.len < 63
    · obtain ⟨t, hstep, ht, hpos⟩ := h.step_literal hr hfind (by omega) hlt
      exact ⟨t, ts, hstep, ht, hpos⟩
    · exact h.step_fullRun hr hfind (by omega) (by omega)

/-- With all input consumed, a step is PACK's end (R145, R146). -/
theorem State.Packing.finish (hend : s.inp.pos = s.inp.len) :
    ∃ t ts', Machine.step s = .next t ∧ t.PackEnded input ts' := by
  have hlen := h.toPacked.input_length
  have hroom := h.room_after_flush
  have hacc : s.acc.len ≤ 63 := h.inv.acc_len_le
  have hlimit := h.limit
  rw [← hlen, ← hend] at hlimit
  have hflush : flushPending s = .go (afterFlush s) := flushPending_of_fits (hroom.trans hlimit)
  have hgo : runPack s = .go ((afterFlush s).finish ((afterFlush s).out.len - s.work.out0)) := by
    rw [runPack_of_end (by rw [h.l_eq, hend]), packEnd, hflush]
    rfl
  have hflushed : (afterFlush s).Packed input _ := h.toPacked.flush (by omega) h.out_wf (by omega) h.last rfl rfl rfl
  have hstep := (step_of_running h.host h.busy).trans
    (congrArg Flow.outcome ((runOperation_of_pack h.op).trans hgo))
  exact ⟨_, _, hstep,
    { hflushed.of_streams rfl rfl rfl with
      host := h.host
      done := rfl
      consumed := hend
      empty := rfl
      result := by rw [h.out0]; rfl
      bound := by
        rw [← hlen, ← hend, State.finish_out, afterFlush_out_len]
        exact hroom }⟩

end

/-- PACK runs to its end (R175). -/
theorem State.Packing.run {input : List Byte} {s : State} {ts : List Instr} (h : s.Packing input ts) :
    ∃ n t ts', Reaches n s t ∧ t.PackEnded input ts' := by
  by_cases hr : s.inp.pos < s.inp.len
  · obtain ⟨u, us, hstep, hu, hpos⟩ := h.step hr
    have hdecrease : input.length - u.inp.pos < input.length - s.inp.pos := by
      have := h.toPacked.input_length
      omega
    obtain ⟨n, t, ts', hreach, ht⟩ := hu.run
    exact ⟨n + 1, t, ts', .cons hstep hreach, ht⟩
  · have hlen := h.toPacked.input_length
    have hinside := h.inside
    obtain ⟨t, ts', hstep, ht⟩ := h.finish (by omega)
    exact ⟨1, t, ts', .cons hstep (reaches_zero.2 rfl), ht⟩
termination_by input.length - s.inp.pos

/-- The write of CMD that starts PACK from the start conditions of R243. -/
theorem State.packing_start {s : State} (h : s.Inv) (hstart : s.StartOk s.packRoom) :
    ((s.setHost []).start .pack).Packing s.inp.bytes [] := by
  obtain ⟨⟨hb, -, hpos, hout⟩, hroom⟩ := hstart
  exact
    { input_eq := by simp
      inside := by simp [hpos]
      output := by simpa [streamBytes] using ByteStream.bytes_of_len_zero hout
      canonical := canonical_nil _
      meaning := ⟨[], fun _ => rfl, by simp [hpos]⟩
      inv := start_inv (s := s.setHost []) h hb (by decide)
      busy := by simp
      op := by simp
      host := by simp
      out0 := by simp [hout]
      last := by simp
      room := by simp [hout]
      limit := by simpa [packBound] using hroom }

/-- PACK from the start conditions of R243, with the room of R98, runs to its end. -/
theorem pack_runs {s : State} (h : s.Inv) (hstart : s.StartOk s.packRoom) (hhost : s.host = [Cmd.pack.write]) :
    ∃ n t ts, Reaches n s t ∧ t.PackEnded s.inp.bytes ts := by
  obtain ⟨n, t, ts, hreach, ht⟩ := (State.packing_start h hstart).run
  obtain ⟨⟨hb, -⟩, -⟩ := hstart
  exact ⟨n + 1, t, ts, .cons (step_of_commandWrite (by decide) hb hhost) hreach, ht⟩

end Sys2Proof.Machine
end

section
/-! PROOFS. What PACK writes. -/

open Sys2Proof Sys2Proof.Machine

/-- Settles O54: at PACK's end OUT is within the bound. -/
theorem packOutputBound : Obligations.PackOutputBound := by
  intro s h hstart hhost
  obtain ⟨n, t, ts, hreach, ht⟩ := pack_runs h hstart hhost
  refine ⟨n, t, hreach, ht.host, ht.done, ht.consumed, ht.result, ht.bound.trans ?_⟩
  rw [ByteStream.bytes_length]

/-- Settles O56: at PACK's end the tokens in OUT are canonical and mean the whole input. -/
theorem packWritesCanonicalStream : Obligations.PackWritesCanonicalStream := by
  intro s h hstart hhost
  obtain ⟨n, t, ts, hreach, ht⟩ := pack_runs h hstart hhost
  obtain ⟨done, heff, hdone⟩ := ht.meaning
  have hcanonical := ht.canonical
  rw [ByteStream.bytes_length] at hcanonical
  refine ⟨n, t, ts, hreach, ht.host, ht.done, ht.output, fun i hi => ?_, fun pre post a b da db he => ?_,
    fun i post he => ?_, fun z pre i post o he hm => ?_, fun z => ?_⟩
  · obtain ⟨pre, post, he⟩ := List.append_of_mem hi
    have hafter := hcanonical pre i post he
    exact ⟨hafter.wf, hafter.token, fun l hl => hafter.offset (.inl ⟨l, hl⟩), fun l hl => hafter.offset (.inr ⟨l, hl⟩)⟩
  · rw [List.append_cons] at he
    exact (hcanonical _ _ _ he).run a da b db List.getLast?_concat rfl
  · exact (hcanonical [] i post he).first rfl
  · exact (hcanonical pre i post he).source z o hm
  · rw [heff z, ← List.append_nil done, ← ByteStream.bytes_of_len_zero ht.empty, hdone, ht.consumed,
      ht.toPacked.input_length, List.take_length]
end

section
/-! PROOFS. FIND run to its end, the matcher where no byte is compared, and the scan without the early stop. -/

namespace Sys2Proof.Machine

/-! ## FIND to its end (R192) -/

/-- A running command does one step of its operation (R20). -/
theorem State.command_of_running {s : State} {c : Cmd} (hb : s.phase = .busy) (ho : s.op = c) (run : State → Flow) :
    s.command c run = (run s).outcome :=
  (if_pos hb).trans (if_pos ho)

/-- A running FIND ends with the answer of the search: MLEN and RESULT its length, MPOS its position (R118, R192). -/
theorem exec_cmdFind_of_ok {s : State} {len pos : Nat} (hb : s.phase = .busy) (ho : s.op = .find)
    (h : findBest s.inp.toByteStream s.work.l s.work.p0 = .ok (len, pos)) : exec .cmdFind s =
      .next ((((s.setBest len pos).setWork
        { s.work with p := s.freePosition 0, k := s.freeCount 0 }).drawFree 1).finish len) := by
  have hrun := runMatcher_of_ok h
  calc exec .cmdFind s = (runFind s).outcome := State.command_of_running hb ho runFind
    _ = _ := by rw [runFind, hrun]; rfl

/-! ## Where no byte is compared (R120, R127) -/

/-- At a cursor at or past the end of the input no byte is peeked (R127). -/
theorem runLength_of_end {l p0 : Nat} (h : l ≤ p0) (inp : ByteStream) (p : Nat) : runLength inp l p p0 = .ok 0 :=
  if_neg (by omega)

/-- A scan whose every run length is 0 finds nothing. -/
theorem scanCandidates_of_end {l p0 : Nat} (h : l ≤ p0) (inp : ByteStream) :
    ∀ n p, scanCandidates inp l p0 n p 0 0 = .ok (0, 0)
  | 0, _ => rfl
  | n + 1, p => by simpa [scanCandidates, runLength_of_end h] using scanCandidates_of_end h inp n (p - 1)

/-- At positions 0 and 1 there is no candidate, at or past the end nothing to compare: FIND answers `(0, 0)`. -/
theorem findBest_of_end_or_le_one {l p0 : Nat} (h : l ≤ p0 ∨ p0 ≤ 1) (inp : ByteStream) :
    findBest inp l p0 = .ok (0, 0) := by
  unfold findBest
  split_ifs with h2
  · exact scanCandidates_of_end (by omega) inp _ _
  · rfl

/-! ## The early stop (R117) -/

/-- Once the best is 195 the scan without the stop keeps it: no run length is greater (R114). -/
theorem scanAll_of_maxMatch {inp : ByteStream} {l p0 : Nat} (hl : l ≤ inp.len) (pos : Nat) :
    ∀ n p, p < p0 → scanAll inp l p0 n p Config.maxMatch pos = .ok (Config.maxMatch, pos)
  | 0, _, _ => rfl
  | n + 1, p, hp => by
    obtain ⟨k, hk, ⟨hcap, -⟩, -⟩ := runLength_spec (inp := inp) (l := l) hl hp
    have hkeep : ¬ k > Config.maxMatch := Nat.not_lt.2 hcap
    simpa only [scanAll, hk, if_neg hkeep] using scanAll_of_maxMatch hl pos n (p - 1) (by omega)

/-- The scan with the stop is the scan without it, whatever the best so far. -/
theorem scanCandidates_eq_scanAll {inp : ByteStream} {l p0 : Nat} (hl : l ≤ inp.len) (n p len pos : Nat) (hp : p < p0) :
    scanCandidates inp l p0 n p len pos = scanAll inp l p0 n p len pos := by
  induction n generalizing p len pos with
  | zero => rfl
  | succ n ih =>
    obtain ⟨k, hk, -⟩ := runLength_spec (inp := inp) (l := l) hl hp
    simp only [scanCandidates, scanAll, hk]
    by_cases hstop : (if k > len then k else len) = Config.maxMatch
    · rw [if_pos hstop, hstop, scanAll_of_maxMatch hl _ n _ (by omega)]
    · rw [if_neg hstop, ih _ _ _ (by omega)]

end Sys2Proof.Machine
end

section
/-! PROOFS. What FIND answers. -/

open Sys2Proof Sys2Proof.Machine

/-- Settles O34: the search answers the nearest of the longest, and FIND ends with that answer. -/
theorem findAnswersNearestLongest : Obligations.FindAnswersNearestLongest := by
  intro s hb ho hl
  obtain ⟨len, pos, hfind, hlongest, hnone, hnearest⟩ := findBest_spec (p0 := s.work.p0) hl
  refine ⟨_, exec_cmdFind_of_ok hb ho hfind, ?_⟩
  simpa using ⟨hlongest, hnone, hnearest⟩

/-- Settles O35: the search answers `(0, 0)` without a peek, so no bound on IN is needed. -/
theorem findWithoutCandidates : Obligations.FindWithoutCandidates := by
  intro s hb ho h
  exact ⟨_, exec_cmdFind_of_ok hb ho (findBest_of_end_or_le_one h _), rfl, rfl, rfl, rfl⟩

/-- Settles O36: an answer is a repetition inside the input, and one of length 1 or more repeats the byte at the
cursor. -/
theorem findStaysInsideInput : Obligations.FindStaysInsideInput := by
  intro inp l p0 len pos hl hp0 hfind
  have hbest := findBest_bestOf hl hfind
  obtain ⟨-, -, hrange⟩ := hbest.range
  obtain ⟨-, -, hnearest⟩ := hbest
  have hinside : p0 + len ≤ l := by omega
  refine ⟨hinside, fun hlast => by omega, fun hnovel => ?_⟩
  by_contra hne
  have hpos : 1 ≤ len := Nat.one_le_iff_ne_zero.2 hne
  obtain ⟨hcandidate, ⟨-, -, hbytes⟩, -⟩ := hnearest hpos
  exact hnovel pos hcandidate (hbytes 0 hpos)

/-- Settles O37: position `p0 - 255` is a candidate, so its repetitions bound the answer; `p0 - 256` is none. -/
theorem windowBoundary : Obligations.WindowBoundary := by
  intro inp l p0 len pos k hl hp0 hfind
  have hbest := findBest_bestOf hl hfind
  obtain ⟨-, -, hrange⟩ := hbest.range
  obtain ⟨hlongest, -⟩ := hbest
  have hcandidate : Candidate p0 (p0 - 255) := by unfold Candidate; omega
  exact ⟨hlongest _ k hcandidate, fun hlen => by have := hrange hlen; omega⟩

/-- Settles O38: the two scans agree from the nearest candidate down. -/
theorem earlyStopChangesNothing : Obligations.EarlyStopChangesNothing := by
  intro inp l p0 hl
  unfold findBest findBestNoStop
  split_ifs with h2
  · exact scanCandidates_eq_scanAll hl _ _ 0 0 (by omega)
  · rfl
end

section
/-! PROOFS. One step of PACK, said once: from the invariant it takes a literal, writes a full run, writes a match, ends,
or raises CapacityFault. -/

namespace Sys2Proof.Machine

/-! ## Where OUT has room -/

section
variable {s : State} {n p : Nat} (hr : s.inp.pos < s.work.l) (hl : s.work.l ≤ s.inp.len)
  (hfind : findBest s.inp.toByteStream s.work.l s.inp.pos = .ok (n, p))
include hr hl hfind

theorem runPack_eq_afterLiteral (hn : n ≤ 3) (hacc : s.acc.len < 63) : runPack s = .go (afterLiteral s n p) :=
  (runPack_of_literal hr hfind hn).trans (accumulate_of_lt (s := afterMatcher s n p) (hr.trans_le hl) hacc)

/-- The 64th literal, where its run fits (R144). -/
theorem runPack_eq_afterFullRun (hn : n ≤ 3) (hacc : s.acc.len = 63) (hfits : s.out.len + 65 ≤ s.params.outLimit) :
    runPack s = .go (afterFlush (afterLiteral s n p)) :=
  calc runPack s = flush (afterLiteral s n p) :=
        (runPack_of_literal hr hfind hn).trans (accumulate_of_eq (s := afterMatcher s n p) (hr.trans_le hl) hacc)
    _ = flushPending (afterLiteral s n p) := (flushPending_of_pos (Nat.succ_pos _)).symm
    _ = .go (afterFlush (afterLiteral s n p)) := flushPending_of_fits (by simp [pendingBytes_length, hacc, hfits])

/-- A match, where the pending literals before it and its two bytes fit (R134, R142). -/
theorem runPack_eq_afterEmit (hn : 3 < n) (hfits : s.out.len + (pendingBytes s.acc).length + 2 ≤ s.params.outLimit) :
    runPack s = .go (afterEmit (afterFlush (afterMatcher s n p))) := by
  obtain ⟨h195, -, hrange⟩ := (findBest_bestOf hl hfind).range
  obtain ⟨hend, -⟩ := hrange (by omega)
  rw [runPack_of_match hr hfind hn, flushPending_of_fits (by simp; omega), Flow.andThen_go]
  exact emitMatch_of_fits (s := afterFlush (afterMatcher s n p)) h195 (hend.trans hl) (by simpa using hfits)

end

/-- PACK's end, where the pending literals fit (R145, R146). -/
theorem runPack_eq_finish {s : State} (hr : s.work.l ≤ s.inp.pos)
    (hfits : s.out.len + (pendingBytes s.acc).length ≤ s.params.outLimit) :
    runPack s = .go ((afterFlush s).finish ((afterFlush s).out.len - s.work.out0)) := by
  rw [runPack_of_end hr, packEnd, flushPending_of_fits hfits]
  rfl

theorem exec_cmdPack_of_go {s t : State} (hb : s.phase = .busy) (ho : s.op = .pack) (h : runPack s = .go t) :
    exec .cmdPack s = .next t :=
  (State.command_of_running hb ho runPack).trans (congrArg Flow.outcome h)

/-! ## Every step -/

/-- What one step of PACK can end in. -/
inductive PackEffect (s : State) : Flow → Prop where
  | literal (n p : Nat) (hr : s.inp.pos < s.inp.len) : PackEffect s (.go (afterLiteral s n p))
  | fullRun (n p : Nat) (hr : s.inp.pos < s.inp.len) : PackEffect s (.go (afterFlush (afterLiteral s n p)))
  | found (n p : Nat) (hn : 3 < n) (hbest : BestOf s.inp.mem s.inp.len s.inp.pos (Candidate s.inp.pos) n p) :
      PackEffect s (.go (afterEmit (afterFlush (afterMatcher s n p))))
  | ended : PackEffect s (.go ((afterFlush s).finish ((afterFlush s).out.len - s.work.out0)))
  | full (t : State) (h : s.CapacityFaulted t) : PackEffect s (.raised t)

section
variable {s : State} {n p : Nat} (hr : s.inp.pos < s.inp.len) (hl : s.work.l = s.inp.len)
  (hout : s.out.len ≤ s.params.outLimit)
  (hfind : findBest s.inp.toByteStream s.work.l s.inp.pos = .ok (n, p))
include hr hl hout hfind

/-- Without a match: the literal joins the pending ones, or completes a run that fits or does not. -/
theorem packEffect_of_literal (hn : n ≤ 3) (hacc : s.acc.len ≤ 63) : PackEffect s (runPack s) := by
  have hr' := hl ▸ hr
  by_cases hlt : s.acc.len < 63
  · exact runPack_eq_afterLiteral hr' hl.le hfind hn hlt ▸ .literal n p hr
  by_cases hfits : s.out.len + 65 ≤ s.params.outLimit
  · exact runPack_eq_afterFullRun hr' hl.le hfind hn (by omega) hfits ▸ .fullRun n p hr
  · obtain ⟨t, ht, hfault, -⟩ := runPack_fills_at_literal hr' hfind hout hl.le hn (by omega) (by omega)
    exact ht ▸ .full t hfault

/-- With a match: the pending literals and the token after them fit, or one of the two does not. -/
theorem packEffect_of_match (hn : 3 < n) : PackEffect s (runPack s) := by
  have hr' := hl ▸ hr
  by_cases hfits : s.out.len + (pendingBytes s.acc).length + 2 ≤ s.params.outLimit
  · exact runPack_eq_afterEmit hr' hl.le hfind hn hfits ▸ .found n p hn (hl ▸ findBest_bestOf hl.le hfind)
  by_cases hflush : s.out.len + (pendingBytes s.acc).length ≤ s.params.outLimit
  · obtain ⟨t, ht, hfault, -⟩ := runPack_fills_at_match hr' hfind hl.le hn hflush (by omega)
    exact ht ▸ .full t hfault
  · obtain ⟨t, ht, hfault, -⟩ := runPack_fills_at_flush hr' hfind hout hn (by omega)
    exact ht ▸ .full t hfault

end

/-- By whether input remains, what the matcher answers, and what fits. -/
theorem runPack_effect {s : State} (h : s.Inv) (hb : s.phase = .busy) : PackEffect s (runPack s) := by
  have hl := (h.running hb).l_eq
  have hacc := h.acc_len_le
  obtain ⟨⟨-, -, -, -, -, hout, -⟩, -⟩ := h
  by_cases hr : s.inp.pos < s.inp.len
  · obtain ⟨n, p, hfind, -⟩ := findBest_spec (p0 := s.inp.pos) hl.le
    by_cases hn : 3 < n
    · exact packEffect_of_match hr hl hout hfind hn
    · exact packEffect_of_literal hr hl hout hfind (by omega) hacc
  · by_cases hfits : s.out.len + (pendingBytes s.acc).length ≤ s.params.outLimit
    · exact runPack_eq_finish (by omega) hfits ▸ .ended
    · obtain ⟨t, ht, hfault, -⟩ := runPack_fills_at_end (by omega) hout (by omega)
      exact ht ▸ .full t hfault

end Sys2Proof.Machine
end

section
/-! PROOFS. The position invariant of PACK (R147): kept by each way a step of PACK writes OUT and ACC. -/

namespace Sys2Proof.Machine

/-- OUT holds the tokens `ts`, whose meaning with the bytes now in ACC after it is the input up to the cursor. -/
structure State.Positioned (s : State) (ts : List Instr) : Prop where
  tokens : ∀ i ∈ ts, i.wf = true ∧ i.isToken = true
  output : s.out.bytes = streamBytes ts
  meaning : ∀ z, ∃ done, streamEffect z ts [] = some done ∧ done ++ s.acc.bytes = s.inp.bytes.take s.inp.pos

theorem positionOk_iff {s : State} : s.PositionOk ↔ ∃ ts, s.Positioned ts := by
  have hmeaning (z : OffsetZero) (ts : List Instr) (out : List Byte) :
      streamEffect z (ts ++ s.pendingTokens) [] = some out ↔
        ∃ done, streamEffect z ts [] = some done ∧ done ++ s.acc.bytes = out := by
    simp [streamEffect_append, Option.bind_eq_some_iff]
  constructor
  · rintro ⟨ts, htokens, hout, heff⟩
    exact ⟨ts, htokens, hout, fun z => (hmeaning z ts _).1 (heff z)⟩
  · rintro ⟨ts, htokens, hout, heff⟩
    exact ⟨ts, htokens, hout, fun z => (hmeaning z ts _).2 (heff z)⟩

/-- The match found at the cursor, run on the input before it, gives the input up to the match's end (R114, R171). -/
theorem matchEffect_of_bestOf {t : ByteStream} {n p pos : Nat} (hn : 3 < n)
    (hbest : BestOf t.mem t.len pos (Candidate pos) n p) (z : OffsetZero) :
    matchEffect z (matchControl n) (offsetByte (matchOffset p pos)) (t.bytes.take pos) =
      some (t.bytes.take (pos + n)) := by
  obtain ⟨h195, -, hrange⟩ := hbest.range
  obtain ⟨hend, -, hp, hwindow⟩ := hrange (by omega)
  obtain ⟨-, -, hfound⟩ := hbest
  obtain ⟨-, ⟨-, -, hrepeat⟩, -⟩ := hfound (by omega)
  refine matchEffect_of_repeated ⟨hn, h195⟩ ⟨hp, hwindow⟩ (by simpa using hend) fun j hj => ?_
  rw [ByteStream.getD_bytes (by omega), ByteStream.getD_bytes (by omega), hrepeat j hj]

section
variable {s : State} {ts : List Instr} (h : s.Positioned ts)
include h

/-- A literal read into ACC (R144). -/
theorem State.Positioned.literal (hr : s.inp.pos < s.inp.len) (hwf : s.acc.mem.wf = true) (n p : Nat) :
    (afterLiteral s n p).Positioned ts where
  tokens := h.tokens
  output := h.output
  meaning z := by
    obtain ⟨done, heff, hdone⟩ := h.meaning z
    have hbyte : s.inp.bytes[s.inp.pos]? = some (s.inp.mem.read s.inp.pos) := by
      rw [ByteStream.bytes_getElem?, if_pos hr]
    have hacc : (afterLiteral s n p).acc.bytes = s.acc.bytes ++ [s.inp.mem.read s.inp.pos] :=
      ByteStream.append_bytes hwf _
    have htake : s.inp.bytes.take (s.inp.pos + 1) = s.inp.bytes.take s.inp.pos ++ [s.inp.mem.read s.inp.pos] := by
      rw [List.take_add_one, hbyte, Option.toList_some]
    exact ⟨done, heff, by rw [hacc, ← List.append_assoc, hdone]; exact htake.symm⟩

/-- The pending literals flushed (R140). -/
theorem State.Positioned.flush (h64 : s.acc.len ≤ 64) (hwf : s.out.mem.wf = true) :
    (afterFlush s).Positioned (ts ++ s.pendingTokens) where
  tokens i hi := (List.mem_append.1 hi).elim (h.tokens i) (State.pendingTokens_wf h64 i)
  output := by
    rw [streamBytes_append, State.streamBytes_pendingTokens h64, ← h.output]
    exact ByteStream.appendBytes_bytes _ hwf
  meaning z := by
    obtain ⟨done, heff, hdone⟩ := h.meaning z
    have hflushed : streamEffect z (ts ++ s.pendingTokens) [] = some (done ++ s.acc.bytes) := by
      rw [streamEffect_append, heff]
      exact s.streamEffect_pendingTokens z done
    exact ⟨_, hflushed, (List.append_nil _).trans hdone⟩

/-- With nothing pending, the match found at the cursor written (R142). -/
theorem State.Positioned.emit (hempty : s.acc.len = 0) (hwf : s.out.mem.wf = true) (hn : 3 < s.mlen)
    (hbest : BestOf s.inp.mem s.inp.len s.inp.pos (Candidate s.inp.pos) s.mlen s.mpos) :
    (afterEmit s).Positioned
      (ts ++ [decodeMatch (matchControl s.mlen) (offsetByte (matchOffset s.mpos s.inp.pos))]) where
  tokens i hi := by
    rcases List.mem_append.1 hi with hmem | hmem
    · exact h.tokens i hmem
    · rw [List.mem_singleton.1 hmem]
      exact decodeMatch_wf_isToken (matchControl_spec hn hbest.range.1).1 _
  output := by
    obtain ⟨hc, -⟩ := matchControl_spec hn hbest.range.1
    rw [streamBytes_append, streamBytes_cons, tokenBytes_decodeMatch hc, ← h.output]
    exact ByteStream.appendBytes_bytes _ hwf
  meaning z := by
    obtain ⟨done, heff, hdone⟩ := h.meaning z
    have hnone : s.acc.bytes = [] := ByteStream.bytes_of_len_zero hempty
    rw [hnone, List.append_nil] at hdone
    have htoken := (tokenEffect_decodeMatch (matchControl_spec hn hbest.range.1).1 z _ _).trans
      (matchEffect_of_bestOf hn hbest z)
    refine ⟨s.inp.bytes.take (s.inp.pos + s.mlen), ?_, by rw [afterEmit_acc, hnone, List.append_nil]; rfl⟩
    rw [streamEffect_append, heff, hdone]
    exact streamEffect_cons.2 ⟨_, htoken, rfl⟩

end

/-- A step of PACK keeps the position invariant or takes an exception (R147). -/
theorem PackEffect.position {s : State} {x : Flow} (hx : PackEffect s x) (h : s.Inv) (hs : s.PositionOk) :
    x.Post State.PositionOk (fun t => t.phase = .fault) := by
  have h63 := h.acc_len_le
  obtain ⟨⟨-, hout, hacc, -⟩, -⟩ := h
  obtain ⟨ts, hts⟩ := positionOk_iff.1 hs
  cases hx with
  | literal n p hr => exact positionOk_iff.2 ⟨ts, hts.literal hr hacc n p⟩
  | fullRun n p hr =>
    exact positionOk_iff.2 ⟨_, (hts.literal hr hacc n p).flush (Nat.succ_le_succ h63) hout⟩
  | found n p hn hbest =>
    have hmatcher : (afterMatcher s n p).Positioned ts := ⟨hts.tokens, hts.output, hts.meaning⟩
    have hflushed := hmatcher.flush (h63.trans (by decide)) hout
    exact positionOk_iff.2 ⟨_, hflushed.emit rfl (ByteStream.appendBytes_wf _ hout) hn hbest⟩
  | ended =>
    have hflushed := hts.flush (h63.trans (by decide)) hout
    exact positionOk_iff.2 ⟨_, hflushed.tokens, hflushed.output, hflushed.meaning⟩
  | full t ht =>
    obtain ⟨hphase, -⟩ := ht
    exact hphase

end Sys2Proof.Machine
end

section
/-! PROOFS. The position invariant at PACK's start and over its steps. -/

open Sys2Proof Sys2Proof.Machine

/-- Settles O44: the host can do nothing to a running PACK but reset it, which leaves no operation to speak of; on the
sequencer's turn a step is one of PACK. -/
theorem packKeepsPositionInvariant : Obligations.PackKeepsPositionInvariant := by
  intro s t h hb ho hs hstep hphase
  rcases step_cases hstep with ⟨m, rest, -, heff⟩ | ⟨-, hidle, -⟩ | ⟨-, -, hrun⟩
  · have hturn : (s.setHost rest).phase = .busy := hb
    cases heff with
    | readOnly => exact hs
    | dropped => exact hs
    | resetBlock => simp at hphase
    | _ => contradiction
  · exact absurd hb hidle
  · have hturn : s.afterTurn.Inv := h
    rw [runOperation_of_pack (by exact ho)] at hrun
    have hpost := (runPack_effect hturn hb).position hturn hs
    refine (hpost.imp (G' := fun t => t.phase = .busy ∨ t.phase = .done → t.PositionOk) (fun _ ht _ => ht)
      fun u hu hgoes => ?_).outcome hrun hphase
    simp [hu] at hgoes

/-- Settles O43: no token is written, no byte is pending, and the cursor is at 0. -/
theorem packStartMeetsPositionInvariant : Obligations.PackStartMeetsPositionInvariant := by
  rintro s rest ⟨hb, -, hpos, hout⟩ hhost
  have hstep : step s = .next ((s.setHost rest).start .pack) :=
    (step_of_hostTurn hhost).trans (hostStep_eq_next_iff.2 (.start .pack (by decide) hb))
  refine ⟨_, hstep, by simp, by simp, positionOk_iff.2 ⟨[], nofun, ?_, fun _ => ⟨[], rfl, ?_⟩⟩⟩
  · simpa [streamBytes] using ByteStream.bytes_of_len_zero hout
  · simp [hpos]
end

section
/-! PROOFS. PACK's steps field by field, and its failed seek. -/

namespace Sys2Proof.Machine

/-- The control byte of a run of `len` bytes written out (R87). -/
theorem litControl_eq_ofNat {len : Nat} (h1 : 1 ≤ len) (h64 : len ≤ 64) :
    litControl len = BitVec.ofNat 8 (0xC0 + len - 1) := by
  have hbits : (BitVec.ofNat 6 (len - 1)).toNat = len - 1 := toNat_sixBits (by omega)
  refine BitVec.eq_of_toNat_eq ?_
  rw [litControl_of_le h1 h64, toNat_litrunControl, hbits, BitVec.toNat_ofNat]
  omega

/-- The bytes of the pending run, its control byte written out. -/
theorem pendingBytes_eq {acc : ByteStream} (h64 : acc.len ≤ 64) : pendingBytes acc =
    if acc.len = 0 then [] else BitVec.ofNat 8 (0xC0 + acc.len - 1) :: acc.bytes := by
  unfold pendingBytes
  split_ifs with hz
  · rfl
  · rw [runBytes, litControl_eq_ofNat (by omega) h64]

end Sys2Proof.Machine
end

section
/-! PROOFS. What each step of PACK does. -/

open Sys2Proof Sys2Proof.Machine

/-- Settles O39: the step is `afterLiteral`, and at the 64th byte the flush after it. -/
theorem packTakesLiteral : Obligations.PackTakesLiteral := by
  intro s len pos h hb ho hr hfind hlen hroom
  have hl := (h.running hb).l_eq.le
  have h63 := h.acc_len_le
  obtain ⟨⟨-, hout, hacc, -⟩, -⟩ := h
  have hbytes := ByteStream.append_bytes hacc (s.inp.mem.read s.inp.pos)
  rcases Nat.lt_or_eq_of_le h63 with hlt | hfull
  · refine ⟨_, exec_cmdPack_of_go hb ho (runPack_eq_afterLiteral hr hl hfind hlen hlt), ?_⟩
    simp [afterLiteral, afterMatcher, hlt.ne, hbytes, hb, ho]
  · have hrun : pendingBytes (s.acc.append (s.inp.mem.read s.inp.pos)) =
        0xFF :: (s.acc.bytes ++ [s.inp.mem.read s.inp.pos]) := by
      rw [pendingBytes_eq (by simp; omega), hbytes, ByteStream.append_len, hfull]
      rfl
    refine ⟨_, exec_cmdPack_of_go hb ho (runPack_eq_afterFullRun hr hl hfind hlen hfull (hroom hfull)), ?_⟩
    simp [-ByteStream.appendBytes_cons, afterFlush, afterLiteral, afterMatcher, hfull, hrun,
      ByteStream.appendBytes_bytes _ hout, hb, ho]

/-- Settles O40: the step is `afterEmit` of the flush, so OUT takes the pending run and then the token's two bytes. -/
theorem packEmitsMatch : Obligations.PackEmitsMatch := by
  intro s len pos h hb ho hr hfind hlen hroom
  have hl := (h.running hb).l_eq.le
  have h63 := h.acc_len_le
  obtain ⟨⟨-, hout, -⟩, -⟩ := h
  rw [← pendingBytes_length] at hroom
  have hclamp : clampLength len = len := clampLength_of_le (findBest_bestOf hl hfind).range.1
  have hbytes (bs cs : List Byte) : ((s.out.appendBytes bs).appendBytes cs).bytes = s.out.bytes ++ bs ++ cs := by
    rw [ByteStream.appendBytes_bytes _ (ByteStream.appendBytes_wf _ hout), ByteStream.appendBytes_bytes _ hout]
  refine ⟨_, exec_cmdPack_of_go hb ho (runPack_eq_afterEmit hr hl hfind hlen hroom), ?_⟩
  rw [← pendingBytes_eq (h63.trans (by decide))]
  simp [-ByteStream.appendBytes_cons, afterEmit, emitStart, afterFlush, afterMatcher, hbytes, hclamp, hb, ho,
    matchControl, offsetByte, matchOffset]

/-- Settles O41: the step is the flush and then `State.finish`. -/
theorem packEnds : Obligations.PackEnds := by
  intro s h hb ho hr hroom
  have h63 := h.acc_len_le
  obtain ⟨⟨-, hout, -⟩, -⟩ := h
  rw [← pendingBytes_length] at hroom
  refine ⟨_, exec_cmdPack_of_go hb ho (runPack_eq_finish hr hroom), ?_⟩
  rw [← pendingBytes_eq (h63.trans (by decide))]
  simp [afterFlush, ByteStream.appendBytes_bytes _ hout, ho]

/-- Settles O45: the seek fails before anything of the token is appended. -/
theorem emitMatchSeekFaults : Obligations.EmitMatchSeekFaults := by
  intro s h
  rw [← clampLength_eq_min] at h
  refine ⟨_, emitMatch_of_seek_fails h, ?_⟩
  simp [emitStart]
end

section
/-! PROOFS. SeekFault: the decoder's statements and FIND have no seek, and PACK's is of a match that lies inside IN. -/

namespace Sys2Proof.Machine

/-- A statement that records no SeekFault, whether it goes on or takes an exception. -/
abbrev Flow.Seekless (x : Flow) : Prop := x.Post (·.status ≠ .seek) (·.status ≠ .seek)

theorem State.appendOut_seekless {s : State} (h : s.status ≠ .seek) (b : Byte) : (s.appendOut b).Seekless :=
  State.appendOut_post h nofun

theorem State.readIn_seekless {s : State} (h : s.status ≠ .seek) {f : Byte → State → Flow}
    (hf : ∀ b u, u.status ≠ .seek → (f b u).Seekless) : (s.readIn f).Seekless :=
  State.readIn_post fun _ => hf _ _ h

/-! ## The decoder -/

theorem copyLiterals_seekless : ∀ (bs : List Byte) {s : State}, s.status ≠ .seek → (copyLiterals bs s).Seekless
  | [], _, h => h
  | b :: bs, _, h => State.readIn_seekless h fun _ _ hu =>
      (State.appendOut_seekless hu b).andThen fun _ hv => copyLiterals_seekless bs hv

theorem copyMatch_seekless : ∀ (n : Nat) {s : State}, s.status ≠ .seek → (copyMatch n s).Seekless
  | 0, _, h => h
  | n + 1, s, h => by
    unfold copyMatch
    cases s.peekOut (s.work.base + s.work.i) with
    | error e => trivial
    | ok b => exact (State.appendOut_seekless h b).andThen fun _ hu => copyMatch_seekless n hu

/-! The status in the states between the statements of a step of PACK. -/

section
variable (s : State)

@[simp] theorem afterMatcher_status (n p : Nat) : (afterMatcher s n p).status = s.status := rfl
@[simp] theorem afterLiteral_status (n p : Nat) : (afterLiteral s n p).status = s.status := rfl
@[simp] theorem afterFlush_status : (afterFlush s).status = s.status := rfl
@[simp] theorem afterEmit_status : (afterEmit s).status = s.status := rfl

end

section
variable {s : State} (h : s.status ≠ .seek)
include h

theorem fetchControl_seekless (c : Byte) : (fetchControl c s).Seekless :=
  State.readIn_seekless h fun _ _ hu => hu

theorem runLitrun_seekless (nm1 : BitVec 6) (data : List Byte) : (runLitrun nm1 data s).Seekless := by
  refine (fetchControl_seekless h _).andThen fun u hu => ?_
  dsimp only
  split_ifs
  · nofun
  · exact copyLiterals_seekless data hu

theorem runMatch_seekless (c o : Byte) : (runMatch c o s).Seekless := by
  refine (fetchControl_seekless h c).andThen fun u hu => ?_
  split_ifs
  · nofun
  · refine Flow.Post.andThen (State.readIn_seekless hu fun _ _ hv => hv) fun v hv => ?_
    dsimp only
    split_ifs
    · nofun
    · nofun
    · exact copyMatch_seekless _ hv

theorem runToken_seekless (i : Instr) : (runToken i s).Seekless := by
  cases i with
  | litrun nm1 data => exact runLitrun_seekless h nm1 data
  | matchLo l o => exact runMatch_seekless h _ o
  | matchHi l o => exact runMatch_seekless h _ o
  | _ => exact h

theorem rejectToken_seekless (e : DecodeError) : (rejectToken e s).Seekless := by
  cases e with
  | endOfStream => trivial
  | _ =>
    refine (fetchControl_seekless h _).andThen fun u _ => ?_
    split_ifs
    · nofun
    · trivial

theorem runUnpack_seekless : (runUnpack s).Seekless := by
  unfold runUnpack
  split_ifs
  · cases s.fetchToken with
    | ok i => exact runToken_seekless h i
    | error e => exact rejectToken_seekless h e
  · exact h

/-! ## FIND and PACK -/

theorem runFind_seekless : (runFind s).Seekless := by
  unfold runFind runMatcher
  cases findBest s.inp.toByteStream s.work.l s.work.p0 with
  | error e => trivial
  | ok best => simpa using h

/-- The only exception a step of PACK takes is CapacityFault (R143). -/
theorem PackEffect.seekless {x : Flow} (hx : PackEffect s x) : x.Seekless := by
  cases hx with
  | full t ht =>
    obtain ⟨-, hstatus, -⟩ := ht
    simp [hstatus]
  | _ => simpa using h

/-- One step of the operation that runs. -/
theorem runOperation_seekless (hinv : s.Inv) (hb : s.phase = .busy) : (runOperation s).Seekless := by
  unfold runOperation
  cases s.op with
  | none => exact h
  | find => exact runFind_seekless h
  | pack => exact (runPack_effect hinv hb).seekless h
  | unpack => exact runUnpack_seekless h

end

end Sys2Proof.Machine
end

section
/-! PROOFS. SeekFault is not reached. -/

open Sys2Proof Sys2Proof.Machine

/-- Settles O46: the host's moves leave the record or clear it, and no operation records SeekFault. -/
theorem seekFaultIsUnreachable : Obligations.SeekFaultIsUnreachable := by
  intro s t h hs hstep
  rcases step_cases hstep with ⟨m, rest, -, heff⟩ | ⟨-, -, rfl⟩ | ⟨-, hb, hrun⟩
  · rcases hostEffect_record heff with ⟨-, hstatus, -⟩ | ⟨c, -, -, -, rfl⟩ | ⟨-, rfl⟩
    · exact hstatus ▸ hs
    · simp
    · simp
  · exact hs
  · have hturn : s.afterTurn.Inv := h
    exact (runOperation_seekless (s := s.afterTurn) hs hturn hb).outcome hrun
end

section
/-! PROOFS. The round trip: the tokens at PACK's end, run by UNPACK; and what they are when all bytes of the input
differ. -/

namespace Sys2Proof.Machine

/-! ## The tokens at PACK's end -/

section
variable {t : State} {input : List Byte} {ts : List Instr} (h : t.PackEnded input ts)
include h

theorem State.PackEnded.tokens : ∀ i ∈ ts, i.wf = true ∧ i.isToken = true := by
  intro i hi
  obtain ⟨pre, post, he⟩ := List.append_of_mem hi
  have hafter := h.canonical pre i post he
  exact ⟨hafter.wf, hafter.token⟩

/-- With nothing pending and all input consumed, the tokens mean the whole input (R147). -/
theorem State.PackEnded.effect (z : OffsetZero) : streamEffect z ts [] = some input := by
  obtain ⟨done, heff, hdone⟩ := h.meaning
  rw [ByteStream.bytes_of_len_zero h.empty, List.append_nil, h.consumed, h.toPacked.input_length,
    List.take_length] at hdone
  exact hdone ▸ heff z

end

/-! ## Inputs whose bytes all differ (R154) -/

theorem tokenEffect_sublist {z : OffsetZero} {i : Instr} {out out' : List Byte} (h : tokenEffect z i out = some out') :
    out.Sublist out' := by
  cases i with
  | litrun => cases h; exact List.sublist_append_left _ _
  | matchLo => obtain ⟨-, -, rfl⟩ := matchEffect_eq_some h; exact List.sublist_append_left _ _
  | matchHi => obtain ⟨-, -, rfl⟩ := matchEffect_eq_some h; exact List.sublist_append_left _ _
  | _ => cases h; exact List.Sublist.refl _

theorem streamEffect_sublist {z : OffsetZero} : ∀ {ts : List Instr} {out out' : List Byte},
    streamEffect z ts out = some out' → out.Sublist out'
  | [], _, _, h => by cases h; exact List.Sublist.refl _
  | _ :: _, _, _, h => by
    obtain ⟨mid, hi, hts⟩ := streamEffect_cons.1 h
    exact (tokenEffect_sublist hi).trans (streamEffect_sublist hts)

/-- A match repeats a byte: the first it appends stands in the output before it (R171). -/
theorem not_nodup_of_matchEffect {z : OffsetZero} {c o : Byte} {out out' : List Byte}
    (h : matchEffect z c o out = some out') : ¬out'.Nodup := by
  obtain ⟨-, hnear, rfl⟩ := matchEffect_eq_some h
  have hd := (distance_range o).1
  have hsource : out.length - distance o < out.length := by omega
  intro hnodup
  refine (List.nodup_append.1 hnodup).2.2 _ (List.getElem_mem hsource) _
    (List.mem_map.2 ⟨0, List.mem_range.2 (Nat.succ_pos _), rfl⟩) ?_
  rw [Nat.zero_mod, Nat.add_zero, List.getD_eq_getElem _ _ hsource]

/-- Tokens that mean bytes that all differ are literal runs. -/
theorem litruns_of_nodup {z : OffsetZero} : ∀ {ts : List Instr} {out out' : List Byte},
    streamEffect z ts out = some out' → out'.Nodup → (∀ i ∈ ts, i.wf = true ∧ i.isToken = true) →
    ∀ i ∈ ts, ∃ nm1 data, i = .litrun nm1 data ∧ data.length = nm1.toNat + 1
  | [], _, _, _, _, _ => nofun
  | i :: ts, out, out', h, hnodup, htokens => by
    obtain ⟨⟨hw, ht⟩, htokens⟩ := List.forall_mem_cons.1 htokens
    obtain ⟨mid, hi, hts⟩ := streamEffect_cons.1 h
    have hmid : mid.Nodup := hnodup.sublist (streamEffect_sublist hts)
    refine List.forall_mem_cons.2 ⟨?_, litruns_of_nodup hts hnodup htokens⟩
    cases i with
    | litrun nm1 data => exact ⟨nm1, data, rfl, by simpa [Instr.wf] using hw⟩
    | matchLo l o => exact absurd hmid (not_nodup_of_matchEffect hi)
    | matchHi l o => exact absurd hmid (not_nodup_of_matchEffect hi)
    | _ => cases ht

theorem streamEffect_litrun_cons (z : OffsetZero) (nm1 : BitVec 6) (data : List Byte) (ts : List Instr)
    (out : List Byte) : streamEffect z (.litrun nm1 data :: ts) out = streamEffect z ts (out ++ data) := rfl

/-- In a canonical stream a run that another run follows is full (R95). -/
theorem Canonical.full_of_next {n : Nat} {a b : BitVec 6} {da db : List Byte} {ts : List Instr}
    (h : Canonical n (.litrun a da :: .litrun b db :: ts)) : a = 63 :=
  (h [.litrun a da] (.litrun b db) ts rfl).run a da b db rfl rfl

/-- A canonical stream of literal runs that mean 64 bytes is one run, and of 65 bytes a full run and a run of 1. -/
theorem canonical_runs_eq {z : OffsetZero} {input : List Byte} {ts : List Instr} (hts : Canonical input.length ts)
    (heff : streamEffect z ts [] = some input)
    (hruns : ∀ i ∈ ts, ∃ nm1 data, i = .litrun nm1 data ∧ data.length = nm1.toNat + 1)
    (hlen : input.length = 64 ∨ input.length = 65) :
    (input.length = 64 ∧ ts = [.litrun 63 input]) ∨
    (input.length = 65 ∧ ts = [.litrun 63 (input.take 64), .litrun 0 (input.drop 64)]) := by
  match ts with
  | [] =>
    cases heff
    simp at hlen
  | [i] =>
    obtain ⟨a, da, rfl, hda⟩ := hruns i (by simp)
    cases heff
    rw [List.nil_append] at hlen ⊢
    have ha := a.isLt
    have hfull : a = 63 := BitVec.eq_of_toNat_eq (show a.toNat = 63 by omega)
    exact .inl ⟨by omega, by rw [hfull]⟩
  | i :: j :: rest =>
    obtain ⟨a, da, rfl, hda⟩ := hruns i (by simp)
    obtain ⟨b, db, rfl, hdb⟩ := hruns j (by simp)
    obtain rfl : a = 63 := hts.full_of_next
    have hda : da.length = 64 := hda
    rw [streamEffect_litrun_cons, streamEffect_litrun_cons, List.nil_append] at heff
    match rest with
    | [] =>
      cases heff
      rw [List.length_append] at hlen ⊢
      have hone : b = 0 := BitVec.eq_of_toNat_eq (show b.toNat = 0 by omega)
      refine .inr ⟨by omega, ?_⟩
      rw [hone, List.take_left' hda, List.drop_left' hda]
    | k :: rest =>
      obtain ⟨c, dc, rfl, hdc⟩ := hruns k (by simp)
      rw [streamEffect_litrun_cons] at heff
      have hlong := streamEffect_length_le heff
      simp only [List.length_append] at hlong
      omega

end Sys2Proof.Machine
end

section
/-! PROOFS. The round trip of PACK and UNPACK. -/

open Sys2Proof Sys2Proof.Machine

/-- Settles O53: at PACK's end the tokens in OUT mean the input, and UNPACK runs a stream of tokens to its meaning. -/
theorem unpackOfPackIsIdentity : Obligations.UnpackOfPackIsIdentity := by
  intro s h hstart hhost
  obtain ⟨n, t, ts, hreach, ht⟩ := pack_runs h hstart hhost
  refine ⟨n, t, hreach, ht.host, ht.done, ht.result, ht.consumed, ?_⟩
  rintro u hu ⟨⟨hb, -, hpos, hout⟩, hroom⟩ huhost hinput
  have heffect : streamEffect u.params.offsetZero ts u.out.bytes = some s.inp.bytes := by
    rw [ByteStream.bytes_of_len_zero hout]
    exact ht.effect _
  obtain ⟨m, v, -, hreach', hvhost, hdone, hbytes, hresult, -⟩ :=
    unpackRunsEveryWellFormedStream u ts s.inp.bytes hu hb hpos huhost ht.tokens (hinput.trans ht.output) heffect
      (by simpa using hroom)
  exact ⟨m, v, hreach', hvhost, hdone, hbytes, by simpa using hresult⟩

/-- Settles O57: what PACK wrote is a canonical stream, its tokens are literal runs since no byte repeats, and of these
there is only one such stream. -/
theorem distinctBytesPackAsLiteralRuns : Obligations.DistinctBytesPackAsLiteralRuns := by
  intro s h hstart hhost hnodup hlen
  obtain ⟨n, t, ts, hreach, ht⟩ := pack_runs h hstart hhost
  have heff := ht.effect .asMinus256
  have hruns := litruns_of_nodup heff hnodup ht.tokens
  refine ⟨n, t, hreach, ht.host, ht.done, ?_⟩
  rw [ht.output, ← s.inp.bytes_length]
  rw [← s.inp.bytes_length] at hlen
  rcases canonical_runs_eq ht.canonical heff hruns hlen with ⟨h64, rfl⟩ | ⟨h65, rfl⟩
  · exact ⟨fun _ => by simp [streamBytes, tokenBytes, encode, litrunControl], by omega⟩
  · exact ⟨by omega, fun _ => by simp [streamBytes, tokenBytes, encode, litrunControl]⟩
end

section
/-! PROOFS. UNPACK's step in closed form: the token at the cursor, a token that IN cuts off, and the end; and a match as
a token of either row. -/

namespace Sys2Proof.Machine

/-! ## UNPACK's step (R160) -/

/-- A running UNPACK with no input remaining ends (R172). -/
theorem exec_cmdUnpack_of_end {s : State} (hb : s.phase = .busy) (ho : s.op = .unpack) (hr : s.work.l ≤ s.inp.pos) :
    exec .cmdUnpack s = .next (s.finish s.out.len) := by
  have hremains : ¬s.inputRemains = true := by simp [State.inputRemains_eq_false_iff.2 hr]
  calc exec .cmdUnpack s = (runUnpack s).outcome := State.command_of_running hb ho runUnpack
    _ = _ := by rw [runUnpack, if_neg hremains]; rfl

/-- A running UNPACK with input remaining executes the token it fetches (R160, R164). -/
theorem exec_cmdUnpack_of_fetched {s : State} {i : Instr} (hb : s.phase = .busy) (ho : s.op = .unpack)
    (hr : s.inp.pos < s.work.l) (hf : s.fetchToken = .ok i) : exec .cmdUnpack s = exec i s :=
  calc exec .cmdUnpack s = (runUnpack s).outcome := State.command_of_running hb ho runUnpack
    _ = (runToken i s).outcome := by rw [runUnpack, if_pos (State.inputRemains_iff.2 hr), hf]
    _ = exec i s := (exec_of_isToken (fetchToken_wf_isToken hf).2 s).symm

/-! ## Cut-off tokens (R165, R167) -/

/-- With input remaining, bytes the decoder rejects go to `rejectToken` (log entry 16). -/
theorem sequencerStep_of_rejected {s : State} {e : DecodeError} (hb : s.phase = .busy) (ho : s.op = .unpack)
    (hr : s.inp.pos < s.work.l) (hf : s.fetchToken = .error e) : sequencerStep s = (rejectToken e s).outcome := by
  simp [sequencerStep, State.nextInstr, hb, ho, State.inputRemains_iff.2 hr, hf]

/-- TruncatedFault of the token at the cursor: its control byte `c` is read, and nothing else (R211). -/
def State.raiseCutOff (s : State) (c : Byte) : State :=
  ((s.setInp { s.inp with pos := s.inp.pos + 1 }).setWork { s.work with c := c }).raise .truncated s.inp.pos

section
variable {s : State} (hr : s.inp.pos < s.inp.len)
include hr

theorem rejectToken_of_short_run {c : Byte} (h : s.work.l - (s.inp.pos + 1) < litRunLength c) :
    rejectToken (.truncatedLiteralRun c) s = .raised (s.raiseCutOff c) := by
  rw [rejectToken, fetchControl_of_lt hr, Flow.andThen_go, if_pos (by exact h)]
  rfl

theorem rejectToken_of_lone_match {c : Byte} (h : s.work.l ≤ s.inp.pos + 1) :
    rejectToken (.truncatedMatch c) s = .raised (s.raiseCutOff c) := by
  rw [rejectToken, fetchControl_of_lt hr, Flow.andThen_go, if_pos (by exact h)]
  rfl

/-- A token that IN does not hold whole is rejected by the decoder and raises TruncatedFault: a literal run short of
data, or a match without its offset byte. -/
theorem fetchToken_of_cutOff (hl : s.work.l = s.inp.len)
    (hneed : s.inp.len - (s.inp.pos + 1) < tokenNeed (s.inp.mem.read s.inp.pos)) :
    ∃ e, s.fetchToken = .error e ∧ rejectToken e s = .raised (s.raiseCutOff (s.inp.mem.read s.inp.pos)) := by
  obtain ⟨rest, hbytes, hlen, -⟩ := fetchBytes_cons hl hr
  simp only [State.fetchToken, hbytes]
  generalize s.inp.mem.read s.inp.pos = c at hneed ⊢
  rcases hc : isLiteral c
  case true =>
    have hshort : s.inp.len - (s.inp.pos + 1) < litRunLength c := by simpa [tokenNeed, hc] using hneed
    have := litRunLength_le c
    rw [decodeToken_of_short_run hc (by omega)]
    exact ⟨_, rfl, rejectToken_of_short_run hr (hl ▸ hshort)⟩
  case false =>
    have hend : s.inp.len - (s.inp.pos + 1) < 1 := by simpa [tokenNeed, hc] using hneed
    obtain rfl : rest = [] := List.length_eq_zero_iff.1 (by omega)
    rw [decodeToken_of_lone_match hc]
    exact ⟨_, rfl, rejectToken_of_lone_match hr (by omega)⟩

end

/-! ## A match token of either row (R93) -/

theorem exec_of_matchControl {i : Instr} {c o : Byte}
    (h : (∃ l, i = .matchLo l o ∧ c = matchLoControl l) ∨ ∃ l, i = .matchHi l o ∧ c = matchHiControl l) (s : State) :
    exec i s = (runMatch c o s).outcome := by
  rcases h with ⟨l, rfl, rfl⟩ | ⟨l, rfl, rfl⟩ <;> rfl

theorem exec_of_isMatchWith {i : Instr} {o : Byte} (h : IsMatchWith i o) (s : State) :
    ∃ c, exec i s = (runMatch c o s).outcome := by
  rcases h with ⟨l, rfl⟩ | ⟨l, rfl⟩
  · exact ⟨matchLoControl l, rfl⟩
  · exact ⟨matchHiControl l, rfl⟩

end Sys2Proof.Machine
end

section
/-! PROOFS. The frame of the tokens, beside what `State.Quiet` says: the registers that a token writes, how many bytes
of OUT, and what an exception leaves. -/

namespace Sys2Proof.Machine

/-- What a token that appends at most `n` bytes keeps of `s`, whether it completes or faults, beside the frame. -/
structure State.TokenKept (s : State) (n : Nat) (t : State) : Prop where
  op : t.op = s.op
  p0 : t.work.p0 = s.work.p0
  out_len : t.out.len ≤ s.out.len + n

/-- `t` is `s` after such a token took an exception (R220). -/
structure State.TokenFaulted (s : State) (n : Nat) (t : State) : Prop extends s.TokenKept n t where
  phase : t.phase = .fault
  status : t.status = .truncated ∨ t.status = .distance ∨ t.status = .capacity
  result : t.result = 0
  acc_len : t.acc.len = 0

/-- `t` is `s` after such a token completed: of the registers it wrote only its own working registers. -/
structure State.TokenCompleted (s : State) (n : Nat) (t : State) : Prop extends s.TokenKept n t where
  phase : t.phase = s.phase
  status : t.status = s.status
  info : t.info = s.info
  result : t.result = s.result
  acc_len : t.acc.len = s.acc.len
  l : t.work.l = s.work.l
  out0 : t.work.out0 = s.work.out0
  p : t.work.p = s.work.p
  k : t.work.k = s.work.k

/-- `t` comes after a literal run, which leaves the registers of the last match as they are. -/
structure State.RunCompleted (s : State) (n : Nat) (t : State) : Prop extends s.TokenCompleted n t where
  o : t.work.o = s.work.o
  off : t.work.off = s.work.off
  base : t.work.base = s.work.base

/-- A token that takes an exception before it appends anything (R220). -/
theorem State.tokenFaulted_raise (s : State) {u : State} {n info : Nat} {x : Status} (hop : u.op = s.op)
    (hp0 : u.work.p0 = s.work.p0) (hout : u.out = s.out) (hx : x = .truncated ∨ x = .distance ∨ x = .capacity) :
    s.TokenFaulted n (u.raise x info) :=
  ⟨⟨hop, hp0, hout ▸ Nat.le_add_right _ _⟩, rfl, hx, rfl, rfl⟩

/-! ## Statements -/

theorem fetchControl_goes {R : State → Prop} (c : Byte) (s : State) : (fetchControl c s).Post
    (· = (s.setInp { s.inp with pos := s.inp.pos + 1 }).setWork { s.work with c := c }) R :=
  State.readIn_post fun _ => rfl

theorem fetchOffset_goes {R : State → Prop} (o : Byte) (s : State) : (fetchOffset o s).Post
    (· = (s.setInp { s.inp with pos := s.inp.pos + 1 }).setWork { s.work with o := o, off := negoff o }) R :=
  State.readIn_post fun _ => rfl

/-- Where a statement of the copy goes on from `u`, the rest of the copy faults as from `s`. -/
theorem State.TokenFaulted.after {s u t : State} {n : Nat} (h : u.TokenFaulted n t) (hop : u.op = s.op)
    (hp0 : u.work.p0 = s.work.p0) (hlen : u.out.len ≤ s.out.len + 1) : s.TokenFaulted (n + 1) t :=
  { h with
    op := h.op.trans hop
    p0 := h.p0.trans hp0
    out_len := by have := h.out_len; omega }

/-- The literal copy appends all its bytes, or faults where OUT is full (R166, R216). -/
theorem copyLiterals_post : ∀ (bs : List Byte) (s : State), (copyLiterals bs s).Post
    (· = ((s.setOut (s.out.appendBytes bs)).setInp { s.inp with pos := s.inp.pos + bs.length }).setWork
      { s.work with i := s.work.i + bs.length })
    (s.TokenFaulted bs.length)
  | [], _ => rfl
  | b :: bs, s => State.readIn_post fun _ => by
    refine Flow.Post.andThen (State.appendOut_post
      (G := (· = (s.setInp { s.inp with pos := s.inp.pos + 1 }).setOut (s.out.append b))) rfl
      (s.tokenFaulted_raise rfl rfl rfl (.inr (.inr rfl)))) fun _ hu => ?_
    subst hu
    refine (copyLiterals_post bs _).imp (fun t ht => ?_) fun t ht => ht.after rfl rfl (le_refl _)
    simpa [State.setOut, State.setInp, State.setWork, Nat.add_assoc, Nat.add_comm 1] using ht

/-- The match copy appends `n` bytes, or faults where OUT is full (R168, R216). -/
theorem copyMatch_post : ∀ (n : Nat) (s : State), (copyMatch n s).Post
    (fun t => t = (s.setOut t.out).setWork { s.work with i := s.work.i + n } ∧ t.out.len = s.out.len + n)
    (s.TokenFaulted n)
  | 0, _ => ⟨rfl, rfl⟩
  | n + 1, s => by
    unfold copyMatch
    cases s.peekOut (s.work.base + s.work.i) with
    | error e => trivial
    | ok b =>
      refine Flow.Post.andThen (State.appendOut_post (G := (· = s.setOut (s.out.append b))) rfl
        (s.tokenFaulted_raise rfl rfl rfl (.inr (.inr rfl)))) fun _ hu => ?_
      subst hu
      refine (copyMatch_post n _).imp (fun t ⟨ht, hlen⟩ => ⟨?_, ?_⟩) fun t ht => ht.after rfl rfl (le_refl _)
      · simpa [State.setOut, State.setWork, Nat.add_assoc, Nat.add_comm 1] using ht
      · simpa [Nat.add_assoc, Nat.add_comm 1] using hlen

/-! ## Tokens -/

theorem runLitrun_post (nm1 : BitVec 6) (data : List Byte) (s : State) :
    (runLitrun nm1 data s).Post (s.RunCompleted data.length) (s.TokenFaulted data.length) := by
  refine Flow.Post.andThen (fetchControl_goes _ s) fun _ hu => ?_
  subst hu
  dsimp only
  split_ifs
  · exact s.tokenFaulted_raise rfl rfl rfl (.inl rfl)
  · refine (copyLiterals_post data _).imp (fun t ht => ?_) fun t ht => { ht with }
    subst ht
    exact ⟨⟨⟨rfl, rfl, by simp⟩, rfl, rfl, rfl, rfl, rfl, rfl, rfl, rfl, rfl⟩, rfl, rfl, rfl⟩

/-- The checks of R219 before the copy append nothing. -/
theorem runMatch_post (c o : Byte) (s : State) :
    (runMatch c o s).Post (s.TokenCompleted (matchLength c)) (s.TokenFaulted (matchLength c)) := by
  refine Flow.Post.andThen (fetchControl_goes _ s) fun _ hu => ?_
  subst hu
  split_ifs
  · exact s.tokenFaulted_raise rfl rfl rfl (.inl rfl)
  refine Flow.Post.andThen (fetchOffset_goes _ _) fun _ hv => ?_
  subst hv
  dsimp only
  split_ifs
  · exact s.tokenFaulted_raise rfl rfl rfl (.inr (.inl rfl))
  · exact s.tokenFaulted_raise rfl rfl rfl (.inr (.inl rfl))
  · refine (copyMatch_post _ _).imp (fun t ⟨ht, hlen⟩ => ?_) fun t ht => { ht with }
    rw [ht]
    exact ⟨⟨rfl, rfl, hlen.le⟩, rfl, rfl, rfl, rfl, rfl, rfl, rfl, rfl, rfl⟩

/-- A token completes, a literal run without touching the registers of a match, or takes an exception. -/
theorem runToken_post {i : Instr} (hi : i.isToken = true) (s : State) : (runToken i s).Post
    (fun t => s.TokenCompleted i.outputLength t ∧
      ((∃ nm1 data, i = .litrun nm1 data) → s.RunCompleted i.outputLength t))
    (s.TokenFaulted i.outputLength) := by
  cases i with
  | litrun nm1 data => exact (runLitrun_post nm1 data s).imp (fun t ht => ⟨ht.toTokenCompleted, fun _ => ht⟩) fun _ => id
  | matchLo l o => exact (runMatch_post _ o s).imp (fun t ht => ⟨ht, nofun⟩) fun _ => id
  | matchHi l o => exact (runMatch_post _ o s).imp (fun t ht => ⟨ht, nofun⟩) fun _ => id
  | _ => cases hi

/-- A statement that ends in the state `t` went on to it or took an exception there. -/
theorem Flow.Post.outcome_or {x : Flow} {G R : State → Prop} {t : State} (h : x.Post G R) (ht : x.outcome = .next t) :
    G t ∨ R t :=
  Flow.Post.outcome (P := fun u => G u ∨ R u) (h.imp (fun _ => .inl) fun _ => .inr) ht

/-- A token writes no byte of OUT but those it may append. -/
theorem State.Quiet.out_read {s t : State} {n a : Nat} (h : s.Quiet t) (hlen : t.out.len ≤ s.out.len + n)
    (ha : ¬(s.out.len ≤ a ∧ a < s.out.len + n)) : t.out.mem.read a = s.out.mem.read a :=
  h.out_mem a (by omega)

end Sys2Proof.Machine
end

section
/-! PROOFS. The tokens LITRUN and MATCH, and UNPACK. -/

open Sys2Proof Sys2Proof.Machine

/-- Settles O25: the run is there and fits, so LITRUN is the literal copy to its end. -/
theorem litrunAppendsItsData : Obligations.LitrunAppendsItsData := by
  intro s nm1 data hwf hl hlen hfits hout
  have hd : data.length = nm1.toNat + 1 := by simpa [Instr.wf] using hwf
  have hrun := runLitrun_of_present (nm1 := nm1) (data := data) (s := s) (by omega) (by omega)
  rw [copyLiterals_of_fits data (by simp; omega) (by exact hfits)] at hrun
  refine ⟨_, congrArg Flow.outcome hrun, ByteStream.appendBytes_bytes data hout, rfl, ?_, rfl⟩
  simp [hd]

/-- Settles O27: the decoder rejects the bytes at the cursor, and the fetch raises the fault. -/
theorem stepFaultsOnTruncatedToken : Obligations.StepFaultsOnTruncatedToken := by
  intro s hturn hb ho hl hr hneed
  obtain ⟨e, hfetch, hreject⟩ := fetchToken_of_cutOff (s := s.afterTurn) hr hl hneed
  refine ⟨s.afterTurn.raiseCutOff (s.inp.mem.read s.inp.pos), ?_, rfl, rfl, rfl, rfl, rfl, rfl, rfl⟩
  calc step s = sequencerStep s.afterTurn := step_of_sequencerTurn hturn
    _ = (rejectToken e s.afterTurn).outcome := sequencerStep_of_rejected hb ho (hl ▸ hr) hfetch
    _ = .next (s.afterTurn.raiseCutOff (s.inp.mem.read s.inp.pos)) := congrArg Flow.outcome hreject

/-- Settles O28: the source lies inside OUT and the copy fits; byte by byte it repeats the last `distance o` bytes. -/
theorem matchCopiesFromOutput : Obligations.MatchCopiesFromOutput := by
  intro s c o i hi hl hlen hzero hnear hfits hout
  have hd := distance_range o
  have hrun := runMatch_of_near (c := c) hl hlen hzero hnear
  rw [copyMatch_of_fits _ (by simp; omega) (by exact hfits)] at hrun
  refine ⟨_, (exec_of_matchControl hi s).trans (congrArg Flow.outcome hrun), ?_, rfl, ?_, rfl⟩
  · rw [show c.toNat + 4 = matchLength c from rfl, ← copiedBytes_eq hout hd.1 hnear,
      ← ByteStream.appendBytes_bytes _ hout]
    simp
  · simp [matchLength, negoff]

/-- Settles O30: either check of the source fails before anything is appended. -/
theorem distanceFaults : Obligations.DistanceFaults := by
  intro s o i hi hl hlen hfar
  obtain ⟨c, hexec⟩ := exec_of_isMatchWith hi s
  have hreach : (o = 0 ∧ s.params.offsetZero = .fault) ∨ s.out.len < distance o :=
    hfar.symm.imp_right (matchSource_neg_iff s.out.len o).1
  obtain ⟨n, hrun⟩ := runMatch_of_far (c := c) hl hlen hreach
  exact ⟨_, hexec.trans (congrArg Flow.outcome hrun), rfl, rfl, rfl, rfl, rfl, rfl, rfl⟩

/-- Settles O32: every token keeps `State.Quiet`, and what it may write besides is `TokenCompleted` or `TokenFaulted`. -/
theorem tokenFrame : Obligations.TokenFrame := by
  intro s t i hi hexec
  rw [exec_of_isToken hi] at hexec
  have hquiet := (runToken_quiet i s).outcome hexec
  have hpost := (runToken_post hi s).outcome_or hexec
  have hkept := hpost.elim (·.1.toTokenKept) (·.toTokenKept)
  refine ⟨fun a => by rw [hquiet.inp_mem], hquiet.inp_len, fun a => by rw [hquiet.acc_mem],
    fun a => hquiet.out_read hkept.out_len, hquiet.mlen, hquiet.mpos, hquiet.argP0, hkept.op, hquiet.params,
    hquiet.host, hkept.p0, ?_⟩
  rcases hpost with ⟨h, hrun⟩ | h
  · exact .inl ⟨h.phase, h.status, h.info, h.result, h.acc_len, h.l, h.out0, h.p, h.k,
      fun hi => ⟨(hrun hi).o, (hrun hi).off, (hrun hi).base⟩⟩
  · exact .inr ⟨h.phase, h.status, h.result, h.acc_len⟩

/-- Settles O13: a running UNPACK fetches the token that the decoder reads at the cursor. -/
theorem unpackExecutesToken : Obligations.UnpackExecutesToken :=
  fun _ _ _ hb ho hr hd => exec_cmdUnpack_of_fetched hb ho hr (fetchToken_of_decode hd)

/-- Settles O26: the check before the copy fails. -/
theorem truncatedLitrunFaults : Obligations.TruncatedLitrunFaults := by
  intro s nm1 data hr hshort
  exact ⟨_, congrArg Flow.outcome (runLitrun_of_truncated (data := data) hr hshort), rfl, rfl, rfl, rfl, rfl, rfl, rfl,
    rfl, rfl, rfl, rfl⟩

/-- Settles O29: the check before the offset byte is read fails. -/
theorem truncatedMatchFaults : Obligations.TruncatedMatchFaults := by
  intro s o i hi hr hend
  obtain ⟨c, hexec⟩ := exec_of_isMatchWith hi s
  have hrun := runMatch_of_truncated (c := c) (o := o) hr hend
  exact ⟨_, hexec.trans (congrArg Flow.outcome hrun), rfl, rfl, rfl, rfl, rfl, rfl, rfl⟩

/-- Settles O33: the step is `State.finish`. -/
theorem unpackEnds : Obligations.UnpackEnds := by
  intro s hb ho hr
  exact ⟨_, exec_cmdUnpack_of_end hb ho hr, by simp⟩
end

section
/-! PROOFS. Termination: a step of a running operation brings it to its end or moves the cursor, so it comes to its end
within as many steps as IN has unread bytes and one more. And what a step of several instances is. -/

namespace Sys2Proof.Machine

/-! ## Statements -/

/-- What is known when a statement goes on and what is known when it raises may come from two lemmas. -/
theorem Flow.Post.with_raised {x : Flow} {G R G' R' : State → Prop} (hgo : x.Post G R) (hraised : x.Post G' R') :
    x.Post G R' := by
  cases x with
  | go s => exact hgo
  | raised s => exact hraised
  | fault e => trivial

theorem Flow.Contained.exists_next {x : Flow} (h : x.Contained) : ∃ t, x.outcome = .next t := by
  cases x with
  | go s => exact ⟨s, rfl⟩
  | raised s => exact ⟨s, rfl⟩
  | fault e => exact absurd rfl (h e)

/-- Bytes that hold no whole token raise TruncatedFault and nothing else (R165, R167). -/
theorem rejectToken_truncates (e : DecodeError) (s : State) :
    (rejectToken e s).Post (fun _ => False) (fun t => t.phase = .fault ∧ t.status = .truncated) := by
  cases e with
  | endOfStream => trivial
  | _ =>
    refine Flow.Post.andThen (fetchControl_goes _ s) fun u _ => ?_
    split_ifs
    · exact ⟨rfl, rfl⟩
    · trivial

/-! ## One step of an operation -/

/-- `t` is a state in which the operation `c` has come to its end: DONE, or an exception that it may take (R195,
R175). -/
inductive State.Ended (c : Cmd) (t : State) : Prop where
  | done (phase : t.phase = .done)
  | packFault (op : c = .pack) (phase : t.phase = .fault) (status : t.status = .capacity)
  | unpackFault (op : c = .unpack) (phase : t.phase = .fault)
      (status : t.status = .truncated ∨ t.status = .distance ∨ t.status = .capacity)

/-- `t` comes after a step of the operation that runs in `s`: the operation runs on with the cursor moved, or is at its
end. -/
def State.Progressed (s t : State) : Prop :=
  (t.phase = .busy ∧ t.op = s.op ∧ s.inp.pos < t.inp.pos) ∨ t.Ended s.op

/-- FIND is one step (R192). -/
theorem runFind_progress (s : State) : (runFind s).Post s.Progressed s.Progressed :=
  Flow.Post.andThen ((runMatcher_post _ s).imp (fun _ => id) fun _ => False.elim) fun _ _ => .inr (.done rfl)

/-- A literal moves the cursor by one, a match by its length (R130, R142, R144). -/
theorem PackEffect.progress {s : State} (hb : s.phase = .busy) (ho : s.op = .pack) {x : Flow} (hx : PackEffect s x) :
    x.Post s.Progressed s.Progressed := by
  cases hx with
  | literal n p hr => exact .inl ⟨hb, rfl, Nat.lt_succ_self _⟩
  | fullRun n p hr => exact .inl ⟨hb, rfl, Nat.lt_succ_self _⟩
  | found n p hn hbest =>
    have hpos : s.inp.pos < s.inp.pos + n := by omega
    exact .inl ⟨hb, rfl, hpos⟩
  | ended => exact .inr (.done rfl)
  | full t h =>
    obtain ⟨hphase, hstatus, -⟩ := h
    exact .inr (.packFault ho hphase hstatus)

/-- A token that completes moves the cursor by its length, at least two (R85, R160). -/
theorem runUnpack_progress {s : State} (h : s.Running) (ho : s.op = .unpack) :
    (runUnpack s).Post s.Progressed s.Progressed := by
  unfold runUnpack
  split_ifs with hremains
  · cases hf : s.fetchToken with
    | ok i =>
      obtain ⟨hw, ht⟩ := fetchToken_wf_isToken hf
      have hr : s.inp.pos < s.inp.len := h.l_eq ▸ State.inputRemains_iff.1 hremains
      have htwo := (tokenBytes_length_range hw ht).1
      refine ((runToken_grows h hr hw ht).with_raised (runToken_post ht s)).imp ?_ ?_
      · rintro t ⟨hphase, hop, hpos, -⟩
        exact .inl ⟨hphase.trans h.busy, hop, by omega⟩
      · exact fun t ht => .inr (.unpackFault ho ht.phase ht.status)
    | error e =>
      exact (rejectToken_truncates e s).imp (fun _ => False.elim)
        fun t ⟨hphase, hstatus⟩ => .inr (.unpackFault ho hphase (.inl hstatus))
  · exact .inr (.done rfl)

/-- By the operation in OP, which is not NONE while one runs (R37). -/
theorem runOperation_progress {s : State} (h : s.Inv) (hb : s.phase = .busy) :
    (runOperation s).Post s.Progressed s.Progressed := by
  have hrun := h.running hb
  unfold runOperation
  cases ho : s.op with
  | none =>
    obtain ⟨-, -, -, hidle, -⟩ := hrun.control
    exact absurd (hb.symm.trans (hidle.2 ho)) (by decide)
  | find => exact runFind_progress s
  | pack => exact (runPack_effect h hb).progress hb ho
  | unpack => exact runUnpack_progress hrun ho

/-! ## The run -/

/-- With no move of the host left, a running operation makes a step, which brings it forward. -/
theorem step_progresses {s : State} (h : s.Inv) (hb : s.phase = .busy) (hhost : s.host = []) :
    ∃ t, step s = .next t ∧ t.Inv ∧ t.host = [] ∧ t.inp.len = s.inp.len ∧ s.Progressed t := by
  obtain ⟨t, ht⟩ := (runOperation_contained h hb).exists_next
  have hstep : step s = .next t := (step_of_running hhost hb).trans ht
  have hframe := (runOperation_post s).outcome ht
  exact ⟨t, hstep, stepKeepsInvariant s t h hstep, hframe.host.trans hhost, hframe.inp_len,
    (runOperation_progress h hb).outcome ht⟩

/-- Every step before the last reads at least one byte of IN. -/
theorem State.Inv.runs_to_end {s : State} (h : s.Inv) (hb : s.phase = .busy) (hhost : s.host = []) :
    ∃ n t, n ≤ s.inp.len - s.inp.pos + 1 ∧ Reaches n s t ∧ t.Ended s.op := by
  obtain ⟨u, hstep, hu, huhost, hlen, ⟨hbusy, hop, hpos⟩ | hend⟩ := step_progresses h hb hhost
  · have ⟨⟨_, _, _, hinside, _⟩, _⟩ := hu
    have hcloser : u.inp.len - u.inp.pos < s.inp.len - s.inp.pos := by omega
    obtain ⟨n, t, hn, hreach, ht⟩ := State.Inv.runs_to_end hu hbusy huhost
    exact ⟨n + 1, t, by omega, .cons hstep hreach, hop ▸ ht⟩
  · exact ⟨1, u, by omega, .cons hstep (reaches_zero.2 rfl), hend⟩
termination_by s.inp.len - s.inp.pos

/-- STATUS is OK unless an operation ended in FAULT (R35). -/
theorem State.Inv.status_eq_ok {s : State} (h : s.Inv) (hp : s.phase ≠ .fault) : s.status = .ok := by
  obtain ⟨-, -, -, -, hstatus, -⟩ := h
  exact not_not.1 fun hne => hp (hstatus.1 hne)

/-! ## Several instances (R200) -/

/-- All a step of the product can do: the step at index `k`, or nothing where there is none. -/
theorem instanceStep_cases {k : Nat} {ss ts : Instances} (h : instanceStep k ss = .next ts) :
    (ss[k]? = none ∧ ts = ss) ∨ ∃ s t, ss[k]? = some s ∧ step s = .next t ∧ ts = ss.set k t := by
  unfold instanceStep at h
  cases hs : ss[k]? with
  | none =>
    rw [hs] at h
    cases h
    exact .inl ⟨rfl, rfl⟩
  | some s =>
    simp only [hs] at h
    cases hstep : step s with
    | next t =>
      rw [hstep] at h
      cases h
      exact .inr ⟨s, t, rfl, hstep, rfl⟩
    | fault f => rw [hstep] at h; cases h
    | refused r => rw [hstep] at h; cases h

end Sys2Proof.Machine
end

section
/-! PROOFS. The commands: they end, NONE does nothing, and the write of CMD starts one or is dropped; and instances
beside one another. -/

open Sys2Proof Sys2Proof.Machine

/-- Settles O51: the run to the operation's end; in DONE the invariant says that STATUS is OK. -/
theorem operationsTerminate : Obligations.OperationsTerminate := by
  intro s h hb hhost
  obtain ⟨n, t, hn, hreach, hend⟩ := h.runs_to_end hb hhost
  refine ⟨n, t, (h.running hb).l_eq ▸ hn, hreach, ?_⟩
  cases hend with
  | done hphase =>
    have ht : t.Inv := hreach.invariant stepKeepsInvariant h
    exact .inl ⟨hphase, ht.status_eq_ok (hphase ▸ nofun)⟩
  | packFault hop hphase hstatus => exact .inr (.inl ⟨hphase, hop, hstatus⟩)
  | unpackFault hop hphase hstatus => exact .inr (.inr ⟨hphase, hop, hstatus⟩)

/-- Settles O59: the step replaces the state at `k` in the list, or there is none and the list stays as it is. -/
theorem instancesAreIndependent : Obligations.InstancesAreIndependent := by
  intro k ss ts h
  rcases instanceStep_cases h with ⟨hnone, rfl⟩ | ⟨s, t, hs, hstep, rfl⟩
  · exact ⟨rfl, fun _ _ => rfl, fun s hs => nomatch hnone.symm.trans hs⟩
  · have hk : k < ss.length := (List.getElem?_eq_some_iff.1 hs).1
    refine ⟨List.length_set, fun j hj => List.getElem?_set_ne hj.symm, fun s' hs' => ?_⟩
    obtain rfl : s = s' := Option.some.inj (hs.symm.trans hs')
    exact ⟨t, hstep, List.getElem?_set_self hk⟩

/-- Settles O14: the codes and NONE are as the model writes them. -/
theorem commandCodesAndNone : Obligations.CommandCodesAndNone :=
  ⟨rfl, rfl, rfl, rfl, fun _ => rfl⟩

/-- Settles O16: the host's move is `dropped` while an operation runs, else `start`, whose fields are known. -/
theorem commandWriteStartsOrIsDropped : Obligations.CommandWriteStartsOrIsDropped := by
  intro s c rest hc hs
  have hturn : step s = hostStep (.write .cmd c.code) (s.setHost rest) := step_of_hostTurn hs
  refine ⟨fun hb => hturn.trans (hostStep_eq_next_iff.2 (.dropped c hb)), fun hb =>
    ⟨(s.setHost rest).start c, hturn.trans (hostStep_eq_next_iff.2 (.start c hc hb)), ?_⟩⟩
  cases c with
  | none => exact absurd rfl hc
  | _ => simp
end

section
/-! PROOFS. CapacityFault of a token: the checks before the copy pass, so the copy runs until it finds OUT full. -/

namespace Sys2Proof.Machine

variable {s : State} (hlen : s.work.l ≤ s.inp.len) (hout : s.out.len ≤ s.params.outLimit)
include hlen hout

/-- LITRUN with its data in IN and too little room in OUT (R166, R216). -/
theorem runLitrun_fills {nm1 : BitVec 6} {data : List Byte} (hd : data.length = nm1.toNat + 1)
    (hl : s.inp.pos + (data.length + 1) ≤ s.work.l) (hfull : s.params.outLimit < s.out.len + data.length) :
    ∃ t, runLitrun nm1 data s = .raised t ∧ s.CapacityFaulted t := by
  rw [runLitrun_of_present (by omega) (by omega),
    copyLiterals_of_full data (by simp; omega) (by exact hout) (by exact hfull)]
  exact ⟨_, rfl, rfl, rfl, rfl, by simp; omega, rfl, rfl, rfl, rfl, rfl, rfl⟩

/-- MATCH with an effect and too little room in OUT (R168, R216). -/
theorem runMatch_fills {c o : Byte} (hl : s.inp.pos + 2 ≤ s.work.l)
    (heff : (matchEffect s.params.offsetZero c o s.out.bytes).isSome = true)
    (hfull : s.params.outLimit < s.out.len + matchLength c) :
    ∃ t, runMatch c o s = .raised t ∧ s.CapacityFaulted t := by
  obtain ⟨out, hsome⟩ := Option.isSome_iff_exists.1 heff
  obtain ⟨hzero, hnear, -⟩ := matchEffect_bytes hsome
  have hd := distance_range o
  rw [runMatch_of_near hl hlen hzero hnear, copyMatch_of_full _ (by simp; omega) (by exact hout) (by exact hfull)]
  exact ⟨_, rfl, rfl, rfl, rfl, by simp; omega, rfl, rfl, rfl, rfl, rfl, rfl⟩

/-- A whole token with an effect that does not fit fills OUT up to the limit and takes CapacityFault there. -/
theorem runToken_fills {i : Instr} (hw : i.wf = true) (ht : i.isToken = true)
    (hl : s.inp.pos + (tokenBytes i).length ≤ s.work.l)
    (heff : (tokenEffect s.params.offsetZero i s.out.bytes).isSome = true)
    (hfull : s.params.outLimit < s.out.len + i.outputLength) :
    ∃ t, runToken i s = .raised t ∧ s.CapacityFaulted t := by
  cases i with
  | litrun nm1 data => exact runLitrun_fills hlen hout (by simpa [Instr.wf] using hw) hl hfull
  | matchLo l o => exact runMatch_fills hlen hout hl heff hfull
  | matchHi l o => exact runMatch_fills hlen hout hl heff hfull
  | _ => cases ht

end Sys2Proof.Machine
end

section
/-! PROOFS. The exceptions: CapacityFault inside a token. -/

open Sys2Proof Sys2Proof.Machine

/-- Settles O31: the token raises CapacityFault at the append that finds OUT full, which is `State.CapacityFaulted`. -/
theorem tokenFaultsWhenOutFills : Obligations.TokenFaultsWhenOutFills := by
  intro s i hw ht hout hl hlen heff hfull
  obtain ⟨t, hrun, hphase, hstatus, hinfo, hlimit, hresult, hacc, -⟩ := runToken_fills hlen hout hw ht hl heff hfull
  exact ⟨t, (exec_of_isToken ht s).trans (congrArg Flow.outcome hrun), hphase, hstatus, hinfo, hresult, hacc, hlimit⟩
end
